-- ==== Sys2Proof/Word.lean ====
section
/-! DEFINITION. The word types of the block: bytes of IN and OUT, 32-bit host registers (00_scope.md R11). -/

namespace Sys2Proof

/-- A byte of IN or OUT (20_memory.md R90). -/
abbrev Byte := BitVec 8

/-- A host-visible register word (10_state.md R50). -/
abbrev Word := BitVec 32

end Sys2Proof
end

