-- ==== Sys2Proof/Config.lean ====
section
/-! DEFINITION. What an instance of the block fixes (00_scope.md R10, 10_state.md R60) and the values the spec
leaves open (93_implementation_defined.md section 2). An `opaque` constant has no value that a proof can see. -/

namespace Sys2Proof

/-- The two memory sizes of an instance, each 1 ≤ size ≤ 2^32 − 1 (R10, R57). They are the contents of the
read-only registers IN_SIZE and OUT_SIZE; State holds them, so that a statement about every state is a statement
about every size (log entry 1). -/
structure Params where
  inMemSize  : Word
  outMemSize : Word
deriving DecidableEq, Repr

/-- The bound of R10: no size is 0 (the upper bound is the width). -/
def Params.legal (p : Params) : Bool := p.inMemSize != 0 && p.outMemSize != 0

/-- DESIGN CHOICE (log entry 1): the sizes `State.reset` is given. The spec leaves them open. -/
def Params.atReset : Params := { inMemSize := 131072, outMemSize := 131072 }

/-- Byte order of a register on the host bus (20_memory.md R92). -/
inductive ByteOrder where
  | littleEndian
  | bigEndian
deriving DecidableEq, Repr, Inhabited

namespace Config

/-- `REG_BUS_BYTE_ORDER` (R92, 93 U13): open, and no rule depends on it (log entry 2). -/
opaque regBusByteOrder : ByteOrder
/-- `IN_BASE` (20_memory.md R98, 93 U14): open, and no rule depends on it (log entry 2). -/
opaque inBase : Nat
/-- `OUT_BASE` (R98, 93 U14): open, and no rule depends on it (log entry 2). -/
opaque outBase : Nat
/-- `REG_BASE` (R98, 93 U14): open, and no rule depends on it (log entry 2). -/
opaque regBase : Nat

/-- Free value (log entries 5 and 9): the byte that draw `draw` gives address `addr` of a memory whose contents the
spec leaves unspecified (93 U1, U2, U5). One draw fixes one byte at each address. -/
opaque freeContents (draw addr : Nat) : Byte
/-- Free value (log entry 9): a byte read from OUT while BUSY (20_memory.md R95, 93 U3). -/
opaque freeByte (draw : Nat) : Byte
/-- Free value (log entry 9): IN_POS while BUSY or in ERROR (10_state.md R55, 93 U4). -/
opaque freeInPos (draw : Nat) : Word
/-- Free value (log entry 9): bits 3:0 of IN_BITS while BUSY or in ERROR (10_state.md R56, 93 U4). -/
opaque freeInBits (draw : Nat) : BitVec 4

end Config
end Sys2Proof
end

