-- ==== Sys2Proof/Syntax.lean ====
section
/-! DEFINITION. The syntax: one constructor per row of opcode_table.json (30_encoding.md R131 to R140). Operands are
the bits of the row's own word; extra bits are read from the stream by the meanings, in the order of checks of
47_length_distance.md R341 and 46_dynamic_block.md R299. -/

namespace Sys2Proof

/-- The stream elements and the host commands. -/
inductive Instr where
  /-- BLK_STORED: block header with BTYPE = 0 (R131, R250). -/
  | blkStored (bfinal : Bool)
  /-- BLK_FIXED: block header with BTYPE = 1 (R131, R272). -/
  | blkFixed (bfinal : Bool)
  /-- BLK_DYNAMIC: block header with BTYPE = 2 (R131, R290). -/
  | blkDynamic (bfinal : Bool)
  /-- BLK_RESERVED: block header with BTYPE = 3 (R131, R233). -/
  | blkReserved (bfinal : Bool)
  /-- HDR_STORED: LEN and NLEN (R123, R251). -/
  | hdrStored (len nlen : BitVec 16)
  /-- HDR_DYNAMIC: the three fields HLIT − 257, HDIST − 1, HCLEN − 4 as read (R127, R291). -/
  | hdrDynamic (hlit hdist : BitVec 5) (hclen : BitVec 4)
  /-- LIT: literal/length symbol 0..255, the byte appended (R132, R273). -/
  | lit (b : Byte)
  /-- EOB: literal/length symbol 256 (R132, R274). -/
  | eob
  /- LEN_257 to LEN_285: length symbols, index sym − 257 (R132, R333). -/
  | len257
  | len258
  | len259
  | len260
  | len261
  | len262
  | len263
  | len264
  | len265
  | len266
  | len267
  | len268
  | len269
  | len270
  | len271
  | len272
  | len273
  | len274
  | len275
  | len276
  | len277
  | len278
  | len279
  | len280
  | len281
  | len282
  | len283
  | len284
  | len285
  /-- LITLEN_INVALID_286 (R132, R276, R333). -/
  | litlenInvalid286
  /-- LITLEN_INVALID_287 (R132, R276, R333). -/
  | litlenInvalid287
  /- DIST_0 to DIST_29: distance symbols (R133, R337). -/
  | dist0
  | dist1
  | dist2
  | dist3
  | dist4
  | dist5
  | dist6
  | dist7
  | dist8
  | dist9
  | dist10
  | dist11
  | dist12
  | dist13
  | dist14
  | dist15
  | dist16
  | dist17
  | dist18
  | dist19
  | dist20
  | dist21
  | dist22
  | dist23
  | dist24
  | dist25
  | dist26
  | dist27
  | dist28
  | dist29
  /-- DIST_INVALID_30 (R133, R337). -/
  | distInvalid30
  /-- DIST_INVALID_31 (R133, R337). -/
  | distInvalid31
  /-- CL_LEN: code-length symbol 0..15, the bit length appended (R135, R298). -/
  | clLen (len : BitVec 4)
  /-- CL_REPEAT_PREV: code-length symbol 16 (R135, R299). -/
  | clRepeatPrev
  /-- CL_REPEAT_ZERO_SHORT: code-length symbol 17 (R135, R300). -/
  | clRepeatZeroShort
  /-- CL_REPEAT_ZERO_LONG: code-length symbol 18 (R135, R301). -/
  | clRepeatZeroLong
  /-- HOST_START: a write of `data` to CTRL; bit 0 = 1 is START, the other bits are ignored (R139, R381). -/
  | hostStart (data : Word)
  /-- HOST_WRITE_IN_LEN: a write of `data` to IN_LEN (R383). -/
  | hostWriteInLen (data : Word)
  /-- HOST_READ_STATUS (R384). -/
  | hostReadStatus
  /-- HOST_READ_OUT_LEN (R385). -/
  | hostReadOutLen
  /-- HOST_READ_IN_POS (R386). -/
  | hostReadInPos
  /-- HOST_READ_IN_BITS (R386). -/
  | hostReadInBits
  /-- HOST_READ_IN_SIZE (R387). -/
  | hostReadInSize
  /-- HOST_READ_OUT_SIZE (R387). -/
  | hostReadOutSize
  /-- HOST_WRITE_IGNORED: a write to a read-only or reserved offset (R388). -/
  | hostWriteIgnored (offset : BitVec 8) (data : Word)
  /-- HOST_READ_RESERVED: a read of a reserved offset, or of CTRL (R388, R51). -/
  | hostReadReserved (offset : BitVec 8)
deriving DecidableEq, Repr

/-- The formats of opcode_table.json. Rows of different formats share words: which format applies is decided by where
the stream is, never by the bits (30_encoding.md section 2). The table's `host_reg` is split by the access. -/
inductive Format where
  | blockHeader
  | storedHeader
  | dynamicHeader
  | litlenSymbol
  | distSymbol
  | clenSymbol
  | hostWrite
  | hostRead
deriving DecidableEq, Repr

/-- Why a word decodes to no instruction. -/
inductive DecodeError where
  /-- The word has a bit above the format's width. -/
  | wordTooWide
  /-- A literal/length symbol above 287 (30_encoding.md R132): no table holds one. -/
  | noLitlenSymbol
  /-- A code-length symbol above 18 (R135). -/
  | noClenSymbol
  /-- A register offset that is not a multiple of 4 (20_memory.md R97). -/
  | misalignedOffset
  /-- A read of IN_LEN: admitted (10_state.md R53), but no row of the table (log entry 16). -/
  | inLenReadHasNoRow
deriving DecidableEq, Repr

end Sys2Proof
end

