-- ==== Sys2Proof/Machine/State.lean ====
section
/-! DEFINITION. The state of the block and of its host port (10_state.md), the reasons a step can stop, and reset
(70_reset_and_hazards.md R450). -/

namespace Sys2Proof.Machine

/-- The dispatcher's state (10_state.md R36, 43_block_dispatcher.md R235). -/
inductive Phase where
  | idle
  | readFinal
  | readType
  | decodeBlock
  | done
  | error
deriving DecidableEq, Repr

/-- The model's own: which stream element the procedures of R250, R272, R290 and R306 read next inside DECODE_BLOCK
(log entry 6). -/
inductive Element where
  /-- The four header bytes of a stored block (R251). -/
  | storedHeader
  /-- The 14-bit header of a dynamic block (R291). -/
  | dynamicHeader
  /-- A code-length symbol (R296). -/
  | codeLength
  /-- A literal/length symbol of a fixed or dynamic block (R272, R306). -/
  | litlen
  /-- The distance part of a back-reference (R275, R306). -/
  | distance
deriving DecidableEq, Repr

/-- The bit cursor (10_state.md R31): byte index and unconsumed bits of that byte. -/
structure Cursor where
  pos  : Word
  left : BitVec 4
deriving DecidableEq, Repr

/-- A Huffman table entry (10_state.md R42): exact code value, bit length, symbol. -/
structure Entry where
  code : Nat
  len  : Nat
  sym  : Nat
deriving DecidableEq, Repr

/-- A Huffman table: its entries in symbol order. Only membership matters (41_canonical_huffman.md R195). -/
abbrev Table := List Entry

/-- A byte memory: the listed cells, addresses strictly rising. An unlisted address has no value of its own (log entry
5); `Machine/Ops.lean` says what it reads as. -/
abbrev Memory := List Host.Cell

/-- Width of a host register access (20_memory.md R97). -/
inductive AccessWidth where
  | byte
  | half
  | word
deriving DecidableEq, Repr

/-- A host access to the register window: a write of `data` or a read, at a byte offset. -/
structure RegAccess where
  write  : Bool
  width  : AccessWidth
  offset : BitVec 8
  data   : Word
deriving DecidableEq, Repr

/-- What the host can do (49_host_interface.md R390, 70_reset_and_hazards.md R450). -/
inductive HostAction where
  | reg (a : RegAccess)
  | writeIn (addr : Nat) (b : Byte)
  | readIn (addr : Nat)
  | writeOut (addr : Nat) (b : Byte)
  | readOut (addr : Nat)
  | reset
deriving DecidableEq, Repr

/-- A coming host action: it lands once the block has taken `wait` more steps of a running call, or as soon as no call
runs (log entry 7). -/
structure HostStep where
  wait   : Nat
  action : HostAction
deriving DecidableEq, Repr

/-- The error kinds (60_exceptions.md R401). -/
inductive ErrKind where
  | malformedData
  | internalBug
  | resourceLimit
deriving DecidableEq, Repr

/-- The error causes (60_exceptions.md R401; the table there is complete). -/
inductive Cause where
  | endOfInput
  | reservedBtype
  | storedLenMismatch
  | noMatchingCode
  | litlenSymbolRange
  | lengthTooLong
  | noDistanceTable
  | distSymbolRange
  | distTooFarWindow
  | distBeyondOutput
  | hlitRange
  | hdistRange
  | repeatNoPrevious
  | repeatOverflow
  | clenSymbolRange
  | internalBitrevRange
  | internalReadWidth
  | internalUnalignedRead
  | outputOverflow
  | inLenTooLarge
deriving DecidableEq, Repr

/-- The model stops with a fault. -/
inductive Fault where
  /-- Raised by `raise` for a cause of kind INTERNAL_BUG (60_exceptions.md R402, 93 U10: a model treats it as a fault).
  Safe: a conforming block never raises one, and a claim about a run that reaches it cannot be proved. -/
  | internalBug (c : Cause)
  /-- Raised by a host access to IN at an address at or beyond IN_MEM_SIZE (20_memory.md R90). Safe: the model stops. -/
  | noInAddress (addr : Nat)
  /-- Raised by a host access to OUT at an address at or beyond OUT_MEM_SIZE (20_memory.md R90). Safe: the model stops. -/
  | noOutAddress (addr : Nat)
deriving DecidableEq, Repr

/-- The model does not admit the step. -/
inductive Refusal where
  /-- Raised by `exec` for an instruction that has no meaning yet. Safe: the model stops. -/
  | notModelled (mnemonic : String)
  /-- Raised by a host write of IN while BUSY (20_memory.md R94, R390, 93 U7). Safe: the spec admits no such step. -/
  | inWriteWhileBusy
  /-- Raised by a host write of OUT while BUSY (20_memory.md R95, R390, 93 U7). Safe: the spec admits no such step. -/
  | outWriteWhileBusy
  /-- Raised by a sub-word or misaligned register access (20_memory.md R97, R390, 93 U8). Safe: the spec admits no such
  step. -/
  | narrowOrMisalignedAccess
deriving DecidableEq, Repr

/-- The state of the block, its memories, its registers and its host port. Each field cites the rule that gives it. -/
structure State where
  /-- R31: the bit cursor, the block's program counter. -/
  cursor : Cursor
  /-- R32: the final-block flag. -/
  bfinal : Bool
  /-- R33: the block type. -/
  btype : BitVec 2
  /-- R34: the current dynamic block has a distance table. -/
  distPresent : Bool
  /-- R36: the dispatcher's state. -/
  phase : Phase
  /-- R37: bytes produced so far in this call. -/
  outLen : Word
  /-- R38: LEN of the stored block. -/
  storedLen : BitVec 16
  /-- R38: NLEN of the stored block. -/
  storedNlen : BitVec 16
  /-- R39: HLIT. -/
  hlit : Nat
  /-- R39: HDIST. -/
  hdist : Nat
  /-- R39: HCLEN. -/
  hclen : Nat
  /-- R40: the 19 code-length-alphabet lengths, by symbol. -/
  clenLens : List (BitVec 3)
  /-- R41: the bit lengths decoded so far; `lens_count` is the length of this list (log entry 4). -/
  lens : List (BitVec 4)
  /-- R42: META_TAB. -/
  metaTab : Table
  /-- R42: LITLEN_TAB. -/
  litlenTab : Table
  /-- R42: DIST_TAB. -/
  distTab : Table
  /-- R43: the length of the back-reference. -/
  copyLen : Nat
  /-- R43: the distance of the back-reference. -/
  copyDist : Nat
  /-- R44: the kind of the error that ended the last call. -/
  errKind : BitVec 2
  /-- R44: its cause. -/
  errCause : BitVec 8
  /-- R46: the input memory. -/
  inMem : Memory
  /-- R47: the output memory. -/
  outMem : Memory
  /-- R53: the register IN_LEN. -/
  inLen : Word
  /-- R57: the constants in IN_SIZE and OUT_SIZE (log entry 1). -/
  params : Params
  /-- The model's own (log entry 6): the next element of the block being decoded. -/
  expect : Element
  /-- The model's own (log entry 7): the host's coming actions. -/
  hostQueue : List HostStep
  /-- The model's own (log entry 8): the word the last host register read returned. -/
  hostWord : Word
  /-- The model's own (log entry 8): the byte the last host memory read returned. -/
  hostByte : Byte
  /-- The model's own (log entry 9): free values drawn so far. -/
  freeDraw : Nat
  /-- The model's own (log entries 5, 9): the draw behind the bytes of IN that nothing has written. -/
  inDraw : Nat
  /-- The model's own (log entries 5, 9): the draw behind the unspecified bytes of OUT. -/
  outDraw : Nat
deriving DecidableEq, Repr

/-- The start of every call, and reset (R31): byte 0, eight bits unconsumed. -/
def Cursor.start : Cursor := { pos := 0, left := 8 }

/-- Reset of an instance with sizes `p` (70_reset_and_hazards.md R450). The working registers of R38 to R43 have no
reset value in the spec and hold 0 or nothing (log entry 3). -/
def State.resetOf (p : Params) : State where
  cursor := Cursor.start
  bfinal := false
  btype := 0
  distPresent := false
  phase := .idle
  outLen := 0
  storedLen := 0
  storedNlen := 0
  hlit := 0
  hdist := 0
  hclen := 0
  clenLens := List.replicate 19 0
  lens := []
  metaTab := []
  litlenTab := []
  distTab := []
  copyLen := 0
  copyDist := 0
  errKind := 0
  errCause := 0
  inMem := []
  outMem := []
  inLen := 0
  params := p
  expect := .storedHeader
  hostQueue := []
  hostWord := 0
  hostByte := 0
  freeDraw := 2
  inDraw := 0
  outDraw := 1

/-- The machine right after reset (R450), an instance with the sizes of log entry 1. -/
def State.reset : State := State.resetOf Params.atReset

end Sys2Proof.Machine
end

