-- ==== Sys2Proof/Machine/Flags.lean ====
section
/-! DEFINITION. What the block computes from its phase and errors: BUSY, DONE, ERROR, the numbers of kinds and causes,
and the words of the read-only registers (10_state.md R35, R36, R50 to R58; 60_exceptions.md R401). The block has no
arithmetic condition codes (R35). -/

namespace Sys2Proof.Machine

/-- The numbers of R36. Only STATUS is observable (93 U23). -/
def Phase.code : Phase → Nat
  | .idle => 0
  | .readFinal => 1
  | .readType => 2
  | .decodeBlock => 3
  | .done => 4
  | .error => 5

/-- The phases of a running call (10_state.md R52). -/
def Phase.busy : Phase → Bool
  | .readFinal => true
  | .readType => true
  | .decodeBlock => true
  | .idle => false
  | .done => false
  | .error => false

/-- STATUS.BUSY (10_state.md R52). -/
def State.busy (s : State) : Bool := s.phase.busy

/-- The ERR_KIND numbers of R401. -/
def ErrKind.code : ErrKind → BitVec 2
  | .malformedData => 1
  | .internalBug => 2
  | .resourceLimit => 3

/-- The kind of each cause (R401). -/
def Cause.kind : Cause → ErrKind
  | .endOfInput => .malformedData
  | .reservedBtype => .malformedData
  | .storedLenMismatch => .malformedData
  | .noMatchingCode => .malformedData
  | .litlenSymbolRange => .malformedData
  | .lengthTooLong => .malformedData
  | .noDistanceTable => .malformedData
  | .distSymbolRange => .malformedData
  | .distTooFarWindow => .malformedData
  | .distBeyondOutput => .malformedData
  | .hlitRange => .malformedData
  | .hdistRange => .malformedData
  | .repeatNoPrevious => .malformedData
  | .repeatOverflow => .malformedData
  | .clenSymbolRange => .malformedData
  | .internalBitrevRange => .internalBug
  | .internalReadWidth => .internalBug
  | .internalUnalignedRead => .internalBug
  | .outputOverflow => .resourceLimit
  | .inLenTooLarge => .resourceLimit

/-- The ERR_CAUSE numbers of R401. -/
def Cause.code : Cause → BitVec 8
  | .endOfInput => 0x01
  | .reservedBtype => 0x02
  | .storedLenMismatch => 0x03
  | .noMatchingCode => 0x04
  | .litlenSymbolRange => 0x05
  | .lengthTooLong => 0x06
  | .noDistanceTable => 0x07
  | .distSymbolRange => 0x08
  | .distTooFarWindow => 0x09
  | .distBeyondOutput => 0x0A
  | .hlitRange => 0x0B
  | .hdistRange => 0x0C
  | .repeatNoPrevious => 0x0D
  | .repeatOverflow => 0x0E
  | .clenSymbolRange => 0x0F
  | .internalBitrevRange => 0x40
  | .internalReadWidth => 0x41
  | .internalUnalignedRead => 0x42
  | .outputOverflow => 0x80
  | .inLenTooLarge => 0x81

/-- The STATUS word (10_state.md R52): BUSY in bit 0, DONE in bit 1, ERROR in bit 2, ERR_KIND in bits 5:4, ERR_CAUSE in
bits 15:8, every other bit 0. -/
def State.statusWord (s : State) : Word :=
  (if s.busy then 1#32 else 0#32)
    ||| (if s.phase = .done then 2#32 else 0#32)
    ||| (if s.phase = .error then 4#32 else 0#32)
    ||| (s.errKind.setWidth 32 <<< 4)
    ||| (s.errCause.setWidth 32 <<< 8)

/-- The OUT_LEN word (10_state.md R54): `out_len` when DONE, else 0. -/
def State.outLenWord (s : State) : Word := if s.phase = .done then s.outLen else 0

end Sys2Proof.Machine
end

