-- ==== Sys2Proof/Machine/Operands.lean ====
section
/-! DEFINITION. Operand forms: bit reversal (00_scope.md R13), the constant tables of 10_state.md R45, and the operands
assembled from a base and extra bits (30_encoding.md R129). -/

namespace Sys2Proof.Machine

/-- The `L` low bits of `v` in reverse order (R13): bit `i` of the result is bit `L − 1 − i` of `v`. -/
def revBits : Nat → Nat → Nat
  | 0, _ => 0
  | L + 1, v => (v % 2) * 2 ^ L + revBits L (v / 2)

/-- `bitrev(v, L)` (R13): legal for 1 ≤ L ≤ 15, else INTERNAL_BITREV_RANGE. -/
def bitrev (v L : Nat) : Except Cause Nat :=
  if 1 ≤ L ∧ L ≤ 15 then .ok (revBits L v) else .error .internalBitrevRange

/-- LBASE (47_length_distance.md R331; the RFC 1951 values, log entry 15). -/
def lbase : List Nat :=
  [3, 4, 5, 6, 7, 8, 9, 10, 11, 13, 15, 17, 19, 23, 27, 31, 35, 43, 51, 59, 67, 83, 99, 115, 131, 163, 195, 227, 258]

/-- LEXTRA (R331). -/
def lextra : List Nat :=
  [0, 0, 0, 0, 0, 0, 0, 0, 1, 1, 1, 1, 2, 2, 2, 2, 3, 3, 3, 3, 4, 4, 4, 4, 5, 5, 5, 5, 0]

/-- DBASE (R332; the RFC 1951 values, log entry 15). -/
def dbase : List Nat :=
  [1, 2, 3, 4, 5, 7, 9, 13, 17, 25, 33, 49, 65, 97, 129, 193, 257, 385, 513, 769, 1025, 1537, 2049, 3073, 4097, 6145]
  ++ [8193, 12289, 16385, 24577]

/-- DEXTRA (R332). -/
def dextra : List Nat :=
  [0, 0, 0, 0, 1, 1, 2, 2, 3, 3, 4, 4, 5, 5, 6, 6, 7, 7, 8, 8, 9, 9, 10, 10, 11, 11, 12, 12, 13, 13]

/-- CLEN_ORDER (46_dynamic_block.md R293; the RFC 1951 order, log entry 15). -/
def clenOrder : List Nat := [16, 17, 18, 0, 8, 7, 9, 6, 10, 5, 11, 4, 12, 3, 13, 2, 14, 1, 15]

/-- FIXED_LENGTHS[0..287] (45_fixed_block.md R270). -/
def fixedLengths : List Nat :=
  List.replicate 144 8 ++ List.replicate 112 9 ++ List.replicate 24 7 ++ List.replicate 8 8

/-- LENGTH_MAX (00_scope.md R10). -/
def lengthMax : Nat := 258

/-- WINDOW_MAX (R10). -/
def windowMax : Nat := 32768

/-- HLIT_MAX (R10). -/
def hlitMax : Nat := 286

/-- HDIST_MAX (R10). -/
def hdistMax : Nat := 30

/-- MAX_CODE_LEN (R10). -/
def maxCodeLen : Nat := 15

/-- READ_MAX (R10). -/
def readMax : Nat := 32

/-- HLIT, HDIST and HCLEN of the fields as read (30_encoding.md R130). -/
def hlitOf (field : BitVec 5) : Nat := field.toNat + 257

/-- HDIST (R130). -/
def hdistOf (field : BitVec 5) : Nat := field.toNat + 1

/-- HCLEN (R130). -/
def hclenOf (field : BitVec 4) : Nat := field.toNat + 4

end Sys2Proof.Machine
end

