-- ==== Sys2Proof/Machine/Ops.lean ====
section
/-! DEFINITION. The named operations over memory, the output buffer, errors and blocks that every meaning shares. -/

namespace Sys2Proof.Machine

/-- What a meaning answers. -/
abbrev Out := Host.Outcome State Fault Refusal

/-! ### Byte memories -/

/-- The canonical form: addresses strictly rising. -/
def Memory.wf (m : Memory) : Bool := decide (m.Pairwise fun x y => x.1 < y.1)

/-- The listed byte at an address. An unlisted address has no value (log entry 5). -/
def Memory.read (m : Memory) (a : Nat) : Option Byte :=
  match m with
  | [] => none
  | c :: m => if c.1 = a then some c.2 else Memory.read m a

/-- The listed byte at an address is replaced, or listed at its place in the order. -/
def Memory.write (m : Memory) (a : Nat) (b : Byte) : Memory :=
  match m with
  | [] => [(a, b)]
  | c :: m => if a < c.1 then (a, b) :: c :: m else if a = c.1 then (a, b) :: m else c :: Memory.write m a b

/-- `MemRead(IN, a, 1)` (00_scope.md R12). A byte nothing has written since reset is a free value, one for each address
(93 U5). -/
def State.inByte (s : State) (a : Nat) : Byte := (Memory.read s.inMem a).getD (Config.freeContents s.inDraw a)

/-- `MemRead(OUT, a, 1)` (R12). A byte whose value the spec leaves unspecified is a free value, one for each address
(93 U1, U2, U5). -/
def State.outByte (s : State) (a : Nat) : Byte := (Memory.read s.outMem a).getD (Config.freeContents s.outDraw a)

/-- The whole of OUT becomes unspecified (20_memory.md R95, R454; 93 U1). -/
def State.forgetOut (s : State) : State := { s with outMem := [], outDraw := s.freeDraw, freeDraw := s.freeDraw + 1 }

/-! ### Errors -/

/-- Entry into the error state (60_exceptions.md R400, R403): the kind and cause are recorded, the phase becomes ERROR
and every byte of OUT becomes unspecified. Nothing else is observable afterwards. There is no handler, no saved state
and no return (R403, R404). -/
def State.enterError (c : Cause) (s : State) : State :=
  { s.forgetOut with phase := .error, errKind := c.kind.code, errCause := c.code }

/-- `raise` (00_scope.md R12, R400). A cause of kind INTERNAL_BUG is the model's fault (R402). -/
def raise (c : Cause) (s : State) : Out :=
  if c.kind = .internalBug then .fault (.internalBug c) else .next (s.enterError c)

/-! ### Calls and blocks -/

/-- An accepted START (49_host_interface.md R381): errors cleared, and the initial state of every call (R230): cursor
(0, 8) and an empty output. OUT is the block's from here on (R95, R454). -/
def State.startCall (s : State) : State :=
  { s.forgetOut with phase := .readFinal, cursor := Cursor.start, outLen := 0, errKind := 0, errCause := 0 }

/-- A block decoder returns to the dispatcher (43_block_dispatcher.md R234). -/
def State.endBlock (s : State) : State := { s with phase := if s.bfinal then .done else .readFinal }

/-- DECODE_BLOCK begins on a block of type `btype` whose first element is `first` (R233). -/
def State.enterBlock (bfinal : Bool) (btype : BitVec 2) (first : Element) (s : State) : State :=
  { s with bfinal := bfinal, btype := btype, phase := .decodeBlock, expect := first }

/-- The next element of the block being decoded (log entry 6). -/
def State.setExpect (e : Element) (s : State) : State := { s with expect := e }

/-- LEN and NLEN are written (10_state.md R38). -/
def State.setStoredHeader (len nlen : BitVec 16) (s : State) : State := { s with storedLen := len, storedNlen := nlen }

/-- HLIT, HDIST and HCLEN are written (R39). -/
def State.setCounts (hlit hdist hclen : Nat) (s : State) : State :=
  { s with hlit := hlit, hdist := hdist, hclen := hclen }

/-- `copy_len` is written (R43). -/
def State.setCopyLen (n : Nat) (s : State) : State := { s with copyLen := n }

/-- `copy_dist` is written (R43). -/
def State.setCopyDist (d : Nat) (s : State) : State := { s with copyDist := d }

/-! ### The output buffer -/

/-- `append(v)` (48_lz77_expander.md R360). -/
def append (v : Byte) (s : State) : Except Cause State :=
  if s.outLen = s.params.outMemSize then .error .outputOverflow
  else .ok { s with outMem := Memory.write s.outMem s.outLen.toNat v, outLen := s.outLen + 1 }

/-- The bytes of a stored block, appended in order (44_stored_block.md R250). -/
def appendAll : List Byte → State → Except Cause State
  | [], s => .ok s
  | v :: vs, s =>
    match append v s with
    | .error c => .error c
    | .ok s' => appendAll vs s'

/-- `lz77_copy(length, distance)` (R361), byte by byte: each byte read is the one `distance` before the end as it then
is (R364). -/
def lz77Copy : Nat → Nat → State → Except Cause State
  | 0, _, s => .ok s
  | n + 1, distance, s =>
    match append (s.outByte (s.outLen.toNat - distance)) s with
    | .error c => .error c
    | .ok s' => lz77Copy n distance s'

/-! ### What a host read returns -/

/-- A register read returns a word (log entry 8). -/
def State.giveWord (w : Word) (s : State) : State := { s with hostWord := w }

/-- A memory read returns a byte (log entry 8). -/
def State.giveByte (b : Byte) (s : State) : State := { s with hostByte := b }

/-- A free value has been drawn (log entry 9). -/
def State.drawFree (s : State) : State := { s with freeDraw := s.freeDraw + 1 }

/-- Reset asserted (70_reset_and_hazards.md R450, R451): the block takes its reset values and the contents of both
memories become unspecified. The host's own coming actions and what it last read are not the block's (log entry 12). -/
def State.assertReset (s : State) : State :=
  { State.resetOf s.params with
    hostQueue := s.hostQueue, hostWord := s.hostWord, hostByte := s.hostByte,
    inDraw := s.freeDraw, outDraw := s.freeDraw + 1, freeDraw := s.freeDraw + 2 }

end Sys2Proof.Machine
end

