-- ==== Sys2Proof/Machine/Cursor.lean ====
section
/-! DEFINITION. The bit cursor (40_bit_cursor.md): the only path from IN to the rest of the block. Each operation answers
the value read and the cursor after it; the caller moves the cursor. -/

namespace Sys2Proof.Machine

/-- The cursor is moved: only the operations of this file give the new one (R177). -/
def State.setCursor (c : Cursor) (s : State) : State := { s with cursor := c }

/-- `avail()`: the bits of the stream not yet consumed. -/
def State.avail (s : State) : Nat := 8 * (s.inLen.toNat - s.cursor.pos.toNat) - (8 - s.cursor.left.toNat)

/-- `next_bit()` at a cursor (10_state.md R31): bit `8 − left` of byte `pos`. -/
def State.bitAt (s : State) (c : Cursor) : Bool := (s.inByte c.pos.toNat).getLsbD (8 - c.left.toNat)

/-- `advance1()`. -/
def Cursor.advance1 (c : Cursor) : Cursor :=
  if c.left - 1 = 0 then { pos := c.pos + 1, left := 8 } else { c with left := c.left - 1 }

/-- The loop of `read_bits` (R170) from a cursor: the first bit read is bit 0 of the value (30_encoding.md R121). -/
def State.takeBits (s : State) : Nat → Cursor → Nat × Cursor
  | 0, c => (0, c)
  | n + 1, c =>
    let rest := s.takeBits n c.advance1
    ((s.bitAt c).toNat + 2 * rest.1, rest.2)

/-- `read_bits(n)` (R170 to R172). -/
def readBits (n : Nat) (s : State) : Except Cause (Nat × Cursor) :=
  if readMax < n then .error .internalReadWidth
  else if s.avail < n then .error .endOfInput
  else .ok (s.takeBits n s.cursor)

/-- `peek_bits(n)` (R173): the value, the cursor left alone. -/
def peekBits (n : Nat) (s : State) : Except Cause Nat :=
  match readBits n s with
  | .error c => .error c
  | .ok (v, _) => .ok v

/-- `skip_bits(n)` (R174): the cursor after a read. -/
def skipBits (n : Nat) (s : State) : Except Cause Cursor :=
  match readBits n s with
  | .error c => .error c
  | .ok (_, c) => .ok c

/-- `read_bytes(n)` (R175). -/
def readBytes (n : Nat) (s : State) : Except Cause (List Byte × Cursor) :=
  if s.cursor.left ≠ 8 then .error .internalUnalignedRead
  else if s.inLen.toNat - s.cursor.pos.toNat < n then .error .endOfInput
  else .ok ((List.range n).map fun k => s.inByte (s.cursor.pos.toNat + k),
            { s.cursor with pos := s.cursor.pos + BitVec.ofNat 32 n })

/-- `skip_to_byte_boundary()` (R176). -/
def Cursor.align (c : Cursor) : Cursor := if c.left = 8 then c else { pos := c.pos + 1, left := 8 }

/-- Stream bits consumed at a cursor (10_state.md R56): `8 × pos + (8 − left)`. -/
def Cursor.consumed (c : Cursor) : Nat := 8 * c.pos.toNat + (8 - c.left.toNat)

end Sys2Proof.Machine
end

