-- ==== Sys2Proof/Machine/Huffman.lean ====
section
/-! DEFINITION. Canonical Huffman tables (41_canonical_huffman.md) and the symbol decoder (42_symbol_decoder.md). -/

namespace Sys2Proof.Machine

/-- `bl_count[L]` (R191 step 1): symbols of length 0 are not counted (R193). -/
def blCount (lens : List Nat) (L : Nat) : Nat := if L = 0 then 0 else lens.count L

/-- Step 2 of R191 from length `L` on: the first codes of the next `n` lengths, `code` being the first code of length
`L`. -/
def firstCodesFrom (lens : List Nat) : Nat → Nat → Nat → List Nat
  | 0, _, _ => []
  | n + 1, L, code =>
    let code' := (code + blCount lens L) * 2
    code' :: firstCodesFrom lens n (L + 1) code'

/-- `next_code[0..15]` before step 3 of R191, with 0 for length 0. -/
def firstCodes (lens : List Nat) : List Nat := 0 :: firstCodesFrom lens maxCodeLen 0 0

/-- Step 3 of R191: the symbols from `sym` on, in index order, each taking the next code of its length. -/
def assign (next : List Nat) (sym : Nat) : List Nat → Table
  | [] => []
  | L :: lens =>
    if L = 0 then assign next (sym + 1) lens
    else
      let code := next.getD L 0
      { code := code, len := L, sym := sym } :: assign (next.set L (code + 1)) (sym + 1) lens

/-- `build(lens)` (R190, R191). -/
def build (lens : List Nat) : Table := assign (firstCodes lens) 0 lens

/-- `lookup(T, c, L)` (R195). -/
def lookup (t : Table) (code len : Nat) : Option Nat :=
  match t with
  | [] => none
  | e :: t => if e.code = code ∧ e.len = len then some e.sym else lookup t code len

/-- FIXED_LITLEN (R192, 45_fixed_block.md R271). -/
def fixedLitlen : Table := build fixedLengths

/-- The loop of `decode` (R211) over `n` lengths from `L` on. -/
def decodeSymbolFrom (t : Table) (s : State) : Nat → Nat → Except Cause (Nat × Cursor)
  | 0, _ => .error .noMatchingCode
  | n + 1, L =>
    match peekBits L s with
    | .error c => .error c
    | .ok v =>
      match bitrev v L with
      | .error c => .error c
      | .ok code =>
        match lookup t code L with
        | none => decodeSymbolFrom t s n (L + 1)
        | some sym =>
          match skipBits L s with
          | .error c => .error c
          | .ok c => .ok (sym, c)

/-- `decode(T, Lmin, Lmax)` (R210 to R212): the shortest matching code. -/
def decodeSymbol (t : Table) (lmin lmax : Nat) (s : State) : Except Cause (Nat × Cursor) :=
  decodeSymbolFrom t s (lmax + 1 - lmin) lmin

end Sys2Proof.Machine
end

