-- ==== Sys2Proof/Machine/Block.lean ====
section
/-! DEFINITION. Block headers (43_block_dispatcher.md R233) and stored blocks (44_stored_block.md). -/

namespace Sys2Proof.Machine

/-- BLK_STORED (R233, R250): a stored block begins, at the next byte boundary. -/
def execBlkStored (bfinal : Bool) (s : State) : Out :=
  .next ((s.enterBlock bfinal 0 .storedHeader).setCursor s.cursor.align)

/-- BLK_FIXED (R233, R272): a fixed block begins, with no alignment. -/
def execBlkFixed (bfinal : Bool) (s : State) : Out := .next (s.enterBlock bfinal 1 .litlen)

/-- BLK_DYNAMIC (R233, R290): a dynamic block begins, with no alignment. -/
def execBlkDynamic (bfinal : Bool) (s : State) : Out := .next (s.enterBlock bfinal 2 .dynamicHeader)

/-- BLK_RESERVED (R233): RESERVED_BTYPE, for a final and a non-final block alike. -/
def execBlkReserved (bfinal : Bool) (s : State) : Out := raise .reservedBtype (s.enterBlock bfinal 3 .storedHeader)

/-- HDR_STORED (R250 to R254): the complement check, then the data, then the end of the block. -/
def execHdrStored (len nlen : BitVec 16) (s : State) : Out :=
  let s := s.setStoredHeader len nlen
  if nlen ≠ ~~~len then raise .storedLenMismatch s
  else if len = 0 then .next s.endBlock
  else
    match readBytes len.toNat s with
    | .error c => raise c s
    | .ok (data, c) =>
      match appendAll data (s.setCursor c) with
      | .error c => raise c s
      | .ok s => .next s.endBlock

end Sys2Proof.Machine
end

