-- ==== Sys2Proof/Machine/Distance.lean ====
section
/-! DEFINITION. Distance symbols, in fixed and dynamic blocks alike, and the copy they complete (30_encoding.md R133,
47_length_distance.md R337 to R341, 48_lz77_expander.md R361). -/

namespace Sys2Proof.Machine

/-- `resolve_distance(dsym)` (R337, R338): the range check, the extra bits, the window, the output. -/
def resolveDistance (dsym : Nat) (s : State) : Except Cause (Nat × Cursor) :=
  if 29 < dsym then .error .distSymbolRange
  else
    match readBits (dextra.getD dsym 0) s with
    | .error c => .error c
    | .ok (x, c) =>
      let d := dbase.getD dsym 0 + x
      if windowMax < d then .error .distTooFarWindow
      else if s.outLen.toNat < d then .error .distBeyondOutput
      else .ok (d, c)

/-- A distance symbol (R272, R306): the distance is resolved, the copy is made, a literal/length symbol comes next. -/
def distanceSymbol (dsym : Nat) (s : State) : Out :=
  match resolveDistance dsym s with
  | .error c => raise c s
  | .ok (d, c) =>
    let s := (s.setCursor c).setCopyDist d
    match lz77Copy s.copyLen d s with
    | .error c => raise c s
    | .ok s => .next (s.setExpect .litlen)

/-- DIST_0 (R332, R337). -/
def execDist0 (s : State) : Out := distanceSymbol 0 s

/-- DIST_1 (R332, R337). -/
def execDist1 (s : State) : Out := distanceSymbol 1 s

/-- DIST_2 (R332, R337). -/
def execDist2 (s : State) : Out := distanceSymbol 2 s

/-- DIST_3 (R332, R337). -/
def execDist3 (s : State) : Out := distanceSymbol 3 s

/-- DIST_4 (R332, R337). -/
def execDist4 (s : State) : Out := distanceSymbol 4 s

/-- DIST_5 (R332, R337). -/
def execDist5 (s : State) : Out := distanceSymbol 5 s

/-- DIST_6 (R332, R337). -/
def execDist6 (s : State) : Out := distanceSymbol 6 s

/-- DIST_7 (R332, R337). -/
def execDist7 (s : State) : Out := distanceSymbol 7 s

/-- DIST_8 (R332, R337). -/
def execDist8 (s : State) : Out := distanceSymbol 8 s

/-- DIST_9 (R332, R337). -/
def execDist9 (s : State) : Out := distanceSymbol 9 s

/-- DIST_10 (R332, R337). -/
def execDist10 (s : State) : Out := distanceSymbol 10 s

/-- DIST_11 (R332, R337). -/
def execDist11 (s : State) : Out := distanceSymbol 11 s

/-- DIST_12 (R332, R337). -/
def execDist12 (s : State) : Out := distanceSymbol 12 s

/-- DIST_13 (R332, R337). -/
def execDist13 (s : State) : Out := distanceSymbol 13 s

/-- DIST_14 (R332, R337). -/
def execDist14 (s : State) : Out := distanceSymbol 14 s

/-- DIST_15 (R332, R337). -/
def execDist15 (s : State) : Out := distanceSymbol 15 s

/-- DIST_16 (R332, R337). -/
def execDist16 (s : State) : Out := distanceSymbol 16 s

/-- DIST_17 (R332, R337). -/
def execDist17 (s : State) : Out := distanceSymbol 17 s

/-- DIST_18 (R332, R337). -/
def execDist18 (s : State) : Out := distanceSymbol 18 s

/-- DIST_19 (R332, R337). -/
def execDist19 (s : State) : Out := distanceSymbol 19 s

/-- DIST_20 (R332, R337). -/
def execDist20 (s : State) : Out := distanceSymbol 20 s

/-- DIST_21 (R332, R337). -/
def execDist21 (s : State) : Out := distanceSymbol 21 s

/-- DIST_22 (R332, R337). -/
def execDist22 (s : State) : Out := distanceSymbol 22 s

/-- DIST_23 (R332, R337). -/
def execDist23 (s : State) : Out := distanceSymbol 23 s

/-- DIST_24 (R332, R337). -/
def execDist24 (s : State) : Out := distanceSymbol 24 s

/-- DIST_25 (R332, R337). -/
def execDist25 (s : State) : Out := distanceSymbol 25 s

/-- DIST_26 (R332, R337). -/
def execDist26 (s : State) : Out := distanceSymbol 26 s

/-- DIST_27 (R332, R337). -/
def execDist27 (s : State) : Out := distanceSymbol 27 s

/-- DIST_28 (R332, R337). -/
def execDist28 (s : State) : Out := distanceSymbol 28 s

/-- DIST_29 (R332, R337). -/
def execDist29 (s : State) : Out := distanceSymbol 29 s

/-- DIST_INVALID_30 (R337): no row of the distance tables. -/
def execDistInvalid30 (s : State) : Out := distanceSymbol 30 s

/-- DIST_INVALID_31 (R337): no row of the distance tables. -/
def execDistInvalid31 (s : State) : Out := distanceSymbol 31 s

end Sys2Proof.Machine
end

