-- ==== Sys2Proof/Machine/Dynamic.lean ====
section
/-! DEFINITION. The header and the bit lengths of a dynamic block (46_dynamic_block.md). -/

namespace Sys2Proof.Machine

/-- The code-length lengths (R294): one 3-bit value for each slot of `order`, placed in `acc` by symbol. -/
def readClens : List Nat → List (BitVec 3) → State → Except Cause (List (BitVec 3) × Cursor)
  | [], acc, s => .ok (acc, s.cursor)
  | slot :: order, acc, s =>
    match readBits 3 s with
    | .error c => .error c
    | .ok (v, c) => readClens order (acc.set slot (BitVec.ofNat 3 v)) (s.setCursor c)

/-- The code-length lengths are written, the meta-table is built from them (R295), and no bit length is there yet (R296). -/
def State.setCodeLengths (clens : List (BitVec 3)) (s : State) : State :=
  { s with clenLens := clens, metaTab := build (clens.map BitVec.toNat), lens := [] }

/-- HDR_DYNAMIC (R290 to R296): the counts are checked, HLIT first (R292), then the code-length lengths are read and the
meta-table is built. -/
def execHdrDynamic (hlit hdist : BitVec 5) (hclen : BitVec 4) (s : State) : Out :=
  let s := s.setCounts (hlitOf hlit) (hdistOf hdist) (hclenOf hclen)
  if hlitMax < s.hlit then raise .hlitRange s
  else if hdistMax < s.hdist then raise .hdistRange s
  else
    match readClens (clenOrder.take s.hclen) (List.replicate 19 0) s with
    | .error c => raise c s
    | .ok (clens, c) =>
      .next (((s.setCursor c).setCodeLengths clens).setExpect .codeLength)

/-- `lens_count` (10_state.md R41; log entry 4). -/
def State.lensCount (s : State) : Nat := s.lens.length

/-- The literal/length part of `lens` (R303). -/
def State.litlenLens (s : State) : List Nat := (s.lens.take s.hlit).map BitVec.toNat

/-- The distance part of `lens` (R303). -/
def State.distLens (s : State) : List Nat := ((s.lens.drop s.hlit).take s.hdist).map BitVec.toNat

/-- The tables of the block once every bit length is known (R304, R305): a single distance length 0 means no distance
table at all. -/
def State.buildTables (s : State) : State :=
  if s.hdist = 1 ∧ s.distLens = [0] then
    { s with litlenTab := build s.litlenLens, distPresent := false, expect := .litlen }
  else
    { s with litlenTab := build s.litlenLens, distPresent := true, distTab := build s.distLens, expect := .litlen }

/-- The loop test of R290: another code-length symbol, or the tables and the data (R296, R297). -/
def State.continueLengths (s : State) : State :=
  if s.lensCount < s.hlit + s.hdist then s.setExpect .codeLength else s.buildTables

/-- `put(v, r)` (R290). -/
def State.putLengths (v : BitVec 4) (r : Nat) (s : State) : State := { s with lens := s.lens ++ List.replicate r v }

/-- The repeat symbols after their extra bits (R302): `check(r)`, then `put(v, r)`. -/
def repeatLength (v : BitVec 4) (r : Nat) (s : State) : Out :=
  if s.hlit + s.hdist < s.lensCount + r then raise .repeatOverflow s
  else .next (s.putLengths v r).continueLengths

/-- CL_LEN (R298): the bit length is appended once. -/
def execClLen (len : BitVec 4) (s : State) : Out := .next (s.putLengths len 1).continueLengths

/-- CL_REPEAT_PREV (R299, R308): the last length in `lens`, whichever part it belongs to, 3 to 6 more times. -/
def execClRepeatPrev (s : State) : Out :=
  match s.lens.getLast? with
  | none => raise .repeatNoPrevious s
  | some prev =>
    match readBits 2 s with
    | .error c => raise c s
    | .ok (v, c) => repeatLength prev (3 + v) (s.setCursor c)

/-- CL_REPEAT_ZERO_SHORT (R300): 3 to 10 zeros. -/
def execClRepeatZeroShort (s : State) : Out :=
  match readBits 3 s with
  | .error c => raise c s
  | .ok (v, c) => repeatLength 0 (3 + v) (s.setCursor c)

/-- CL_REPEAT_ZERO_LONG (R301): 11 to 138 zeros. -/
def execClRepeatZeroLong (s : State) : Out :=
  match readBits 7 s with
  | .error c => raise c s
  | .ok (v, c) => repeatLength 0 (11 + v) (s.setCursor c)

end Sys2Proof.Machine
end

