-- ==== Sys2Proof/Machine/HostPort.lean ====
section
/-! DEFINITION. The host's register accesses (49_host_interface.md R381 to R388, 10_state.md R50 to R58). -/

namespace Sys2Proof.Machine

/-- HOST_START (R381, R382): a write of CTRL. Bit 0 = 1 while no call runs starts one, or fails at once when IN_LEN
exceeds the input memory; anything else has no effect. -/
def execHostStart (data : Word) (s : State) : Out :=
  if data.getLsbD 0 = false then .next s
  else if s.busy then .next s
  else if s.params.inMemSize < s.inLen then raise .inLenTooLarge s
  else .next s.startCall

/-- HOST_WRITE_IN_LEN (R383): ignored while BUSY. -/
def execHostWriteInLen (data : Word) (s : State) : Out :=
  if s.busy then .next s else .next { s with inLen := data }

/-- HOST_READ_STATUS (R384). -/
def execHostReadStatus (s : State) : Out := .next (s.giveWord s.statusWord)

/-- HOST_READ_OUT_LEN (R385). -/
def execHostReadOutLen (s : State) : Out := .next (s.giveWord s.outLenWord)

/-- HOST_READ_IN_POS (R386, 10_state.md R55): the final cursor's byte index, 0 before any call, free while BUSY or in
ERROR. -/
def execHostReadInPos (s : State) : Out :=
  match s.phase with
  | .done => .next (s.giveWord s.cursor.pos)
  | .idle => .next (s.giveWord 0)
  | .readFinal | .readType | .decodeBlock | .error => .next (s.drawFree.giveWord (Config.freeInPos s.freeDraw))

/-- HOST_READ_IN_BITS (R386, R56): the final cursor's `left`, 8 before any call, bits 3:0 free while BUSY or in ERROR;
bits 31:4 read 0 (R58). -/
def execHostReadInBits (s : State) : Out :=
  match s.phase with
  | .done => .next (s.giveWord (s.cursor.left.setWidth 32))
  | .idle => .next (s.giveWord 8)
  | .readFinal | .readType | .decodeBlock | .error => .next (s.drawFree.giveWord ((Config.freeInBits s.freeDraw).setWidth 32))

/-- HOST_READ_IN_SIZE (R387). -/
def execHostReadInSize (s : State) : Out := .next (s.giveWord s.params.inMemSize)

/-- HOST_READ_OUT_SIZE (R387). -/
def execHostReadOutSize (s : State) : Out := .next (s.giveWord s.params.outMemSize)

/-- HOST_WRITE_IGNORED (R388). -/
def execHostWriteIgnored (_offset : BitVec 8) (_data : Word) (s : State) : Out := .next s

/-- HOST_READ_RESERVED (R388): reads 0. -/
def execHostReadReserved (_offset : BitVec 8) (s : State) : Out := .next (s.giveWord 0)

/-- A read of IN_LEN (10_state.md R53): admitted in every phase (R390), though the table has no row for it. -/
def readInLen (s : State) : Out := .next (s.giveWord s.inLen)

/-! ### Byte accesses to IN and OUT -/

/-- The host writes a byte of IN (20_memory.md R94, R390). -/
def hostWriteIn (addr : Nat) (b : Byte) (s : State) : Out :=
  if s.busy then .refused .inWriteWhileBusy
  else if addr < s.params.inMemSize.toNat then .next { s with inMem := Memory.write s.inMem addr b }
  else .fault (.noInAddress addr)

/-- The host reads a byte of IN (R94, R390): the same bytes in every phase. -/
def hostReadIn (addr : Nat) (s : State) : Out :=
  if addr < s.params.inMemSize.toNat then .next (s.giveByte (s.inByte addr)) else .fault (.noInAddress addr)

/-- The host writes a byte of OUT (R95, R390). In IDLE a read gives it back, as R95 says. DESIGN CHOICE (log entry 27): in
DONE and in ERROR too, where R95 and R403 do not say what a byte reads once the host has written it. -/
def hostWriteOut (addr : Nat) (b : Byte) (s : State) : Out :=
  if s.busy then .refused .outWriteWhileBusy
  else if addr < s.params.outMemSize.toNat then .next { s with outMem := Memory.write s.outMem addr b }
  else .fault (.noOutAddress addr)

/-- The host reads a byte of OUT (R95, R390): any value while BUSY. DESIGN CHOICE: in DONE and ERROR a byte the host has
written since reads as written (log entry 27), and an unspecified byte stays the same until then (log entry 5). -/
def hostReadOut (addr : Nat) (s : State) : Out :=
  if addr < s.params.outMemSize.toNat then
    if s.busy then .next (s.drawFree.giveByte (Config.freeByte s.freeDraw)) else .next (s.giveByte (s.outByte addr))
  else .fault (.noOutAddress addr)

end Sys2Proof.Machine
end

