-- ==== Sys2Proof/Machine/Symbol.lean ====
section
/-! DEFINITION. Literal/length symbols, in fixed and dynamic blocks alike (30_encoding.md R132, 45_fixed_block.md R273,
R274, 47_length_distance.md R333 to R336). -/

namespace Sys2Proof.Machine

/-- LIT (R273): the byte is appended; no further bit is read. -/
def execLit (b : Byte) (s : State) : Out :=
  match append b s with
  | .error c => raise c s
  | .ok s => .next s

/-- EOB (R274): the block ends. -/
def execEob (s : State) : Out := .next s.endBlock

/-- `resolve_length(sym)` (R333 to R335): the range check, the extra bits, the bound 258. -/
def resolveLength (sym : Nat) (s : State) : Except Cause (Nat × Cursor) :=
  let idx := sym - 257
  if 28 < idx then .error .litlenSymbolRange
  else
    match readBits (lextra.getD idx 0) s with
    | .error c => .error c
    | .ok (x, c) =>
      let len := lbase.getD idx 0 + x
      if lengthMax < len then .error .lengthTooLong else .ok (len, c)

/-- A length symbol (R272, R306): the length is resolved, a dynamic block must have a distance table (R336), and the
distance comes next. -/
def lengthSymbol (sym : Nat) (s : State) : Out :=
  match resolveLength sym s with
  | .error c => raise c s
  | .ok (len, c) =>
    let s := (s.setCursor c).setCopyLen len
    if s.btype = 2 ∧ s.distPresent = false then raise .noDistanceTable s else .next (s.setExpect .distance)

/-- LEN_257 (R331, R333). -/
def execLen257 (s : State) : Out := lengthSymbol 257 s

/-- LEN_258 (R331, R333). -/
def execLen258 (s : State) : Out := lengthSymbol 258 s

/-- LEN_259 (R331, R333). -/
def execLen259 (s : State) : Out := lengthSymbol 259 s

/-- LEN_260 (R331, R333). -/
def execLen260 (s : State) : Out := lengthSymbol 260 s

/-- LEN_261 (R331, R333). -/
def execLen261 (s : State) : Out := lengthSymbol 261 s

/-- LEN_262 (R331, R333). -/
def execLen262 (s : State) : Out := lengthSymbol 262 s

/-- LEN_263 (R331, R333). -/
def execLen263 (s : State) : Out := lengthSymbol 263 s

/-- LEN_264 (R331, R333). -/
def execLen264 (s : State) : Out := lengthSymbol 264 s

/-- LEN_265 (R331, R333). -/
def execLen265 (s : State) : Out := lengthSymbol 265 s

/-- LEN_266 (R331, R333). -/
def execLen266 (s : State) : Out := lengthSymbol 266 s

/-- LEN_267 (R331, R333). -/
def execLen267 (s : State) : Out := lengthSymbol 267 s

/-- LEN_268 (R331, R333). -/
def execLen268 (s : State) : Out := lengthSymbol 268 s

/-- LEN_269 (R331, R333). -/
def execLen269 (s : State) : Out := lengthSymbol 269 s

/-- LEN_270 (R331, R333). -/
def execLen270 (s : State) : Out := lengthSymbol 270 s

/-- LEN_271 (R331, R333). -/
def execLen271 (s : State) : Out := lengthSymbol 271 s

/-- LEN_272 (R331, R333). -/
def execLen272 (s : State) : Out := lengthSymbol 272 s

/-- LEN_273 (R331, R333). -/
def execLen273 (s : State) : Out := lengthSymbol 273 s

/-- LEN_274 (R331, R333). -/
def execLen274 (s : State) : Out := lengthSymbol 274 s

/-- LEN_275 (R331, R333). -/
def execLen275 (s : State) : Out := lengthSymbol 275 s

/-- LEN_276 (R331, R333). -/
def execLen276 (s : State) : Out := lengthSymbol 276 s

/-- LEN_277 (R331, R333). -/
def execLen277 (s : State) : Out := lengthSymbol 277 s

/-- LEN_278 (R331, R333). -/
def execLen278 (s : State) : Out := lengthSymbol 278 s

/-- LEN_279 (R331, R333). -/
def execLen279 (s : State) : Out := lengthSymbol 279 s

/-- LEN_280 (R331, R333). -/
def execLen280 (s : State) : Out := lengthSymbol 280 s

/-- LEN_281 (R331, R333). -/
def execLen281 (s : State) : Out := lengthSymbol 281 s

/-- LEN_282 (R331, R333). -/
def execLen282 (s : State) : Out := lengthSymbol 282 s

/-- LEN_283 (R331, R333). -/
def execLen283 (s : State) : Out := lengthSymbol 283 s

/-- LEN_284 (R331, R333). -/
def execLen284 (s : State) : Out := lengthSymbol 284 s

/-- LEN_285 (R331, R333). -/
def execLen285 (s : State) : Out := lengthSymbol 285 s

/-- LITLEN_INVALID_286 (R276, R333): no row of the length tables. -/
def execLitlenInvalid286 (s : State) : Out := lengthSymbol 286 s

/-- LITLEN_INVALID_287 (R276, R333): no row of the length tables. -/
def execLitlenInvalid287 (s : State) : Out := lengthSymbol 287 s

end Sys2Proof.Machine
end

