-- ==== Sys2Proof/WellFormed.lean ====
section
/-! DEFINITION. Which terms are instructions: the operand values the encodings admit. Types carry every bound but two,
the offsets of the two rows that stand for many registers. -/

namespace Sys2Proof

/-- A register offset is a multiple of 4 (20_memory.md R97). -/
def offsetAligned (o : BitVec 8) : Bool := o.toNat % 4 == 0

/-- Offsets whose writes are ignored (49_host_interface.md R388): every aligned one but CTRL and IN_LEN. -/
def writeIgnoredOffset (o : BitVec 8) : Bool := offsetAligned o && o != 0x00 && o != 0x08

/-- Offsets that read 0 for want of a register: the reserved ones 0x20 to 0xFC (R388), and CTRL (10_state.md R51). -/
def readReservedOffset (o : BitVec 8) : Bool := offsetAligned o && (o == 0x00 || 0x20 ≤ o.toNat)

/-- Well-formed instructions. -/
def Instr.wellFormed : Instr → Bool
  | .blkStored _ => true
  | .blkFixed _ => true
  | .blkDynamic _ => true
  | .blkReserved _ => true
  | .hdrStored _ _ => true
  | .hdrDynamic _ _ _ => true
  | .lit _ => true
  | .eob => true
  | .len257 => true
  | .len258 => true
  | .len259 => true
  | .len260 => true
  | .len261 => true
  | .len262 => true
  | .len263 => true
  | .len264 => true
  | .len265 => true
  | .len266 => true
  | .len267 => true
  | .len268 => true
  | .len269 => true
  | .len270 => true
  | .len271 => true
  | .len272 => true
  | .len273 => true
  | .len274 => true
  | .len275 => true
  | .len276 => true
  | .len277 => true
  | .len278 => true
  | .len279 => true
  | .len280 => true
  | .len281 => true
  | .len282 => true
  | .len283 => true
  | .len284 => true
  | .len285 => true
  | .litlenInvalid286 => true
  | .litlenInvalid287 => true
  | .dist0 => true
  | .dist1 => true
  | .dist2 => true
  | .dist3 => true
  | .dist4 => true
  | .dist5 => true
  | .dist6 => true
  | .dist7 => true
  | .dist8 => true
  | .dist9 => true
  | .dist10 => true
  | .dist11 => true
  | .dist12 => true
  | .dist13 => true
  | .dist14 => true
  | .dist15 => true
  | .dist16 => true
  | .dist17 => true
  | .dist18 => true
  | .dist19 => true
  | .dist20 => true
  | .dist21 => true
  | .dist22 => true
  | .dist23 => true
  | .dist24 => true
  | .dist25 => true
  | .dist26 => true
  | .dist27 => true
  | .dist28 => true
  | .dist29 => true
  | .distInvalid30 => true
  | .distInvalid31 => true
  | .clLen _ => true
  | .clRepeatPrev => true
  | .clRepeatZeroShort => true
  | .clRepeatZeroLong => true
  | .hostStart _ => true
  | .hostWriteInLen _ => true
  | .hostReadStatus => true
  | .hostReadOutLen => true
  | .hostReadInPos => true
  | .hostReadInBits => true
  | .hostReadInSize => true
  | .hostReadOutSize => true
  | .hostWriteIgnored o _ => writeIgnoredOffset o
  | .hostReadReserved o => readReservedOffset o

end Sys2Proof
end

