-- ==== Sys2Proof/Decode.lean ====
section
/-! DEFINITION. The decoder from the words of opcode_table.json to instructions, the encoder written from the same
tables, and the bits of an instruction in the stream. Which format a stream position has is the parser's state
(Machine/Fetch.lean); this file says what each format's word means. -/

namespace Sys2Proof

/-- Literal/length symbols 256 to 287, in order (30_encoding.md R132). -/
def litlenRows : List Instr :=
  [.eob,
   .len257, .len258, .len259, .len260, .len261, .len262, .len263, .len264, .len265, .len266,
   .len267, .len268, .len269, .len270, .len271, .len272, .len273, .len274, .len275, .len276,
   .len277, .len278, .len279, .len280, .len281, .len282, .len283, .len284, .len285,
   .litlenInvalid286, .litlenInvalid287]

/-- Distance symbols 0 to 31, in order (R133). -/
def distRows : List Instr :=
  [.dist0, .dist1, .dist2, .dist3, .dist4, .dist5, .dist6, .dist7, .dist8, .dist9,
   .dist10, .dist11, .dist12, .dist13, .dist14, .dist15, .dist16, .dist17, .dist18, .dist19,
   .dist20, .dist21, .dist22, .dist23, .dist24, .dist25, .dist26, .dist27, .dist28, .dist29,
   .distInvalid30, .distInvalid31]

/-- A literal/length symbol (R132); none above 287. -/
def decodeLitlen (sym : Nat) : Option Instr :=
  if sym < 256 then some (.lit (BitVec.ofNat 8 sym)) else litlenRows[sym - 256]?

/-- A distance symbol (R133); none above 31. -/
def decodeDist (sym : Nat) : Option Instr := distRows[sym]?

/-- A code-length symbol (R135); none above 18. -/
def decodeClen (sym : Nat) : Option Instr :=
  if sym < 16 then some (.clLen (BitVec.ofNat 4 sym))
  else if sym = 16 then some .clRepeatPrev
  else if sym = 17 then some .clRepeatZeroShort
  else if sym = 18 then some .clRepeatZeroLong
  else none

/-- The block header, BFINAL in bit 0 and BTYPE in bits 2:1 (R124, R131). -/
def decodeBlockHeader (bfinal : Bool) (btype : BitVec 2) : Instr :=
  if btype = 0 then .blkStored bfinal
  else if btype = 1 then .blkFixed bfinal
  else if btype = 2 then .blkDynamic bfinal
  else .blkReserved bfinal

/-- A register write (R139, R381, R383, R388). -/
def decodeHostWrite (offset : BitVec 8) (data : Word) : Except DecodeError Instr :=
  if !offsetAligned offset then .error .misalignedOffset
  else if offset = 0x00 then .ok (.hostStart data)
  else if offset = 0x08 then .ok (.hostWriteInLen data)
  else .ok (.hostWriteIgnored offset data)

/-- A register read (R139, R384 to R388). IN_LEN is readable (10_state.md R53) and has no row. -/
def decodeHostRead (offset : BitVec 8) : Except DecodeError Instr :=
  if !offsetAligned offset then .error .misalignedOffset
  else if offset = 0x04 then .ok .hostReadStatus
  else if offset = 0x08 then .error .inLenReadHasNoRow
  else if offset = 0x0C then .ok .hostReadOutLen
  else if offset = 0x10 then .ok .hostReadInPos
  else if offset = 0x14 then .ok .hostReadInBits
  else if offset = 0x18 then .ok .hostReadInSize
  else if offset = 0x1C then .ok .hostReadOutSize
  else .ok (.hostReadReserved offset)

/-- Width in bits of a format's word. The table gives a host row 32 bits for the data; here a write's word is the
offset in bits 7:0 and the data above it, in bits 39:8 (log entry 13). -/
def Format.width : Format → Nat
  | .blockHeader   => 3
  | .storedHeader  => 32
  | .dynamicHeader => 14
  | .litlenSymbol  => 9
  | .distSymbol    => 5
  | .clenSymbol    => 5
  | .hostWrite     => 40
  | .hostRead      => 8

/-- The decoder: total on every word of every format, rejecting by name. -/
def decode (f : Format) (w : Nat) : Except DecodeError Instr :=
  if 2 ^ f.width ≤ w then .error .wordTooWide
  else
    match f with
    | .blockHeader   => .ok (decodeBlockHeader (w.testBit 0) (BitVec.ofNat 2 (w / 2)))
    | .storedHeader  => .ok (.hdrStored (BitVec.ofNat 16 w) (BitVec.ofNat 16 (w / 2 ^ 16)))
    | .dynamicHeader => .ok (.hdrDynamic (BitVec.ofNat 5 w) (BitVec.ofNat 5 (w / 2 ^ 5)) (BitVec.ofNat 4 (w / 2 ^ 10)))
    | .litlenSymbol  => match decodeLitlen w with | some i => .ok i | none => .error .noLitlenSymbol
    | .distSymbol    => match decodeDist w with | some i => .ok i | none => .error .wordTooWide
    | .clenSymbol    => match decodeClen w with | some i => .ok i | none => .error .noClenSymbol
    | .hostWrite     => decodeHostWrite (BitVec.ofNat 8 w) (BitVec.ofNat 32 (w / 2 ^ 8))
    | .hostRead      => decodeHostRead (BitVec.ofNat 8 w)

/-- The encoder: the format and the word of an instruction, written from the table's `match` values and fields. -/
def encode : Instr → Format × Nat
  | .blkStored f => (.blockHeader, 0 + f.toNat)
  | .blkFixed f => (.blockHeader, 2 + f.toNat)
  | .blkDynamic f => (.blockHeader, 4 + f.toNat)
  | .blkReserved f => (.blockHeader, 6 + f.toNat)
  | .hdrStored l n => (.storedHeader, l.toNat + 2 ^ 16 * n.toNat)
  | .hdrDynamic h d c => (.dynamicHeader, h.toNat + 2 ^ 5 * d.toNat + 2 ^ 10 * c.toNat)
  | .lit b => (.litlenSymbol, b.toNat)
  | .eob => (.litlenSymbol, 256)
  | .len257 => (.litlenSymbol, 257)
  | .len258 => (.litlenSymbol, 258)
  | .len259 => (.litlenSymbol, 259)
  | .len260 => (.litlenSymbol, 260)
  | .len261 => (.litlenSymbol, 261)
  | .len262 => (.litlenSymbol, 262)
  | .len263 => (.litlenSymbol, 263)
  | .len264 => (.litlenSymbol, 264)
  | .len265 => (.litlenSymbol, 265)
  | .len266 => (.litlenSymbol, 266)
  | .len267 => (.litlenSymbol, 267)
  | .len268 => (.litlenSymbol, 268)
  | .len269 => (.litlenSymbol, 269)
  | .len270 => (.litlenSymbol, 270)
  | .len271 => (.litlenSymbol, 271)
  | .len272 => (.litlenSymbol, 272)
  | .len273 => (.litlenSymbol, 273)
  | .len274 => (.litlenSymbol, 274)
  | .len275 => (.litlenSymbol, 275)
  | .len276 => (.litlenSymbol, 276)
  | .len277 => (.litlenSymbol, 277)
  | .len278 => (.litlenSymbol, 278)
  | .len279 => (.litlenSymbol, 279)
  | .len280 => (.litlenSymbol, 280)
  | .len281 => (.litlenSymbol, 281)
  | .len282 => (.litlenSymbol, 282)
  | .len283 => (.litlenSymbol, 283)
  | .len284 => (.litlenSymbol, 284)
  | .len285 => (.litlenSymbol, 285)
  | .litlenInvalid286 => (.litlenSymbol, 286)
  | .litlenInvalid287 => (.litlenSymbol, 287)
  | .dist0 => (.distSymbol, 0)
  | .dist1 => (.distSymbol, 1)
  | .dist2 => (.distSymbol, 2)
  | .dist3 => (.distSymbol, 3)
  | .dist4 => (.distSymbol, 4)
  | .dist5 => (.distSymbol, 5)
  | .dist6 => (.distSymbol, 6)
  | .dist7 => (.distSymbol, 7)
  | .dist8 => (.distSymbol, 8)
  | .dist9 => (.distSymbol, 9)
  | .dist10 => (.distSymbol, 10)
  | .dist11 => (.distSymbol, 11)
  | .dist12 => (.distSymbol, 12)
  | .dist13 => (.distSymbol, 13)
  | .dist14 => (.distSymbol, 14)
  | .dist15 => (.distSymbol, 15)
  | .dist16 => (.distSymbol, 16)
  | .dist17 => (.distSymbol, 17)
  | .dist18 => (.distSymbol, 18)
  | .dist19 => (.distSymbol, 19)
  | .dist20 => (.distSymbol, 20)
  | .dist21 => (.distSymbol, 21)
  | .dist22 => (.distSymbol, 22)
  | .dist23 => (.distSymbol, 23)
  | .dist24 => (.distSymbol, 24)
  | .dist25 => (.distSymbol, 25)
  | .dist26 => (.distSymbol, 26)
  | .dist27 => (.distSymbol, 27)
  | .dist28 => (.distSymbol, 28)
  | .dist29 => (.distSymbol, 29)
  | .distInvalid30 => (.distSymbol, 30)
  | .distInvalid31 => (.distSymbol, 31)
  | .clLen n => (.clenSymbol, n.toNat)
  | .clRepeatPrev => (.clenSymbol, 16)
  | .clRepeatZeroShort => (.clenSymbol, 17)
  | .clRepeatZeroLong => (.clenSymbol, 18)
  | .hostStart x => (.hostWrite, 0x00 + 2 ^ 8 * x.toNat)
  | .hostWriteInLen x => (.hostWrite, 0x08 + 2 ^ 8 * x.toNat)
  | .hostReadStatus => (.hostRead, 0x04)
  | .hostReadOutLen => (.hostRead, 0x0C)
  | .hostReadInPos => (.hostRead, 0x10)
  | .hostReadInBits => (.hostRead, 0x14)
  | .hostReadInSize => (.hostRead, 0x18)
  | .hostReadOutSize => (.hostRead, 0x1C)
  | .hostWriteIgnored o x => (.hostWrite, o.toNat + 2 ^ 8 * x.toNat)
  | .hostReadReserved o => (.hostRead, o.toNat)

/-- The `n` low bits of `v`, least significant first: a fixed-width field as the stream holds it (30_encoding.md R121). -/
def lsbFirst : Nat → Nat → List Bool
  | 0, _ => []
  | n + 1, v => v.testBit 0 :: lsbFirst n (v / 2)

/-- The `n` low bits of `v`, most significant first: a Huffman code as the stream holds it (R122). -/
def msbFirst (n v : Nat) : List Bool := (lsbFirst n v).reverse

/-- Code and length of a symbol in the fixed literal/length table (R136). -/
def fixedCode (sym : Nat) : Nat × Nat :=
  if sym < 144 then (0x30 + sym, 8)
  else if sym < 256 then (0x190 + (sym - 144), 9)
  else if sym < 280 then (sym - 256, 7)
  else (0xC0 + (sym - 280), 8)

/-- The bits of a word in the stream, first bit read first, where the format fixes them: block header, stored header and
dynamic header LSB-first (R121, R123), a literal/length symbol by its fixed code (R136), a distance symbol as the 5-bit
field of a fixed block (R122, R275), and a code-length symbol as its own 5 bits MSB-first, its code in the meta-table
whose 19 lengths are all 5 (R191). Host accesses are not in the stream. -/
def streamBits : Format → Nat → List Bool
  | .blockHeader, w => lsbFirst 3 w
  | .storedHeader, w => lsbFirst 32 w
  | .dynamicHeader, w => lsbFirst 14 w
  | .litlenSymbol, w => msbFirst (fixedCode w).2 (fixedCode w).1
  | .distSymbol, w => msbFirst 5 w
  | .clenSymbol, w => msbFirst 5 w
  | .hostWrite, _ => []
  | .hostRead, _ => []

/-- The value of a list of bits, least significant first. -/
def bitsValue : List Bool → Nat
  | [] => 0
  | b :: bs => b.toNat + 2 * bitsValue bs

/-- Bits packed into `n` bytes, bit 0 of each byte first (20_memory.md R91), padded with zeros. -/
def packBits (n : Nat) (bits : List Bool) : List Byte :=
  (List.range n).map fun k => BitVec.ofNat 8 (bitsValue ((bits.drop (8 * k)).take 8))

/-- The format of a table word given by its number of bits (log entry 13). Rows of several formats share a width and
their words overlap, so the words alone do not say which row is meant. Among the rows that could own a word the one
whose format has the fewest rows is taken, and a header takes the words too wide for the symbols or offsets of its
width. A host word is a read where a read row owns its offset, else a write. The reader gives some distance and
code-length rows stray fields above their five bits (98_reader.md), so such a word may come as 24 or 32 bits. -/
def formatOfTableWord (nbits w : Nat) : Option Format :=
  if nbits = 3 then some .blockHeader
  else if nbits = 5 ∨ nbits = 8 then
    if nbits = 8 ∧ (w = 0 ∨ w = 2 ∨ w = 4 ∨ w = 6) then some .blockHeader
    else if w = 16 ∨ w = 17 ∨ w = 18 then some .clenSymbol
    else some .distSymbol
  else if nbits = 9 then some .litlenSymbol
  else if nbits = 14 then some .dynamicHeader
  else if nbits = 16 then if w < 2 ^ 9 then some .litlenSymbol else some .dynamicHeader
  else if nbits = 24 then if w = 18 then some .clenSymbol else some .distSymbol
  else if nbits = 32 then
    if 2 ^ 8 ≤ w then some .storedHeader
    else if w < 2 ^ 5 ∧ w % 4 ≠ 0 then some .distSymbol
    else if w = 0x00 ∨ w = 0x08 then some .hostWrite
    else some .hostRead
  else none

/-- The instruction the decoder reads from a word numbered as opcode_table.json numbers it. The row HOST_START is the
write whose data bit 0 is 1 (R139), which the table gives no bits. -/
def decodeTableWord (nbits w : Nat) : Option Instr :=
  match formatOfTableWord nbits w with
  | none => none
  | some f =>
    match decode f (if f = .hostWrite ∧ w = 0x00 then 2 ^ 8 else w) with
    | .ok i => some i
    | .error _ => none

end Sys2Proof
end

