-- ==== Sys2Proof/Machine/Fetch.lean ====
section
/-! DEFINITION. Reading the next stream element: which bits the parser takes at each point of a call, and the instruction
they decode to (43_block_dispatcher.md R230, 44_stored_block.md R251, 45_fixed_block.md R272, 46_dynamic_block.md R290,
R306). -/

namespace Sys2Proof.Machine

/-- READ_TYPE (R232): two bits, with the final flag already read. -/
def fetchBlockHeader (s : State) : Except Cause (Instr × Cursor) :=
  match readBits 2 s with
  | .error c => .error c
  | .ok (v, c) => .ok (decodeBlockHeader s.bfinal (BitVec.ofNat 2 v), c)

/-- The stored header (R251, 30_encoding.md R123): four raw bytes, little-endian halves. -/
def fetchStoredHeader (s : State) : Except Cause (Instr × Cursor) :=
  match readBytes 4 s with
  | .error c => .error c
  | .ok (hdr, c) =>
    let half (lo hi : Nat) : BitVec 16 :=
      (hdr.getD lo 0).setWidth 16 ||| ((hdr.getD hi 0).setWidth 16 <<< 8)
    .ok (.hdrStored (half 0 1) (half 2 3), c)

/-- The dynamic header (R291): fields of 5, 5 and 4 bits, in order. -/
def fetchDynamicHeader (s : State) : Except Cause (Instr × Cursor) :=
  match readBits 5 s with
  | .error c => .error c
  | .ok (h, c) =>
    match readBits 5 (s.setCursor c) with
    | .error c => .error c
    | .ok (d, c) =>
      match readBits 4 (s.setCursor c) with
      | .error c => .error c
      | .ok (n, c) => .ok (.hdrDynamic (BitVec.ofNat 5 h) (BitVec.ofNat 5 d) (BitVec.ofNat 4 n), c)

/-- A code-length symbol (R296); CLEN_SYMBOL_RANGE above 18 (R307). -/
def fetchCodeLength (s : State) : Except Cause (Instr × Cursor) :=
  match decodeSymbol s.metaTab 1 maxCodeLen s with
  | .error c => .error c
  | .ok (sym, c) =>
    match decodeClen sym with
    | some i => .ok (i, c)
    | none => .error .clenSymbolRange

/-- A literal/length symbol: `decode(FIXED_LITLEN, 7, 9)` in a fixed block (R271), `decode(LITLEN_TAB, 1, 15)` in a
dynamic one (R306). A symbol with no row is out of range as 286 is (47_length_distance.md R333; log entry 22). -/
def fetchLitlen (s : State) : Except Cause (Instr × Cursor) :=
  match (if s.btype = 1 then decodeSymbol fixedLitlen 7 9 s else decodeSymbol s.litlenTab 1 maxCodeLen s) with
  | .error c => .error c
  | .ok (sym, c) =>
    match decodeLitlen sym with
    | some i => .ok (i, c)
    | none => .error .litlenSymbolRange

/-- A distance symbol: the bit-reversed 5-bit field of a fixed block (R275), `decode(DIST_TAB, 1, 15)` in a dynamic one
(R306). A symbol with no row is out of range as 30 is (R337; log entry 22). -/
def fetchDistance (s : State) : Except Cause (Instr × Cursor) :=
  let answer (sym : Nat) (c : Cursor) : Except Cause (Instr × Cursor) :=
    match decodeDist sym with
    | some i => .ok (i, c)
    | none => .error .distSymbolRange
  if s.btype = 1 then
    match readBits 5 s with
    | .error c => .error c
    | .ok (v, c) =>
      match bitrev v 5 with
      | .error c => .error c
      | .ok dsym => answer dsym c
  else
    match decodeSymbol s.distTab 1 maxCodeLen s with
    | .error c => .error c
    | .ok (dsym, c) => answer dsym c

/-- The next element inside DECODE_BLOCK. -/
def fetchElement (s : State) : Except Cause (Instr × Cursor) :=
  match s.expect with
  | .storedHeader => fetchStoredHeader s
  | .dynamicHeader => fetchDynamicHeader s
  | .codeLength => fetchCodeLength s
  | .litlen => fetchLitlen s
  | .distance => fetchDistance s

end Sys2Proof.Machine
end

