-- ==== Sys2Proof/Machine/Run.lean ====
section
/-! DEFINITION. What each agent does in a step, which agent moves, and how a table word is laid where the next step reads
it (43_block_dispatcher.md R230, R235; 49_host_interface.md R380, R390). -/

namespace Sys2Proof.Machine

/-- READ_FINAL (43_block_dispatcher.md R231): one bit to `bfinal`. -/
def readFinalStep (s : State) : Out :=
  match readBits 1 s with
  | .error c => raise c s
  | .ok (v, c) => .next { s.setCursor c with bfinal := v.testBit 0, phase := .readType }

/-- An element read is run with the cursor past it; a failed read ends the call (60_exceptions.md R400). -/
def runFetched (f : Except Cause (Instr × Cursor)) (s : State) : Out :=
  match f with
  | .error c => raise c s
  | .ok (i, c) => exec i (s.setCursor c)

/-- The block's own step in each phase (R235). Outside a call the block waits (70_reset_and_hazards.md R452). -/
def blockStep (s : State) : Out :=
  match s.phase with
  | .readFinal => readFinalStep s
  | .readType => runFetched (fetchBlockHeader s) s
  | .decodeBlock => runFetched (fetchElement s) s
  | .idle => .next s
  | .done => .next s
  | .error => .next s

/-- A host access to the register window: only aligned words (20_memory.md R97). -/
def hostAccess (a : RegAccess) (s : State) : Out :=
  if a.width ≠ .word then .refused .narrowOrMisalignedAccess
  else
    match (if a.write then decodeHostWrite a.offset a.data else decodeHostRead a.offset) with
    | .ok i => exec i s
    | .error .inLenReadHasNoRow => readInLen s
    | .error _ => .refused .narrowOrMisalignedAccess

/-- The host's step (49_host_interface.md R390). -/
def hostStep (a : HostAction) (s : State) : Out :=
  match a with
  | .reg a => hostAccess a s
  | .writeIn addr b => hostWriteIn addr b s
  | .readIn addr => hostReadIn addr s
  | .writeOut addr b => hostWriteOut addr b s
  | .readOut addr => hostReadOut addr s
  | .reset => .next s.assertReset

/-- Who moves (R380; log entry 7). While a call runs, the next host action waits for its number of block steps; while
none runs, it lands at once; with no host action coming, the block moves. -/
def stepOnce (s : State) : Out :=
  match s.hostQueue with
  | [] => blockStep s
  | h :: rest =>
    if s.busy = true ∧ h.wait ≠ 0 then
      blockStep { s with hostQueue := { h with wait := h.wait - 1 } :: rest }
    else hostStep h.action { s with hostQueue := rest }

/-! ### A table word where the next step reads it (log entry 14) -/

/-- Bytes listed in IN from address `a` on. -/
def Memory.writeBytes (m : Memory) (a : Nat) : List Byte → Memory
  | [] => m
  | b :: bs => Memory.writeBytes (Memory.write m a b) (a + 1) bs

/-- IN holds `bits` from bit `skip` of byte 0 on, then zeros to the end of `n` bytes, and the call reads there next. -/
def State.placeBits (bits : List Bool) (skip n : Nat) (s : State) : State :=
  { s with
    hostQueue := []
    inMem := Memory.writeBytes s.inMem 0 (packBits n (List.replicate skip false ++ bits))
    inLen := BitVec.ofNat 32 n
    cursor := { pos := 0, left := BitVec.ofNat 4 (8 - skip) } }

/-- The longest element of fixed length and its extra bits: a dynamic header, 14 + 19 × 3 bits, in whole bytes. -/
def elementBytes : Nat := 9

/-- The instruction `i`, whose word is `w`, stands where the next step takes its instruction from: in the stream, at the
parser state that reads its format, or at the head of the host's queue. -/
def State.placeInstr (f : Format) (w : Nat) (s : State) : State :=
  match f with
  | .blockHeader =>
    { s.placeBits ((streamBits f w).drop 1) 1 elementBytes with phase := .readType, bfinal := w.testBit 0 }
  | .storedHeader =>
    { s.placeBits (streamBits f w) 0 (4 + w % 2 ^ 16) with phase := .decodeBlock, btype := 0, expect := .storedHeader }
  | .dynamicHeader =>
    { s.placeBits (streamBits f w) 0 elementBytes with phase := .decodeBlock, btype := 2, expect := .dynamicHeader }
  | .litlenSymbol =>
    { s.placeBits (streamBits f w) 0 elementBytes with phase := .decodeBlock, btype := 1, expect := .litlen }
  | .distSymbol =>
    { s.placeBits (streamBits f w) 0 elementBytes with phase := .decodeBlock, btype := 1, expect := .distance }
  | .clenSymbol =>
    { s.placeBits (streamBits f w) 0 elementBytes with
      phase := .decodeBlock, btype := 2, expect := .codeLength, metaTab := build (List.replicate 19 5) }
  | .hostWrite =>
    { s with hostQueue :=
        [{ wait := 0, action := .reg { write := true, width := .word, offset := BitVec.ofNat 8 w,
                                        data := BitVec.ofNat 32 (w / 2 ^ 8) } }] }
  | .hostRead =>
    { s with hostQueue :=
        [{ wait := 0, action := .reg { write := false, width := .word, offset := BitVec.ofNat 8 w, data := 0 } }] }

/-- `s` with the instruction of a table word where the next step takes its instruction from. -/
def State.placeWord (s : State) (nbits w : Nat) : State :=
  match decodeTableWord nbits w with
  | none => s
  | some i => s.placeInstr (encode i).1 (encode i).2

end Sys2Proof.Machine
end

