-- ==== Sys2Proof/Machine/Inflate.lean ====
section
/-! DEFINITION. `inflate`, the whole call as one function (00_scope.md R3, 43_block_dispatcher.md R230), transcribed from
the procedures of R230, R250, R272, R290 and R306. The machine runs a call in small steps instead; 10_state.md R59 lets a
model do either. Each loop has fuel: a turn consumes at least one bit of the stream (R237), so fuel above the stream's
bits never runs out (log entry 26). -/

namespace Sys2Proof.Machine

/-- `stored_block()` (R250). -/
def storedBlock (s : State) : Except Cause State := do
  let s := s.setCursor s.cursor.align
  let (hdr, c) ← readBytes 4 s
  let len : BitVec 16 := (hdr.getD 0 0).setWidth 16 ||| ((hdr.getD 1 0).setWidth 16 <<< 8)
  let nlen : BitVec 16 := (hdr.getD 2 0).setWidth 16 ||| ((hdr.getD 3 0).setWidth 16 <<< 8)
  let s := (s.setCursor c).setStoredHeader len nlen
  if nlen ≠ ~~~len then throw .storedLenMismatch
  if len = 0 then return s
  let (data, c) ← readBytes len.toNat s
  appendAll data (s.setCursor c)

/-- `resolve_distance` and `lz77_copy`, the end of a back-reference (R272, R306). -/
def finishBackReference (dsym : Nat) (s : State) : Except Cause State := do
  let (d, c) ← resolveDistance dsym s
  lz77Copy s.copyLen d ((s.setCursor c).setCopyDist d)

/-- `fixed_block()` (R272). -/
def fixedBlock : Nat → State → Except Cause State
  | 0, _ => throw .endOfInput
  | fuel + 1, s => do
    let (sym, c) ← decodeSymbol fixedLitlen 7 9 s
    let s := s.setCursor c
    if sym ≤ 255 then
      let s ← append (BitVec.ofNat 8 sym) s
      fixedBlock fuel s
    else if sym = 256 then return s
    else
      let (len, c) ← resolveLength sym s
      let s := (s.setCursor c).setCopyLen len
      let (v, c) ← readBits 5 s
      let dsym ← bitrev v 5
      let s ← finishBackReference dsym (s.setCursor c)
      fixedBlock fuel s

/-- `dynamic_data()` (R306). -/
def dynamicData : Nat → State → Except Cause State
  | 0, _ => throw .endOfInput
  | fuel + 1, s => do
    let (sym, c) ← decodeSymbol s.litlenTab 1 15 s
    let s := s.setCursor c
    if sym ≤ 255 then
      let s ← append (BitVec.ofNat 8 sym) s
      dynamicData fuel s
    else if sym = 256 then return s
    else
      let (len, c) ← resolveLength sym s
      let s := (s.setCursor c).setCopyLen len
      if s.distPresent = false then throw .noDistanceTable
      let (dsym, c) ← decodeSymbol s.distTab 1 15 s
      let s ← finishBackReference dsym (s.setCursor c)
      dynamicData fuel s

/-- `check(r)` and `put(v, r)` of R290. -/
def checkedPut (v : BitVec 4) (r : Nat) (s : State) : Except Cause State :=
  if s.hlit + s.hdist < s.lensCount + r then throw .repeatOverflow else return s.putLengths v r

/-- The loop of R290 over code-length symbols. -/
def codeLengths : Nat → State → Except Cause State
  | 0, _ => throw .endOfInput
  | fuel + 1, s => do
    if s.hlit + s.hdist ≤ s.lensCount then return s
    let (csym, c) ← decodeSymbol s.metaTab 1 15 s
    let s := s.setCursor c
    if csym ≤ 15 then codeLengths fuel (s.putLengths (BitVec.ofNat 4 csym) 1)
    else if csym = 16 then
      match s.lens.getLast? with
      | none => throw .repeatNoPrevious
      | some prev =>
        let (x, c) ← readBits 2 s
        let s ← checkedPut prev (3 + x) (s.setCursor c)
        codeLengths fuel s
    else if csym = 17 then
      let (x, c) ← readBits 3 s
      let s ← checkedPut 0 (3 + x) (s.setCursor c)
      codeLengths fuel s
    else if csym = 18 then
      let (x, c) ← readBits 7 s
      let s ← checkedPut 0 (11 + x) (s.setCursor c)
      codeLengths fuel s
    else throw .clenSymbolRange

/-- `dynamic_block()` (R290). -/
def dynamicBlock (fuel : Nat) (s : State) : Except Cause State := do
  let (h, c) ← readBits 5 s
  let s := s.setCursor c
  let (d, c) ← readBits 5 s
  let s := s.setCursor c
  let (n, c) ← readBits 4 s
  let s := (s.setCursor c).setCounts (h + 257) (d + 1) (n + 4)
  if s.hlit > 286 then throw .hlitRange
  if s.hdist > 30 then throw .hdistRange
  let (clens, c) ← readClens (clenOrder.take s.hclen) (List.replicate 19 0) s
  let s ← codeLengths fuel ((s.setCursor c).setCodeLengths clens)
  dynamicData fuel s.buildTables

/-- One block (R233). -/
def decodeBlock (fuel : Nat) (s : State) : Except Cause State :=
  if s.btype = 0 then storedBlock s
  else if s.btype = 1 then fixedBlock fuel s
  else if s.btype = 2 then dynamicBlock fuel s
  else throw .reservedBtype

/-- The loop of `inflate` (R230) over blocks. -/
def inflateBlocks (fuel : Nat) : Nat → State → Except Cause State
  | 0, _ => throw .endOfInput
  | n + 1, s => do
    let (f, c) ← readBits 1 s
    let s := { s.setCursor c with bfinal := f.testBit 0 }
    let (t, c) ← readBits 2 s
    let s ← decodeBlock fuel { s.setCursor c with btype := BitVec.ofNat 2 t }
    if s.bfinal then return s else inflateBlocks fuel n s

/-- Fuel above the number of bits of the stream. -/
def State.streamFuel (s : State) : Nat := 8 * s.inLen.toNat + 1

/-- `inflate()` (R230): the state at DONE, or the cause of the error. -/
def inflate (s : State) : Except Cause State :=
  inflateBlocks s.streamFuel s.streamFuel { s with cursor := Cursor.start, outLen := 0 }

end Sys2Proof.Machine
end

