-- ==== Sys2Proof/Safety.lean ====
section
/-! DEFINITION. The words the claims use: the stream as a sequence of bits, the invariant of the machine, runs, and what a
safe step is. -/

namespace Sys2Proof.Machine

/-! ### The stream as bits -/

/-- Bit `k` of the stream in stream order (30_encoding.md R120): IN[0] bit 0, IN[0] bit 1, …, IN[1] bit 0, …. -/
def State.streamBit (s : State) (k : Nat) : Bool := (s.inByte (k / 8)).getLsbD (k % 8)

/-- A legal cursor (10_state.md R31): 1 ≤ left ≤ 8, within the stream, and left = 8 at its end. -/
def State.CursorLegal (s : State) : Prop :=
  1 ≤ s.cursor.left.toNat ∧ s.cursor.left.toNat ≤ 8 ∧ s.cursor.pos.toNat ≤ s.inLen.toNat ∧
    (s.cursor.pos = s.inLen → s.cursor.left = 8)

/-- The value of the next `n` stream bits as a fixed-width field (R121): the first bit read is bit 0. -/
def State.fieldAt (s : State) (k n : Nat) : Nat := bitsValue ((List.range n).map fun i => s.streamBit (k + i))

/-- The value of the next `n` stream bits as a Huffman code (R122): the first bit read is the highest. -/
def State.codeAt (s : State) (k n : Nat) : Nat := bitsValue ((List.range n).map fun i => s.streamBit (k + i)).reverse

/-- The cursor that has consumed `k` stream bits. -/
def cursorAt (k : Nat) : Cursor := { pos := BitVec.ofNat 32 (k / 8), left := BitVec.ofNat 4 (8 - k % 8) }

/-- The stream holds `bits` from bit `k` on. -/
def State.holdsBits (s : State) (k : Nat) (bits : List Bool) : Prop :=
  k + bits.length ≤ 8 * s.inLen.toNat ∧ ∀ i < bits.length, bits[i]? = some (s.streamBit (k + i))

/-! ### The spec's tables and formulas, as the claims use them -/

/-- The length rows: instruction, base, extra bits (47_length_distance.md R331, opcode_table.json). -/
def lengthRows : List (Instr × Nat × Nat) :=
  [(.len257, 3, 0), (.len258, 4, 0), (.len259, 5, 0), (.len260, 6, 0), (.len261, 7, 0), (.len262, 8, 0),
   (.len263, 9, 0), (.len264, 10, 0), (.len265, 11, 1), (.len266, 13, 1), (.len267, 15, 1), (.len268, 17, 1),
   (.len269, 19, 2), (.len270, 23, 2), (.len271, 27, 2), (.len272, 31, 2), (.len273, 35, 3), (.len274, 43, 3),
   (.len275, 51, 3), (.len276, 59, 3), (.len277, 67, 4), (.len278, 83, 4), (.len279, 99, 4), (.len280, 115, 4),
   (.len281, 131, 5), (.len282, 163, 5), (.len283, 195, 5), (.len284, 227, 5), (.len285, 258, 0)]

/-- The distance rows: instruction, base, extra bits (R332, opcode_table.json). -/
def distanceRows : List (Instr × Nat × Nat) :=
  [(.dist0, 1, 0), (.dist1, 2, 0), (.dist2, 3, 0), (.dist3, 4, 0), (.dist4, 5, 1), (.dist5, 7, 1),
   (.dist6, 9, 2), (.dist7, 13, 2), (.dist8, 17, 3), (.dist9, 25, 3), (.dist10, 33, 4), (.dist11, 49, 4),
   (.dist12, 65, 5), (.dist13, 97, 5), (.dist14, 129, 6), (.dist15, 193, 6), (.dist16, 257, 7), (.dist17, 385, 7),
   (.dist18, 513, 8), (.dist19, 769, 8), (.dist20, 1025, 9), (.dist21, 1537, 9), (.dist22, 2049, 10), (.dist23, 3073, 10),
   (.dist24, 4097, 11), (.dist25, 6145, 11), (.dist26, 8193, 12), (.dist27, 12289, 12), (.dist28, 16385, 13), (.dist29, 24577, 13)]

/-- `code(L)` of 41_canonical_huffman.md R191 and R193: `code(L) = (code(L−1) + bl_count[L−1]) << 1`, `code(0) = 0`, and
`bl_count[0] = 0`. -/
def firstCode (lens : List Nat) : Nat → Nat
  | 0 => 0
  | L + 1 => 2 * (firstCode lens L + if L = 0 then 0 else lens.count L)

/-- The copy as the source writes it (48_lz77_expander.md R361, first form): a source index that wraps to `start` when it
reaches the growing end. -/
def lz77CopyWrapping (start : Nat) : Nat → Nat → State → Except Cause State
  | 0, _, s => .ok s
  | n + 1, src, s =>
    match append (s.outByte src) s with
    | .error c => .error c
    | .ok s' => lz77CopyWrapping start n (if src + 1 = s'.outLen.toNat then start else src + 1) s'

/-- The copy with the wrap at the end of the output as it was when the copy began, `stop` (R362). -/
def lz77CopyWrappingAt (stop start : Nat) : Nat → Nat → State → Except Cause State
  | 0, _, s => .ok s
  | n + 1, src, s =>
    match append (s.outByte src) s with
    | .error c => .error c
    | .ok s' => lz77CopyWrappingAt stop start n (if src + 1 = stop then start else src + 1) s'

/-- The error table (60_exceptions.md R401): cause, ERR_KIND, ERR_CAUSE. -/
def errorRows : List (Cause × BitVec 2 × BitVec 8) :=
  [(.endOfInput, 1, 0x01), (.reservedBtype, 1, 0x02), (.storedLenMismatch, 1, 0x03), (.noMatchingCode, 1, 0x04),
   (.litlenSymbolRange, 1, 0x05), (.lengthTooLong, 1, 0x06), (.noDistanceTable, 1, 0x07), (.distSymbolRange, 1, 0x08),
   (.distTooFarWindow, 1, 0x09), (.distBeyondOutput, 1, 0x0A), (.hlitRange, 1, 0x0B), (.hdistRange, 1, 0x0C),
   (.repeatNoPrevious, 1, 0x0D), (.repeatOverflow, 1, 0x0E), (.clenSymbolRange, 1, 0x0F),
   (.internalBitrevRange, 2, 0x40), (.internalReadWidth, 2, 0x41), (.internalUnalignedRead, 2, 0x42),
   (.outputOverflow, 3, 0x80), (.inLenTooLarge, 3, 0x81)]

/-! ### Outcomes the claims name -/

/-- The outcome is the error state with this kind and cause (60_exceptions.md R403), and nothing of the host's changes. -/
def failsWith (o : Out) (kind : BitVec 2) (cause : BitVec 8) (s : State) : Prop :=
  ∃ t, o = .next t ∧ t.phase = .error ∧ t.errKind = kind ∧ t.errCause = cause ∧
    t.inMem = s.inMem ∧ t.inDraw = s.inDraw ∧ t.inLen = s.inLen ∧ t.params = s.params ∧
    t.hostQueue = s.hostQueue ∧ t.hostWord = s.hostWord ∧ t.hostByte = s.hostByte

/-- The bit lengths of a dynamic block with `r` copies of `v` appended. -/
def State.grown (s : State) (v : BitVec 4) (r : Nat) : List (BitVec 4) := s.lens ++ List.replicate r v

/-- `t` is `s` with the cursor at `c` and `r` copies of `v` appended to the bit lengths, and nothing else changed but, once
there are HLIT + HDIST of them, the tables of the block (46_dynamic_block.md R296, R297, R303 to R305). -/
def lengthsGiven (s t : State) (c : Cursor) (v : BitVec 4) (r : Nat) : Prop :=
  if (s.grown v r).length < s.hlit + s.hdist then
    t = { s with cursor := c, lens := s.grown v r, expect := .codeLength }
  else if s.hdist = 1 ∧ (s.grown v r)[s.hlit]? = some 0 then
    t = { s with cursor := c, lens := s.grown v r, expect := .litlen, distPresent := false,
                 litlenTab := build (((s.grown v r).take s.hlit).map BitVec.toNat) }
  else
    t = { s with cursor := c, lens := s.grown v r, expect := .litlen, distPresent := true,
                 litlenTab := build (((s.grown v r).take s.hlit).map BitVec.toNat),
                 distTab := build ((((s.grown v r).drop s.hlit).take s.hdist).map BitVec.toNat) }

/-- A host write of START (49_host_interface.md R381): a word write to CTRL with bit 0 = 1. -/
def HostAction.isStart : HostAction → Bool
  | .reg a => a.write && a.width == .word && a.offset == 0 && a.data.getLsbD 0
  | .writeIn _ _ => false
  | .readIn _ => false
  | .writeOut _ _ => false
  | .readOut _ => false
  | .reset => false

/-! ### The invariant -/

/-- Every listed cell lies below `size`, and the list is in canonical form. -/
def Memory.within (m : Memory) (size : Word) : Prop := m.wf = true ∧ ∀ c ∈ m, c.1 < size.toNat

/-- The table's symbols lie below `n` and its lengths are 1..15 (10_state.md R42). -/
def Table.symbolsBelow (t : Table) (n : Nat) : Prop := ∀ e ∈ t, e.sym < n ∧ 1 ≤ e.len ∧ e.len ≤ 15

/-- What the parser state inside DECODE_BLOCK means (R233, R250, R290 to R308, R339). -/
def State.ParserInv (s : State) : Prop :=
  match s.expect with
  | .storedHeader => s.btype = 0 ∧ s.cursor.left = 8
  | .dynamicHeader => s.btype = 2
  | .codeLength =>
    s.btype = 2 ∧ 257 ≤ s.hlit ∧ s.hlit ≤ 286 ∧ 1 ≤ s.hdist ∧ s.hdist ≤ 30 ∧ s.lens.length < s.hlit + s.hdist
  | .litlen => s.btype = 1 ∨ s.btype = 2
  | .distance => (s.btype = 1 ∨ s.btype = 2 ∧ s.distPresent = true) ∧ 3 ≤ s.copyLen ∧ s.copyLen ≤ 258

/-- A running call: a legal cursor in a stream that fits IN (R31, R99, R381), and OUT lists exactly the bytes produced
(R37, R100). -/
def State.CallInv (s : State) : Prop :=
  s.CursorLegal ∧ s.inLen.toNat ≤ s.params.inMemSize.toNat ∧
    (∀ c ∈ s.outMem, c.1 < s.outLen.toNat) ∧ (s.phase = .decodeBlock → s.ParserInv)

/-- The recorded error is one of R401 that is no InternalBug. -/
def State.ErrorInv (s : State) : Prop :=
  ∃ c : Cause, c.kind ≠ .internalBug ∧ s.errKind = c.kind.code ∧ s.errCause = c.code

/-- The invariant of the machine. -/
structure State.Inv (s : State) : Prop where
  /-- R10: no memory has size 0. -/
  sizes : s.params.legal = true
  /-- IN is in canonical form and within its size (20_memory.md R90). -/
  inMem : s.inMem.within s.params.inMemSize
  /-- OUT is in canonical form and within its size (R90). -/
  outMem : s.outMem.within s.params.outMemSize
  /-- R31: left is 1..8 at all times. -/
  left : 1 ≤ s.cursor.left.toNat ∧ s.cursor.left.toNat ≤ 8
  /-- R40: 19 code-length-alphabet lengths. -/
  clens : s.clenLens.length = 19
  /-- R41: at most 316 bit lengths. -/
  lens : s.lens.length ≤ 316
  /-- R295: META_TAB holds symbols 0..18. -/
  metaTab : Table.symbolsBelow s.metaTab 19
  /-- R303: LITLEN_TAB holds symbols 0..285. -/
  litlenTab : Table.symbolsBelow s.litlenTab 286
  /-- R303: DIST_TAB holds symbols 0..29. -/
  distTab : Table.symbolsBelow s.distTab 30
  /-- R99, R360: the output fits OUT, and every byte produced is listed. -/
  output : s.busy = true ∨ s.phase = .done →
    s.outLen.toNat ≤ s.params.outMemSize.toNat ∧ ∀ a < s.outLen.toNat, (Memory.read s.outMem a).isSome = true
  /-- While BUSY. -/
  call : s.busy = true → s.CallInv
  /-- R44, R52: kind and cause are non-zero exactly in ERROR. -/
  noError : s.phase ≠ .error → s.errKind = 0 ∧ s.errCause = 0
  /-- R401. -/
  error : s.phase = .error → s.ErrorInv
  /-- Log entry 9: the draws in use are past draws, and two different ones. -/
  draws : s.inDraw < s.freeDraw ∧ s.outDraw < s.freeDraw ∧ s.inDraw ≠ s.outDraw

/-! ### Steps and runs -/

/-- The step stops with no InternalBug fault (60_exceptions.md R402). -/
def noInternalBug : Out → Prop
  | .next _ => True
  | .fault (.internalBug _) => False
  | .fault (.noInAddress _) => True
  | .fault (.noOutAddress _) => True
  | .refused _ => True

/-- `k` steps of the machine. -/
def runSteps (k : Nat) (s : State) : Out := Sys2Proof.core.run k s

/-- A START that is accepted (49_host_interface.md R381), with no further host action coming. -/
def State.startable (s : State) : Prop :=
  s.busy = false ∧ s.inLen.toNat ≤ s.params.inMemSize.toNat ∧ s.hostQueue = []

/-- The stream instructions: every row but the host's. -/
def streamInstr (i : Instr) : Bool := (encode i).1 != .hostWrite && (encode i).1 != .hostRead

end Sys2Proof.Machine
end

