-- ==== Sys2Proof/Certificates/Slice0/Obligations.lean ====
section
/-! DEFINITION. The statements for the provers. Where a statement names a field that is the model's own, or rests on a
choice of the log, its docstring says so. -/

open Sys2Proof Sys2Proof.Machine

/-! ### The bit cursor -/

/-- O1. `read_bits` (40_bit_cursor.md R170): the width check, the input check, the value whose bit `i` is the `i`-th bit
read, and the cursor `n` bits on. -/
def Obligations.ReadBitsPacksEarliestBitLowest : Prop :=
  ∀ (s : State) (n : Nat), s.CursorLegal →
    (32 < n → readBits n s = .error .internalReadWidth) ∧
    (n ≤ 32 → 8 * s.inLen.toNat < s.cursor.consumed + n → readBits n s = .error .endOfInput) ∧
    (n ≤ 32 → s.cursor.consumed + n ≤ 8 * s.inLen.toNat →
      ∃ v, readBits n s = .ok (v, cursorAt (s.cursor.consumed + n)) ∧ v < 2 ^ n ∧
        ∀ i < n, v.testBit i = s.streamBit (s.cursor.consumed + i))

/-- O2. `peek_bits` and `skip_bits` (R173, R174): a peek gives the value of a read and the errors of a read; a skip gives
the cursor of a read, and never fails after a peek of as many bits. -/
def Obligations.PeekAndSkipSplitARead : Prop :=
  ∀ (s : State) (n : Nat),
    (∀ v c, readBits n s = .ok (v, c) → peekBits n s = .ok v ∧ skipBits n s = .ok c) ∧
    (∀ e, readBits n s = .error e → peekBits n s = .error e ∧ skipBits n s = .error e) ∧
    (∀ v, peekBits n s = .ok v → ∃ c, skipBits n s = .ok c ∧ readBits n s = .ok (v, c))

/-- O3. `read_bytes` (R175). -/
def Obligations.ReadBytesTakesWholeBytes : Prop :=
  ∀ (s : State) (n : Nat),
    (s.cursor.left ≠ 8 → readBytes n s = .error .internalUnalignedRead) ∧
    (s.cursor.left = 8 → s.cursor.pos.toNat ≤ s.inLen.toNat → s.inLen.toNat < s.cursor.pos.toNat + n →
      readBytes n s = .error .endOfInput) ∧
    (s.cursor.left = 8 → s.cursor.pos.toNat + n ≤ s.inLen.toNat →
      ∃ bs, readBytes n s = .ok (bs, { pos := BitVec.ofNat 32 (s.cursor.pos.toNat + n), left := 8 }) ∧ bs.length = n ∧
        ∀ k < n, bs[k]? = some (s.inByte (s.cursor.pos.toNat + k)))

/-- O4. `skip_to_byte_boundary` (R176): a no-op at a byte boundary, else the start of the next byte, still in the
stream. -/
def Obligations.AlignmentGoesToTheNextByte : Prop :=
  ∀ s : State, s.CursorLegal →
    (s.cursor.left = 8 → s.cursor.align = s.cursor) ∧
    (s.cursor.left ≠ 8 → s.cursor.align.pos.toNat = s.cursor.pos.toNat + 1 ∧ s.cursor.align.left = 8 ∧
      s.cursor.align.pos.toNat ≤ s.inLen.toNat)

/-! ### Huffman tables and the symbol decoder -/

/-- O5. `build` (41_canonical_huffman.md R191, R193): an entry for exactly the symbols of non-zero length, and the code of
a symbol is the first code of its length plus the number of earlier symbols of that length. -/
def Obligations.BuildAssignsCanonicalCodes : Prop :=
  ∀ lens : List Nat, (∀ L ∈ lens, L ≤ 15) → ∀ e : Entry,
    e ∈ build lens ↔
      lens[e.sym]? = some e.len ∧ e.len ≠ 0 ∧ e.code = firstCode lens e.len + (lens.take e.sym).count e.len

/-- O6. `lookup` in a built table (R195): a symbol is found exactly if its entry stands in the table, so at most one entry
has a code and a length. -/
def Obligations.LookupIsAFunctionOfTheTable : Prop :=
  ∀ lens : List Nat, (∀ L ∈ lens, L ≤ 15) → ∀ code len sym : Nat,
    lookup (build lens) code len = some sym ↔ { code := code, len := len, sym := sym } ∈ build lens

/-- O7. Code values (R194): below 2^24 for up to 288 symbols, and an entry whose code does not fit its length is never what
the symbol decoder looks up. -/
def Obligations.CodeValuesStayBelowTwoPow24 : Prop :=
  ∀ lens : List Nat, lens.length ≤ 288 → (∀ L ∈ lens, L ≤ 15) → ∀ e ∈ build lens,
    e.code < 2 ^ 24 ∧ (2 ^ e.len ≤ e.code → ∀ v, bitrev v e.len ≠ .ok e.code)

/-- O8. All lengths zero (R198): the empty table, from which no symbol can be decoded (42_symbol_decoder.md R212): END_OF_INPUT
if fewer than `lmax` bits remain, else NO_MATCHING_CODE. -/
def Obligations.EmptyTableDecodesNothing : Prop :=
  ∀ lens : List Nat, (∀ L ∈ lens, L = 0) →
    build lens = [] ∧
    ∀ (s : State) (lmin lmax : Nat), s.CursorLegal → 1 ≤ lmin → lmin ≤ lmax → lmax ≤ 15 →
      decodeSymbol (build lens) lmin lmax s =
        if s.cursor.consumed + lmax ≤ 8 * s.inLen.toNat then .error .noMatchingCode else .error .endOfInput

/-- O9. The fixed codes (30_encoding.md R136), in the four ranges of the rule, and the 5-bit distance field. -/
def Obligations.FixedCodesAreTheListedOnes : Prop :=
  fixedLitlen.length = 288 ∧
  (∀ sym < 144, lookup fixedLitlen (0x30 + sym) 8 = some sym) ∧
  (∀ k < 112, lookup fixedLitlen (0x190 + k) 9 = some (144 + k)) ∧
  (∀ k < 24, lookup fixedLitlen k 7 = some (256 + k)) ∧
  (∀ k < 8, lookup fixedLitlen (0xC0 + k) 8 = some (280 + k)) ∧
  (∀ d < 32, bitrev (bitsValue (msbFirst 5 d)) 5 = .ok d)

/-- O10. `decode` (42_symbol_decoder.md R211, R212): the shortest code of the table that the next bits spell, the first bit
read being its highest; END_OF_INPUT if the input ends before a match, NO_MATCHING_CODE if no length matches. -/
def Obligations.DecodeTakesTheShortestMatchingCode : Prop :=
  ∀ (t : Table) (lmin lmax : Nat) (s : State), s.CursorLegal → 1 ≤ lmin → lmax ≤ 15 →
    (∀ L sym, lmin ≤ L → L ≤ lmax → s.cursor.consumed + L ≤ 8 * s.inLen.toNat →
      lookup t (s.codeAt s.cursor.consumed L) L = some sym →
      (∀ M, lmin ≤ M → M < L → lookup t (s.codeAt s.cursor.consumed M) M = none) →
      decodeSymbol t lmin lmax s = .ok (sym, cursorAt (s.cursor.consumed + L))) ∧
    (∀ L, lmin ≤ L → L ≤ lmax → 8 * s.inLen.toNat < s.cursor.consumed + L →
      (∀ M, lmin ≤ M → M < L → lookup t (s.codeAt s.cursor.consumed M) M = none) →
      decodeSymbol t lmin lmax s = .error .endOfInput) ∧
    ((∀ L, lmin ≤ L → L ≤ lmax →
        s.cursor.consumed + L ≤ 8 * s.inLen.toNat ∧ lookup t (s.codeAt s.cursor.consumed L) L = none) →
      decodeSymbol t lmin lmax s = .error .noMatchingCode)

/-- O11. The fixed table is complete (R213): a symbol, or END_OF_INPUT. -/
def Obligations.FixedTableAlwaysYieldsASymbol : Prop :=
  ∀ s : State, s.CursorLegal →
    (∃ sym L, sym < 288 ∧ 7 ≤ L ∧ L ≤ 9 ∧
      decodeSymbol fixedLitlen 7 9 s = .ok (sym, cursorAt (s.cursor.consumed + L))) ∨
    decodeSymbol fixedLitlen 7 9 s = .error .endOfInput

/-! ### Encoding and decoding -/

/-- O12. A few words of opcode_table.json, their bits written from the table: a reserved header, an end of block, lengths,
distances, a repeat, headers, host accesses. The choice between rows that share a word is the model's (log entry 13). -/
def Obligations.TableWordsDecodeToTheirRows : Prop :=
  decodeTableWord 8 0b110 = some (.blkReserved false) ∧
  decodeTableWord 16 256 = some .eob ∧
  decodeTableWord 16 285 = some .len285 ∧
  decodeTableWord 16 286 = some .litlenInvalid286 ∧
  decodeTableWord 8 29 = some .dist29 ∧
  decodeTableWord 8 18 = some .clRepeatZeroLong ∧
  decodeTableWord 32 0xFFFA0005 = some (.hdrStored 0x0005 0xFFFA) ∧
  decodeTableWord 14 0b11100000000001 = some (.hdrDynamic 1 0 14) ∧
  decodeTableWord 32 0x08 = some (.hostWriteInLen 0) ∧
  decodeTableWord 32 0x04 = some .hostReadStatus

/-- O13. The bits of an instruction decode to it, for every instruction and operand: a stream that holds them at the cursor
gives the instruction back and leaves the cursor past them. A literal/length symbol stands by its fixed code and a
code-length symbol by its code in the meta-table of nineteen lengths 5; a host word gives its access back. The word of a
host access, offset in bits 7:0 and data above it, is the model's (log entry 13), and so is that a read of CTRL is the row
HOST_READ_RESERVED (log entry 16). -/
def Obligations.InstructionBitsDecodeToTheInstruction : Prop :=
  ∀ (i : Instr) (s : State), i.wellFormed = true → s.CursorLegal →
    s.holdsBits s.cursor.consumed (streamBits (encode i).1 (encode i).2) →
    match (encode i).1 with
    | .blockHeader =>
      ∃ v, readBits 1 s = .ok (v, cursorAt (s.cursor.consumed + 1)) ∧
        fetchBlockHeader { s with cursor := cursorAt (s.cursor.consumed + 1), bfinal := v.testBit 0 }
          = .ok (i, cursorAt (s.cursor.consumed + 3))
    | .storedHeader => s.cursor.left = 8 → fetchStoredHeader s = .ok (i, cursorAt (s.cursor.consumed + 32))
    | .dynamicHeader => fetchDynamicHeader s = .ok (i, cursorAt (s.cursor.consumed + 14))
    | .litlenSymbol =>
      s.btype = 1 → fetchLitlen s = .ok (i, cursorAt (s.cursor.consumed + (fixedCode (encode i).2).2))
    | .distSymbol => s.btype = 1 → fetchDistance s = .ok (i, cursorAt (s.cursor.consumed + 5))
    | .clenSymbol =>
      s.metaTab = build (List.replicate 19 5) → fetchCodeLength s = .ok (i, cursorAt (s.cursor.consumed + 5))
    | .hostWrite =>
      decodeHostWrite (BitVec.ofNat 8 (encode i).2) (BitVec.ofNat 32 ((encode i).2 / 2 ^ 8)) = .ok i
    | .hostRead => decodeHostRead (BitVec.ofNat 8 (encode i).2) = .ok i

/-- O14. Symbols of a dynamic block (46_dynamic_block.md R306, 30_encoding.md R132, R133): whatever table the block built, a
literal/length or distance code of it is run as the row of the symbol it stands for, with the cursor past the code. -/
def Obligations.DynamicCodesSelectTheirRows : Prop :=
  ∀ (s : State) (sym : Nat) (c : Cursor), s.btype = 2 →
    (decodeSymbol s.litlenTab 1 15 s = .ok (sym, c) →
      ∀ i, (encode i).1 = .litlenSymbol → (encode i).2 = sym → fetchLitlen s = .ok (i, c)) ∧
    (decodeSymbol s.distTab 1 15 s = .ok (sym, c) →
      ∀ i, (encode i).1 = .distSymbol → (encode i).2 = sym → fetchDistance s = .ok (i, c)) ∧
    (decodeSymbol s.metaTab 1 15 s = .ok (sym, c) →
      ∀ i, (encode i).1 = .clenSymbol → (encode i).2 = sym → fetchCodeLength s = .ok (i, c))

/-! ### Steps -/

/-- O15. A step of the block runs the instruction decoded at the cursor with the cursor past it; a host access runs the
instruction decoded from its offset and data with the access taken off the queue; an action that must wait lets the block
move. The queue is the model's (log entry 7). -/
def Obligations.StepRunsTheDecodedInstruction : Prop :=
  (∀ (s : State) (i : Instr) (c : Cursor), s.hostQueue = [] →
    (s.phase = .readType → fetchBlockHeader s = .ok (i, c) → step s = exec i { s with cursor := c }) ∧
    (s.phase = .decodeBlock → fetchElement s = .ok (i, c) → step s = exec i { s with cursor := c })) ∧
  (∀ (s : State) (i : Instr) (a : RegAccess) (wait : Nat) (rest : List HostStep),
    s.hostQueue = { wait := wait, action := .reg a } :: rest → (s.busy = true → wait = 0) → a.width = .word →
    (a.write = true → decodeHostWrite a.offset a.data = .ok i → step s = exec i { s with hostQueue := rest }) ∧
    (a.write = false → decodeHostRead a.offset = .ok i → step s = exec i { s with hostQueue := rest })) ∧
  (∀ (s : State) (a : HostAction) (wait : Nat) (rest : List HostStep),
    s.hostQueue = { wait := wait + 1, action := a } :: rest → s.busy = true →
    step s = blockStep { s with hostQueue := { wait := wait, action := a } :: rest })

/-- O16. An element that cannot be read ends the call with the cause of the failed read (60_exceptions.md R400, R403). -/
def Obligations.FailedReadEndsTheCall : Prop :=
  ∀ (s : State) (e : Cause), s.hostQueue = [] → e.kind ≠ .internalBug →
    (s.phase = .readFinal → readBits 1 s = .error e → failsWith (step s) e.kind.code e.code s) ∧
    (s.phase = .readType → fetchBlockHeader s = .error e → failsWith (step s) e.kind.code e.code s) ∧
    (s.phase = .decodeBlock → fetchElement s = .error e → failsWith (step s) e.kind.code e.code s)

/-- O17. READ_FINAL (43_block_dispatcher.md R231): one bit to `bfinal`, then READ_TYPE (R235),
END_OF_INPUT when none remains; an empty stream fails so (R239). That it is a step of its own is the model's (log entry 6). -/
def Obligations.ReadFinalReadsTheFlag : Prop :=
  ∀ s : State, s.CursorLegal → s.hostQueue = [] → s.phase = .readFinal →
    (s.cursor.consumed < 8 * s.inLen.toNat →
      step s = .next { s with cursor := cursorAt (s.cursor.consumed + 1), bfinal := s.streamBit s.cursor.consumed,
                              phase := .readType }) ∧
    (s.cursor.consumed = 8 * s.inLen.toNat → failsWith (step s) 1 0x01 s)

/-- O18. READ_TYPE (R232): two bits, the first being bit 0 of BTYPE, select the block header row; END_OF_INPUT when fewer
remain. That it is a step of its own is the model's (log entry 6). -/
def Obligations.ReadTypeSelectsTheBlockHeader : Prop :=
  ∀ s : State, s.CursorLegal → s.hostQueue = [] → s.phase = .readType →
    (8 * s.inLen.toNat < s.cursor.consumed + 2 → failsWith (step s) 1 0x01 s) ∧
    (s.cursor.consumed + 2 ≤ 8 * s.inLen.toNat →
      step s = exec
        (match s.streamBit (s.cursor.consumed + 1), s.streamBit s.cursor.consumed with
          | false, false => .blkStored s.bfinal
          | false, true => .blkFixed s.bfinal
          | true, false => .blkDynamic s.bfinal
          | true, true => .blkReserved s.bfinal)
        { s with cursor := cursorAt (s.cursor.consumed + 2) })

/-- O19. The block headers (R233): the type is written, decoding of the block begins, a stored block at the next byte
boundary (44_stored_block.md R250) and the other two with no alignment, and BTYPE = 3 fails for a final and a non-final
block alike. The field `expect` is the model's (log entry 6). -/
def Obligations.BlockHeadersBeginTheirBlocks : Prop :=
  ∀ (f : Bool) (s : State),
    exec (.blkStored f) s = .next { s with bfinal := f, btype := 0, phase := .decodeBlock, expect := .storedHeader,
                                           cursor := s.cursor.align } ∧
    exec (.blkFixed f) s = .next { s with bfinal := f, btype := 1, phase := .decodeBlock, expect := .litlen } ∧
    exec (.blkDynamic f) s = .next { s with bfinal := f, btype := 2, phase := .decodeBlock, expect := .dynamicHeader } ∧
    failsWith (exec (.blkReserved f) s) 1 0x02 s

/-- O20. The phase transitions (R235, and the rejected START of 49_host_interface.md R381): a step that changes the phase is
one of the table. A host action lands as log entry 7 says, and the rejected START is log entry 18. -/
def Obligations.PhaseTransitionsAreTheListedOnes : Prop :=
  ∀ s t : State, step s = .next t →
    t.phase = s.phase ∨
    (s.busy = false ∧ (t.phase = .readFinal ∨ t.phase = .error) ∧
      ∃ w a rest, s.hostQueue = { wait := w, action := a } :: rest ∧ a.isStart = true) ∨
    (s.phase = .readFinal ∧ t.phase = .readType) ∨
    (s.phase = .readType ∧ t.phase = .decodeBlock) ∨
    (s.phase = .decodeBlock ∧ t.phase = .readFinal ∧ s.bfinal = false) ∨
    (s.phase = .decodeBlock ∧ t.phase = .done ∧ s.bfinal = true) ∨
    (s.busy = true ∧ t.phase = .error) ∨
    (t.phase = .idle ∧ ∃ w rest, s.hostQueue = { wait := w, action := .reset } :: rest)

/-! ### Stored blocks -/

/-- O21. A stored block (44_stored_block.md R253): LEN bytes are appended verbatim, LEN = 0 included, the cursor ends after
them, the block ends, and nothing else changes. The model's: the data is copied in the step of HDR_STORED (log entry 6), and
the bytes of OUT at and beyond the new `out_len`, which the spec leaves unspecified, read as before (log entry 5). -/
def Obligations.StoredBlockCopiesItsBytesVerbatim : Prop :=
  ∀ (s : State) (len : BitVec 16), s.cursor.left = 8 → s.cursor.pos.toNat + len.toNat ≤ s.inLen.toNat →
    s.outLen.toNat + len.toNat ≤ s.params.outMemSize.toNat →
    ∃ t, exec (.hdrStored len (~~~len)) s = .next t ∧
      t = { s with storedLen := len, storedNlen := ~~~len,
                   cursor := { pos := BitVec.ofNat 32 (s.cursor.pos.toNat + len.toNat), left := 8 },
                   phase := if s.bfinal then .done else .readFinal,
                   outLen := BitVec.ofNat 32 (s.outLen.toNat + len.toNat), outMem := t.outMem } ∧
      (∀ k < len.toNat, t.outByte (s.outLen.toNat + k) = s.inByte (s.cursor.pos.toNat + k)) ∧
      (∀ a, a < s.outLen.toNat ∨ s.outLen.toNat + len.toNat ≤ a → t.outByte a = s.outByte a)

/-- O22. The complement check (R252): before any data byte is read or its presence checked, NLEN ≠ ~LEN fails; over 16 bits
the check holds exactly when LEN + NLEN = 0xFFFF. -/
def Obligations.StoredComplementMismatchFails : Prop :=
  ∀ (s : State) (len nlen : BitVec 16),
    (nlen ≠ ~~~len → failsWith (exec (.hdrStored len nlen) s) 1 0x03 s) ∧
    (nlen = ~~~len ↔ len.toNat + nlen.toNat = 0xFFFF)

/-- O23. The order of a stored block's failures (R253, R254): missing data first, whatever room OUT has, then a full OUT.
That both arise in the step of HDR_STORED is the model's (log entry 6). -/
def Obligations.StoredBlockFailsInOrder : Prop :=
  ∀ (s : State) (len : BitVec 16), s.cursor.left = 8 → s.cursor.pos.toNat ≤ s.inLen.toNat →
    (s.inLen.toNat < s.cursor.pos.toNat + len.toNat → failsWith (exec (.hdrStored len (~~~len)) s) 1 0x01 s) ∧
    (s.cursor.pos.toNat + len.toNat ≤ s.inLen.toNat → s.outLen.toNat ≤ s.params.outMemSize.toNat →
      s.params.outMemSize.toNat < s.outLen.toNat + len.toNat → failsWith (exec (.hdrStored len (~~~len)) s) 3 0x80 s)

/-! ### Literal/length symbols -/

/-- O24. A literal (45_fixed_block.md R273, 48_lz77_expander.md R360): its byte is appended, or OUT is full. That the bytes
of OUT beyond it, which the spec leaves unspecified, read as before is the model's (log entry 5). -/
def Obligations.LiteralAppendsItsByte : Prop :=
  ∀ (s : State) (b : Byte),
    (s.outLen.toNat < s.params.outMemSize.toNat →
      ∃ t, exec (.lit b) s = .next t ∧ t = { s with outLen := s.outLen + 1, outMem := t.outMem } ∧
        t.outByte s.outLen.toNat = b ∧ ∀ a, a ≠ s.outLen.toNat → t.outByte a = s.outByte a) ∧
    (s.outLen = s.params.outMemSize → failsWith (exec (.lit b) s) 3 0x80 s)

/-- O25. The end of a block (45_fixed_block.md R274, 43_block_dispatcher.md R234): DONE after the final block, else
READ_FINAL; no bit is read and nothing else changes. -/
def Obligations.EndOfBlockReturnsToTheDispatcher : Prop :=
  ∀ s : State,
    (s.bfinal = true → exec .eob s = .next { s with phase := .done }) ∧
    (s.bfinal = false → exec .eob s = .next { s with phase := .readFinal })

/-- O26. Every length symbol (47_length_distance.md R331, R334): base plus extra bits, between 3 and 258; the distance comes
next (R128). The field `expect` is the model's (log entry 6); the table values are those of R331 (log entry 15). -/
def Obligations.LengthSymbolsGiveBasePlusExtra : Prop :=
  ∀ (i : Instr) (base extra : Nat), (i, base, extra) ∈ lengthRows → ∀ s : State, s.CursorLegal →
    s.cursor.consumed + extra ≤ 8 * s.inLen.toNat → (s.btype = 2 → s.distPresent = true) →
    exec i s = .next { s with cursor := cursorAt (s.cursor.consumed + extra),
                              copyLen := base + s.fieldAt s.cursor.consumed extra, expect := .distance } ∧
    3 ≤ base + s.fieldAt s.cursor.consumed extra ∧ base + s.fieldAt s.cursor.consumed extra ≤ 258

/-- O27. The failures of a length symbol in order (R341 items 2 and 4, R336): missing extra bits first, then, in a dynamic
block only, no distance table. The table values are those of R331 (log entry 15). -/
def Obligations.LengthSymbolsFailInOrder : Prop :=
  ∀ (i : Instr) (base extra : Nat), (i, base, extra) ∈ lengthRows → ∀ s : State, s.CursorLegal →
    (8 * s.inLen.toNat < s.cursor.consumed + extra → failsWith (exec i s) 1 0x01 s) ∧
    (s.cursor.consumed + extra ≤ 8 * s.inLen.toNat → s.btype = 2 → s.distPresent = false →
      failsWith (exec i s) 1 0x07 s)

/-- O28. The symbols out of range (45_fixed_block.md R276, 47_length_distance.md R333, R337): 286, 287 and distances 30, 31
fail in every state, before any extra bit is read. -/
def Obligations.SymbolsOutOfRangeFail : Prop :=
  ∀ s : State,
    failsWith (exec .litlenInvalid286 s) 1 0x05 s ∧ failsWith (exec .litlenInvalid287 s) 1 0x05 s ∧
    failsWith (exec .distInvalid30 s) 1 0x08 s ∧ failsWith (exec .distInvalid31 s) 1 0x08 s

/-! ### Distance symbols and the copy -/

/-- O29. Every distance symbol (47_length_distance.md R332, R337; 48_lz77_expander.md R361, R363): a distance that reaches
into the output copies `copy_len` bytes, the `k`-th being OUT[start + (k mod d)], and nothing else changes; a
literal/length symbol comes next. The model's: the field `expect` and the copy in the symbol's own step (log entry 6), and
that the bytes of OUT at and beyond the new `out_len`, which the spec leaves unspecified, read as before (log entry 5). The
table values are those of R332 (log entry 15). -/
def Obligations.DistanceSymbolsCopyFromTheOutput : Prop :=
  ∀ (i : Instr) (base extra : Nat), (i, base, extra) ∈ distanceRows → ∀ (s : State) (d : Nat), s.CursorLegal →
    s.cursor.consumed + extra ≤ 8 * s.inLen.toNat → d = base + s.fieldAt s.cursor.consumed extra →
    d ≤ s.outLen.toNat → s.outLen.toNat + s.copyLen ≤ s.params.outMemSize.toNat →
    1 ≤ d ∧ d ≤ 32768 ∧
    ∃ t, exec i s = .next t ∧
      t = { s with cursor := cursorAt (s.cursor.consumed + extra), copyDist := d, expect := .litlen,
                   outLen := BitVec.ofNat 32 (s.outLen.toNat + s.copyLen), outMem := t.outMem } ∧
      (∀ k < s.copyLen, t.outByte (s.outLen.toNat + k) = s.outByte (s.outLen.toNat - d + k % d)) ∧
      (∀ a, a < s.outLen.toNat ∨ s.outLen.toNat + s.copyLen ≤ a → t.outByte a = s.outByte a)

/-- O30. The failures of a distance symbol in order (R341 items 7, 9 and 10, R338, R365): missing extra bits, a distance
beyond the output, OUT filling up in the copy. That all arise in the symbol's own step is the model's (log entry 6). The
table values are those of R332 (log entry 15). -/
def Obligations.DistanceSymbolsFailInOrder : Prop :=
  ∀ (i : Instr) (base extra : Nat), (i, base, extra) ∈ distanceRows → ∀ s : State, s.CursorLegal →
    (8 * s.inLen.toNat < s.cursor.consumed + extra → failsWith (exec i s) 1 0x01 s) ∧
    (s.cursor.consumed + extra ≤ 8 * s.inLen.toNat →
      s.outLen.toNat < base + s.fieldAt s.cursor.consumed extra → failsWith (exec i s) 1 0x0A s) ∧
    (s.cursor.consumed + extra ≤ 8 * s.inLen.toNat →
      base + s.fieldAt s.cursor.consumed extra ≤ s.outLen.toNat → s.outLen.toNat ≤ s.params.outMemSize.toNat →
      s.params.outMemSize.toNat < s.outLen.toNat + s.copyLen → failsWith (exec i s) 3 0x80 s)

/-- O31. The forms of the copy (48_lz77_expander.md R362): the source's wrap at the growing end, and a wrap at the end as it
was when the copy began, write what the copy without a wrap writes. -/
def Obligations.WrappingCopiesWriteTheSameBytes : Prop :=
  ∀ (s : State) (len d : Nat), 1 ≤ d → d ≤ s.outLen.toNat → s.outLen.toNat ≤ s.params.outMemSize.toNat →
    lz77CopyWrapping (s.outLen.toNat - d) len (s.outLen.toNat - d) s = lz77Copy len d s ∧
    lz77CopyWrappingAt s.outLen.toNat (s.outLen.toNat - d) len (s.outLen.toNat - d) s = lz77Copy len d s

/-! ### Dynamic blocks -/

/-- O32. The counts of a dynamic header (46_dynamic_block.md R292): HLIT first, then HDIST, both before any code-length
length is read; HCLEN is at most 19. -/
def Obligations.DynamicHeaderCountsAreChecked : Prop :=
  ∀ (s : State) (hlit hdist : BitVec 5) (hclen : BitVec 4),
    (286 < hlit.toNat + 257 → failsWith (exec (.hdrDynamic hlit hdist hclen) s) 1 0x0B s) ∧
    (hlit.toNat + 257 ≤ 286 → 30 < hdist.toNat + 1 → failsWith (exec (.hdrDynamic hlit hdist hclen) s) 1 0x0C s) ∧
    hclen.toNat + 4 ≤ 19

/-- O33. An accepted dynamic header (R291, R294, R295, R296): the counts, HCLEN 3-bit lengths placed in the order of
CLEN_ORDER and zero in the other slots, the meta-table built from them, no bit length yet. END_OF_INPUT if the lengths are
not all there. The model's: the lengths are read and META_TAB is built in the step of HDR_DYNAMIC and `expect` says what
comes next (log entry 6), and `lens` is a list (log entry 4). The order is that of R293 (log entry 15). -/
def Obligations.DynamicHeaderBuildsTheMetaTable : Prop :=
  ∀ (s : State) (hlit hdist : BitVec 5) (hclen : BitVec 4), s.CursorLegal →
    hlit.toNat + 257 ≤ 286 → hdist.toNat + 1 ≤ 30 →
    (s.cursor.consumed + 3 * (hclen.toNat + 4) ≤ 8 * s.inLen.toNat →
      ∃ t, exec (.hdrDynamic hlit hdist hclen) s = .next t ∧
        t = { s with hlit := hlit.toNat + 257, hdist := hdist.toNat + 1, hclen := hclen.toNat + 4,
                     cursor := cursorAt (s.cursor.consumed + 3 * (hclen.toNat + 4)), clenLens := t.clenLens,
                     metaTab := build (t.clenLens.map BitVec.toNat), lens := [], expect := .codeLength } ∧
        t.clenLens.length = 19 ∧
        ∀ k sym, [16, 17, 18, 0, 8, 7, 9, 6, 10, 5, 11, 4, 12, 3, 13, 2, 14, 1, 15][k]? = some sym →
          t.clenLens[sym]? =
            some (if k < hclen.toNat + 4 then BitVec.ofNat 3 (s.fieldAt (s.cursor.consumed + 3 * k) 3) else 0)) ∧
    (8 * s.inLen.toNat < s.cursor.consumed + 3 * (hclen.toNat + 4) →
      failsWith (exec (.hdrDynamic hlit hdist hclen) s) 1 0x01 s)

/-- O34. Code-length symbols 0 to 15 (R298): the length is appended once, with no extra bits; when it is the last, the
tables are built (R303 to R305). The model's: the tables are built in the step of the last symbol and `expect` says what
comes next (log entry 6), and `lens` with its count is a list (log entry 4). -/
def Obligations.CodeLengthSymbolAppendsItsLength : Prop :=
  ∀ (s : State) (len : BitVec 4), s.lens.length < s.hlit + s.hdist →
    ∃ t, exec (.clLen len) s = .next t ∧ lengthsGiven s t s.cursor len 1

/-- O35. Code-length symbol 16 (R299, R302, R308): no previous length fails before the extra bits; then missing extra bits;
then a run past the total; else the last length, of whichever part, is appended 3 to 6 times. The model's: the tables are
built in the step of the last symbol and `expect` says what comes next (log entry 6), and `lens` with its count is a list
(log entry 4). -/
def Obligations.RepeatPreviousAppendsTheLastLength : Prop :=
  ∀ s : State, s.CursorLegal →
    (s.lens = [] → failsWith (exec .clRepeatPrev s) 1 0x0D s) ∧
    (s.lens ≠ [] → 8 * s.inLen.toNat < s.cursor.consumed + 2 → failsWith (exec .clRepeatPrev s) 1 0x01 s) ∧
    (∀ (prev : BitVec 4) (r : Nat), s.lens.getLast? = some prev → s.cursor.consumed + 2 ≤ 8 * s.inLen.toNat →
      r = 3 + s.fieldAt s.cursor.consumed 2 →
      r ≤ 6 ∧
      (s.hlit + s.hdist < s.lens.length + r → failsWith (exec .clRepeatPrev s) 1 0x0E s) ∧
      (s.lens.length + r ≤ s.hlit + s.hdist →
        ∃ t, exec .clRepeatPrev s = .next t ∧ lengthsGiven s t (cursorAt (s.cursor.consumed + 2)) prev r))

/-- O36. Code-length symbols 17 and 18 (R300, R301, R302): 3 to 10 or 11 to 138 zeros, whatever came before; missing extra
bits or a run past the total fails. The model's: the tables are built in the step of the last symbol and `expect` says what
comes next (log entry 6), and `lens` with its count is a list (log entry 4). -/
def Obligations.RepeatZeroAppendsZeros : Prop :=
  ∀ s : State, s.CursorLegal →
    ∀ (i : Instr) (base extra r : Nat),
      (i, base, extra) ∈ ([(.clRepeatZeroShort, 3, 3), (.clRepeatZeroLong, 11, 7)] : List (Instr × Nat × Nat)) →
      r = base + s.fieldAt s.cursor.consumed extra →
      (8 * s.inLen.toNat < s.cursor.consumed + extra → failsWith (exec i s) 1 0x01 s) ∧
      (s.cursor.consumed + extra ≤ 8 * s.inLen.toNat →
        (s.hlit + s.hdist < s.lens.length + r → failsWith (exec i s) 1 0x0E s) ∧
        (s.lens.length + r ≤ s.hlit + s.hdist →
          ∃ t, exec i s = .next t ∧ lengthsGiven s t (cursorAt (s.cursor.consumed + extra)) 0 r))

/-! ### The host -/

/-- O37. START (49_host_interface.md R381, R382): bit 0 = 0 does nothing; a running call ignores it; a stream longer than IN
fails at once; else a call begins with the initial state of R230. That the cursor and `out_len` are set by START itself is
the model's (log entry 17). -/
def Obligations.StartBeginsACall : Prop :=
  ∀ (s : State) (data : Word),
    (data.getLsbD 0 = false → exec (.hostStart data) s = .next s) ∧
    (s.busy = true → exec (.hostStart data) s = .next s) ∧
    (data.getLsbD 0 = true → s.busy = false → s.params.inMemSize.toNat < s.inLen.toNat →
      failsWith (exec (.hostStart data) s) 3 0x81 s) ∧
    (data.getLsbD 0 = true → s.busy = false → s.inLen.toNat ≤ s.params.inMemSize.toNat →
      ∃ t, exec (.hostStart data) s = .next t ∧
        t = { s with phase := .readFinal, cursor := { pos := 0, left := 8 }, outLen := 0, errKind := 0, errCause := 0,
                     outMem := t.outMem, outDraw := t.outDraw, freeDraw := t.freeDraw })

/-- O38. IN_LEN (R383, 10_state.md R53): any value is stored while no call runs, and a read gives it back; a write while BUSY
is ignored. What a read returns is in `hostWord` (log entry 8); the read has no row of the table (log entry 16). -/
def Obligations.InLenIsWrittenOnlyWhileIdle : Prop :=
  ∀ (s : State) (data : Word),
    (s.busy = true → exec (.hostWriteInLen data) s = .next s) ∧
    (s.busy = false → exec (.hostWriteInLen data) s = .next { s with inLen := data }) ∧
    hostStep (.reg { write := false, width := .word, offset := 0x08, data := data }) s = .next { s with hostWord := s.inLen }

/-- O39. STATUS (R384, 10_state.md R52): the word of each phase, and no side effect. What a read returns is in `hostWord`
(log entry 8). -/
def Obligations.StatusReadsTheWordOfThePhase : Prop :=
  ∀ s : State, s.Inv →
    (s.phase = .idle → exec .hostReadStatus s = .next { s with hostWord := 0 }) ∧
    (s.busy = true → exec .hostReadStatus s = .next { s with hostWord := 1 }) ∧
    (s.phase = .done → exec .hostReadStatus s = .next { s with hostWord := 2 }) ∧
    (s.phase = .error →
      exec .hostReadStatus s =
        .next { s with hostWord := BitVec.ofNat 32 (4 + 2 ^ 4 * s.errKind.toNat + 2 ^ 8 * s.errCause.toNat) } ∧
      s.errKind ≠ 0 ∧ s.errCause ≠ 0)

/-- O40. The result registers (R385, R386, R387; 10_state.md R54 to R57): `out_len` and the final cursor on DONE; OUT_LEN 0
otherwise; IN_POS 0 and IN_BITS 8 before any call, and some value while BUSY or in ERROR. Only the word read changes, and the
count of free values (log entries 8 and 9). That bits 31:4 of IN_BITS read 0 while BUSY or in ERROR too, where R56 calls its
value unspecified and R58 makes those bits reserved, is the model's reading (log entry 21). -/
def Obligations.ResultRegistersReadTheFinalCursor : Prop :=
  ∀ s : State,
    (s.phase = .done →
      exec .hostReadOutLen s = .next { s with hostWord := s.outLen } ∧
      exec .hostReadInPos s = .next { s with hostWord := s.cursor.pos } ∧
      exec .hostReadInBits s = .next { s with hostWord := BitVec.ofNat 32 s.cursor.left.toNat }) ∧
    (s.phase ≠ .done → exec .hostReadOutLen s = .next { s with hostWord := 0 }) ∧
    (s.phase = .idle →
      exec .hostReadInPos s = .next { s with hostWord := 0 } ∧ exec .hostReadInBits s = .next { s with hostWord := 8 }) ∧
    (s.busy = true ∨ s.phase = .error →
      (∃ t, exec .hostReadInPos s = .next t ∧ t = { s with hostWord := t.hostWord, freeDraw := t.freeDraw }) ∧
      (∃ t, exec .hostReadInBits s = .next t ∧ t = { s with hostWord := t.hostWord, freeDraw := t.freeDraw } ∧
        t.hostWord.toNat < 16)) ∧
    exec .hostReadInSize s = .next { s with hostWord := s.params.inMemSize } ∧
    exec .hostReadOutSize s = .next { s with hostWord := s.params.outMemSize }

/-- O41. The offsets with no effect (R388, 10_state.md R51, R58): a write of a read-only or reserved register is ignored, and
CTRL and the reserved registers read 0, in every phase; as instructions and as accesses of the window alike. The model's: what a read returns is in `hostWord` (log
entry 8), and a read of CTRL runs HOST_READ_RESERVED (log entry 16). -/
def Obligations.ReadOnlyAndReservedOffsets : Prop :=
  ∀ (s : State) (o : BitVec 8) (data : Word),
    (writeIgnoredOffset o = true →
      exec (.hostWriteIgnored o data) s = .next s ∧
      hostStep (.reg { write := true, width := .word, offset := o, data := data }) s = .next s) ∧
    (readReservedOffset o = true →
      exec (.hostReadReserved o) s = .next { s with hostWord := 0 } ∧
      hostStep (.reg { write := false, width := .word, offset := o, data := data }) s = .next { s with hostWord := 0 })

/-- O42. The register map (10_state.md R50, 20_memory.md R97): which offset is which register, and every narrow or misaligned
access is refused. -/
def Obligations.RegisterWindowFollowsTheMap : Prop :=
  ∀ (s : State) (a : RegAccess),
    (a.width ≠ .word ∨ a.offset.toNat % 4 ≠ 0 → hostStep (.reg a) s = .refused .narrowOrMisalignedAccess) ∧
    (a.width = .word → a.write = true →
      (a.offset = 0x00 → hostStep (.reg a) s = exec (.hostStart a.data) s) ∧
      (a.offset = 0x08 → hostStep (.reg a) s = exec (.hostWriteInLen a.data) s)) ∧
    (a.width = .word → a.write = false →
      (a.offset = 0x04 → hostStep (.reg a) s = exec .hostReadStatus s) ∧
      (a.offset = 0x0C → hostStep (.reg a) s = exec .hostReadOutLen s) ∧
      (a.offset = 0x10 → hostStep (.reg a) s = exec .hostReadInPos s) ∧
      (a.offset = 0x14 → hostStep (.reg a) s = exec .hostReadInBits s) ∧
      (a.offset = 0x18 → hostStep (.reg a) s = exec .hostReadInSize s) ∧
      (a.offset = 0x1C → hostStep (.reg a) s = exec .hostReadOutSize s))

/-- O43. Host accesses to IN and OUT (R390, 20_memory.md R94, R95): writes while no call runs, and only then; reads of IN in
every phase; reads of OUT give its byte while no call runs and some value while one runs. A read changes only the byte read
and, while BUSY, the count of free values (log entries 8 and 9). The model's: a byte the spec leaves unspecified (unwritten
since reset, of OUT after an error or beyond OUT_LEN) stays the same until it is written, so that two reads agree (log entry
5), and a byte of OUT the host writes in DONE or ERROR reads back (log entry 27). Addresses beyond the memories are O59. -/
def Obligations.MemoryAccessesFollowTheHostTable : Prop :=
  ∀ (s : State) (a : Nat) (b : Byte),
    (s.busy = true →
      hostStep (.writeIn a b) s = .refused .inWriteWhileBusy ∧ hostStep (.writeOut a b) s = .refused .outWriteWhileBusy) ∧
    (s.busy = false → a < s.params.inMemSize.toNat →
      ∃ t, hostStep (.writeIn a b) s = .next t ∧ t = { s with inMem := t.inMem } ∧ t.inByte a = b ∧
        ∀ x, x ≠ a → t.inByte x = s.inByte x) ∧
    (s.busy = false → a < s.params.outMemSize.toNat →
      ∃ t, hostStep (.writeOut a b) s = .next t ∧ t = { s with outMem := t.outMem } ∧ t.outByte a = b ∧
        ∀ x, x ≠ a → t.outByte x = s.outByte x) ∧
    (a < s.params.inMemSize.toNat → hostStep (.readIn a) s = .next { s with hostByte := s.inByte a }) ∧
    (a < s.params.outMemSize.toNat → s.busy = false → hostStep (.readOut a) s = .next { s with hostByte := s.outByte a }) ∧
    (a < s.params.outMemSize.toNat → s.busy = true →
      ∃ t, hostStep (.readOut a) s = .next t ∧ t = { s with hostByte := t.hostByte, freeDraw := t.freeDraw })

/-- O44. A running call (R380, R390): whatever the host does short of reset changes nothing but what the host has read and
the count of free values (log entries 8 and 9). -/
def Obligations.HostCannotDisturbARunningCall : Prop :=
  ∀ (s t : State) (a : HostAction), s.busy = true → a ≠ .reset → hostStep a s = .next t →
    t = { s with hostWord := t.hostWord, hostByte := t.hostByte, freeDraw := t.freeDraw }

/-- O45. DONE and ERROR are held (43_block_dispatcher.md R235, 60_exceptions.md R404): outside a call, nothing but START and
reset changes the phase, the recorded error, the output length or the cursor, and the block by itself changes nothing. -/
def Obligations.OutsideACallOnlyStartAndResetAct : Prop :=
  ∀ s : State, s.busy = false →
    (s.hostQueue = [] → step s = .next s) ∧
    ∀ (a : HostAction) (t : State), a ≠ .reset → a.isStart = false → hostStep a s = .next t →
      t.phase = s.phase ∧ t.errKind = s.errKind ∧ t.errCause = s.errCause ∧ t.outLen = s.outLen ∧ t.cursor = s.cursor

/-- O46. The stream instructions (10_state.md R46, R60; 49_host_interface.md R380): none writes IN, IN_LEN, the sizes or
anything of the host's. -/
def Obligations.StreamInstructionsLeaveTheHostSideAlone : Prop :=
  ∀ (i : Instr) (s t : State), streamInstr i = true → exec i s = .next t →
    t.inMem = s.inMem ∧ t.inDraw = s.inDraw ∧ t.inLen = s.inLen ∧ t.params = s.params ∧ t.hostQueue = s.hostQueue ∧
      t.hostWord = s.hostWord ∧ t.hostByte = s.hostByte

/-! ### Errors and reset -/

/-- O47. Entry into the error state (60_exceptions.md R401, R402, R403): each cause has the kind and the number of its row;
a cause that is no InternalBug leaves them in STATUS with ERROR alone set and OUT_LEN reading 0; an InternalBug is the
model's fault. -/
def Obligations.ErrorEntryRecordsKindAndCause : Prop :=
  ∀ c : Cause, ∃ k n, (c, k, n) ∈ errorRows ∧ ∀ s : State,
    (k ≠ 2 →
      failsWith (raise c s) k n s ∧
      ∀ t, raise c s = .next t →
        t.outLenWord = 0 ∧ t.statusWord = BitVec.ofNat 32 (4 + 2 ^ 4 * k.toNat + 2 ^ 8 * n.toNat)) ∧
    (k = 2 → raise c s = .fault (.internalBug c))

/-- O48. Reset (70_reset_and_hazards.md R450, R451), from every state, a running call included: the values the spec gives.
The registers without a reset value and the bytes of IN and OUT are not spoken of (log entries 3 and 5). -/
def Obligations.ResetLeavesTheListedValues : Prop :=
  (∀ s : State, ∃ t, hostStep .reset s = .next t ∧
    t.phase = .idle ∧ t.cursor = { pos := 0, left := 8 } ∧ t.bfinal = false ∧ t.btype = 0 ∧ t.distPresent = false ∧
    t.outLen = 0 ∧ t.errKind = 0 ∧ t.errCause = 0 ∧ t.inLen = 0 ∧ t.params = s.params ∧ t.statusWord = 0 ∧
    t.outLenWord = 0) ∧
  (State.reset.phase = .idle ∧ State.reset.cursor = { pos := 0, left := 8 } ∧ State.reset.bfinal = false ∧
    State.reset.btype = 0 ∧ State.reset.distPresent = false ∧ State.reset.outLen = 0 ∧ State.reset.errKind = 0 ∧
    State.reset.errCause = 0 ∧ State.reset.inLen = 0 ∧ State.reset.statusWord = 0 ∧ State.reset.outLenWord = 0)

/-! ### The whole machine -/

/-- O49. The invariant holds after reset. -/
def Obligations.ResetMeetsTheInvariant : Prop := State.reset.Inv

/-- O50. Every step, of the block or of the host, keeps the invariant: memories in canonical form and within their sizes,
the cursor legal in a running call (10_state.md R31), the output within OUT and all of it listed (R37), tables of legal
symbols and lengths (R42), at most 316 bit lengths (R41), the error registers non-zero exactly in ERROR (R44, R52). -/
def Obligations.StepKeepsTheInvariant : Prop :=
  ∀ s t : State, s.Inv → step s = .next t → t.Inv

/-- O51. No stream and no host action causes an INTERNAL_BUG (60_exceptions.md R402), and in a running call the block's step
always answers a next state. -/
def Obligations.NoInternalBugFromTheInvariant : Prop :=
  ∀ s : State, s.Inv → noInternalBug (step s) ∧ (s.hostQueue = [] → ∃ t, step s = .next t)

/-- O52. Errors that cannot happen: LENGTH_TOO_LONG, DIST_TOO_FAR_WINDOW and CLEN_SYMBOL_RANGE nowhere (47_length_distance.md
R335, R338; 46_dynamic_block.md R307), the symbol ranges not in a dynamic block (R303), NO_MATCHING_CODE and
NO_DISTANCE_TABLE not in a fixed block (45_fixed_block.md R272, 47_length_distance.md R336). -/
def Obligations.UnreachableErrorsAreNeverReported : Prop :=
  ∀ s t : State, s.Inv → s.hostQueue = [] → s.phase = .decodeBlock → step s = .next t → t.phase = .error →
    t.errCause ≠ 0x06 ∧ t.errCause ≠ 0x09 ∧ t.errCause ≠ 0x0F ∧
    (s.btype = 2 → t.errCause ≠ 0x05 ∧ t.errCause ≠ 0x08) ∧
    (s.btype = 1 → t.errCause ≠ 0x04 ∧ t.errCause ≠ 0x07)

/-- O53. The cursor only moves forward (40_bit_cursor.md R177), and each step of a call that does not fail consumes at least
one bit of the stream (43_block_dispatcher.md R237). -/
def Obligations.EveryStepOfACallConsumesInput : Prop :=
  ∀ s t : State, s.Inv → s.hostQueue = [] → s.busy = true → step s = .next t → t.phase ≠ .error →
    s.cursor.consumed < t.cursor.consumed ∧ t.cursor.consumed ≤ 8 * s.inLen.toNat

/-- O54. The output of a call only grows (43_block_dispatcher.md R236, 10_state.md R37): a step that does not fail leaves
every byte produced so far as it is, and IN alone. -/
def Obligations.OutputIsAppendOnlyDuringACall : Prop :=
  ∀ s t : State, s.Inv → s.hostQueue = [] → s.busy = true → step s = .next t → t.phase ≠ .error →
    s.outLen.toNat ≤ t.outLen.toNat ∧ (∀ a < s.outLen.toNat, t.outByte a = s.outByte a) ∧ t.inMem = s.inMem

/-- O55. Every call ends (R237, 49_host_interface.md R389): from any point of a call, DONE or ERROR within as many steps as
the stream has bits, and one more. That a step takes one element of the stream is the model's (log entry 6). -/
def Obligations.EveryCallEnds : Prop :=
  ∀ s : State, s.Inv → s.hostQueue = [] → s.busy = true →
    ∃ t, runSteps (8 * s.inLen.toNat + 1) s = .next t ∧ (t.phase = .done ∨ t.phase = .error)

/-- O56. The output is at most 1032 times the input (R237), at every point of a call. -/
def Obligations.OutputIsBoundedByTheInput : Prop :=
  ∀ (s t : State) (n : Nat), s.Inv → s.startable → runSteps n s.startCall = .next t →
    t.outLen.toNat ≤ 1032 * s.inLen.toNat

/-- O57. A call in small steps and `inflate` in one piece give the same observation (10_state.md R59, 43_block_dispatcher.md
R230, 49_host_interface.md R389): on success the same output and final cursor, on failure the same kind and cause. -/
def Obligations.SmallStepsComputeInflate : Prop :=
  ∀ s : State, s.Inv → s.startable →
    (∀ u, inflate s.startCall = .ok u →
      ∃ t, runSteps (8 * s.inLen.toNat + 1) s.startCall = .next t ∧ t.phase = .done ∧ t.outLen = u.outLen ∧
        t.cursor = u.cursor ∧ ∀ a < u.outLen.toNat, t.outByte a = u.outByte a) ∧
    (∀ c, inflate s.startCall = .error c →
      ∃ t, runSteps (8 * s.inLen.toNat + 1) s.startCall = .next t ∧ t.phase = .error ∧ t.errKind = c.kind.code ∧
        t.errCause = c.code)

/-- O58. A call depends on its stream and the size of OUT alone (00_scope.md R3, 49_host_interface.md R381, 20_memory.md R95):
two instances that differ in anything else, the last call, the old bytes of OUT, IN beyond IN_LEN, go through the same
phases with the same cursor, output and error. -/
def Obligations.CallDependsOnlyOnItsStream : Prop :=
  ∀ (s u : State) (n : Nat), s.Inv → u.Inv → s.startable → u.startable → s.inLen = u.inLen →
    s.params.outMemSize = u.params.outMemSize → (∀ a < s.inLen.toNat, s.inByte a = u.inByte a) →
    ∃ t v, runSteps n s.startCall = .next t ∧ runSteps n u.startCall = .next v ∧ t.phase = v.phase ∧
      t.cursor = v.cursor ∧ t.outLen = v.outLen ∧ t.errKind = v.errKind ∧ t.errCause = v.errCause ∧
      (t.phase ≠ .error → ∀ a < t.outLen.toNat, t.outByte a = v.outByte a)

/-! ### Host accesses outside the memories -/

/-- O59. IN and OUT have addresses below their sizes only (20_memory.md R90). That a host access beyond them stops with a
fault is the model's (log entry 19); a write while BUSY is refused wherever it goes (O43). -/
def Obligations.HostAccessesBeyondTheMemoriesStop : Prop :=
  ∀ (s : State) (a : Nat) (b : Byte),
    (s.params.inMemSize.toNat ≤ a →
      hostStep (.readIn a) s = .fault (.noInAddress a) ∧
      (s.busy = false → hostStep (.writeIn a b) s = .fault (.noInAddress a))) ∧
    (s.params.outMemSize.toNat ≤ a →
      hostStep (.readOut a) s = .fault (.noOutAddress a) ∧
      (s.busy = false → hostStep (.writeOut a b) s = .fault (.noOutAddress a)))
end

