-- ==== Sys2Proof/Laws/State.lean ====
section
/-! SUPPORT. One lemma for each field under each named update of State, so that no proof unfolds a record update. -/

namespace Sys2Proof.Machine

/-! ### `State.forgetOut` -/

@[simp] theorem State.forgetOut_cursor (s : State) : (s.forgetOut).cursor = s.cursor := rfl
@[simp] theorem State.forgetOut_bfinal (s : State) : (s.forgetOut).bfinal = s.bfinal := rfl
@[simp] theorem State.forgetOut_btype (s : State) : (s.forgetOut).btype = s.btype := rfl
@[simp] theorem State.forgetOut_distPresent (s : State) : (s.forgetOut).distPresent = s.distPresent := rfl
@[simp] theorem State.forgetOut_phase (s : State) : (s.forgetOut).phase = s.phase := rfl
@[simp] theorem State.forgetOut_outLen (s : State) : (s.forgetOut).outLen = s.outLen := rfl
@[simp] theorem State.forgetOut_storedLen (s : State) : (s.forgetOut).storedLen = s.storedLen := rfl
@[simp] theorem State.forgetOut_storedNlen (s : State) : (s.forgetOut).storedNlen = s.storedNlen := rfl
@[simp] theorem State.forgetOut_hlit (s : State) : (s.forgetOut).hlit = s.hlit := rfl
@[simp] theorem State.forgetOut_hdist (s : State) : (s.forgetOut).hdist = s.hdist := rfl
@[simp] theorem State.forgetOut_hclen (s : State) : (s.forgetOut).hclen = s.hclen := rfl
@[simp] theorem State.forgetOut_clenLens (s : State) : (s.forgetOut).clenLens = s.clenLens := rfl
@[simp] theorem State.forgetOut_lens (s : State) : (s.forgetOut).lens = s.lens := rfl
@[simp] theorem State.forgetOut_metaTab (s : State) : (s.forgetOut).metaTab = s.metaTab := rfl
@[simp] theorem State.forgetOut_litlenTab (s : State) : (s.forgetOut).litlenTab = s.litlenTab := rfl
@[simp] theorem State.forgetOut_distTab (s : State) : (s.forgetOut).distTab = s.distTab := rfl
@[simp] theorem State.forgetOut_copyLen (s : State) : (s.forgetOut).copyLen = s.copyLen := rfl
@[simp] theorem State.forgetOut_copyDist (s : State) : (s.forgetOut).copyDist = s.copyDist := rfl
@[simp] theorem State.forgetOut_errKind (s : State) : (s.forgetOut).errKind = s.errKind := rfl
@[simp] theorem State.forgetOut_errCause (s : State) : (s.forgetOut).errCause = s.errCause := rfl
@[simp] theorem State.forgetOut_inMem (s : State) : (s.forgetOut).inMem = s.inMem := rfl
@[simp] theorem State.forgetOut_outMem (s : State) : (s.forgetOut).outMem = [] := rfl
@[simp] theorem State.forgetOut_inLen (s : State) : (s.forgetOut).inLen = s.inLen := rfl
@[simp] theorem State.forgetOut_params (s : State) : (s.forgetOut).params = s.params := rfl
@[simp] theorem State.forgetOut_expect (s : State) : (s.forgetOut).expect = s.expect := rfl
@[simp] theorem State.forgetOut_hostQueue (s : State) : (s.forgetOut).hostQueue = s.hostQueue := rfl
@[simp] theorem State.forgetOut_hostWord (s : State) : (s.forgetOut).hostWord = s.hostWord := rfl
@[simp] theorem State.forgetOut_hostByte (s : State) : (s.forgetOut).hostByte = s.hostByte := rfl
@[simp] theorem State.forgetOut_freeDraw (s : State) : (s.forgetOut).freeDraw = s.freeDraw + 1 := rfl
@[simp] theorem State.forgetOut_inDraw (s : State) : (s.forgetOut).inDraw = s.inDraw := rfl
@[simp] theorem State.forgetOut_outDraw (s : State) : (s.forgetOut).outDraw = s.freeDraw := rfl

/-! ### `State.enterError` -/

@[simp] theorem State.enterError_cursor (s : State) (k : Cause) : (s.enterError k).cursor = s.cursor := rfl
@[simp] theorem State.enterError_bfinal (s : State) (k : Cause) : (s.enterError k).bfinal = s.bfinal := rfl
@[simp] theorem State.enterError_btype (s : State) (k : Cause) : (s.enterError k).btype = s.btype := rfl
@[simp] theorem State.enterError_distPresent (s : State) (k : Cause) : (s.enterError k).distPresent = s.distPresent := rfl
@[simp] theorem State.enterError_phase (s : State) (k : Cause) : (s.enterError k).phase = .error := rfl
@[simp] theorem State.enterError_outLen (s : State) (k : Cause) : (s.enterError k).outLen = s.outLen := rfl
@[simp] theorem State.enterError_storedLen (s : State) (k : Cause) : (s.enterError k).storedLen = s.storedLen := rfl
@[simp] theorem State.enterError_storedNlen (s : State) (k : Cause) : (s.enterError k).storedNlen = s.storedNlen := rfl
@[simp] theorem State.enterError_hlit (s : State) (k : Cause) : (s.enterError k).hlit = s.hlit := rfl
@[simp] theorem State.enterError_hdist (s : State) (k : Cause) : (s.enterError k).hdist = s.hdist := rfl
@[simp] theorem State.enterError_hclen (s : State) (k : Cause) : (s.enterError k).hclen = s.hclen := rfl
@[simp] theorem State.enterError_clenLens (s : State) (k : Cause) : (s.enterError k).clenLens = s.clenLens := rfl
@[simp] theorem State.enterError_lens (s : State) (k : Cause) : (s.enterError k).lens = s.lens := rfl
@[simp] theorem State.enterError_metaTab (s : State) (k : Cause) : (s.enterError k).metaTab = s.metaTab := rfl
@[simp] theorem State.enterError_litlenTab (s : State) (k : Cause) : (s.enterError k).litlenTab = s.litlenTab := rfl
@[simp] theorem State.enterError_distTab (s : State) (k : Cause) : (s.enterError k).distTab = s.distTab := rfl
@[simp] theorem State.enterError_copyLen (s : State) (k : Cause) : (s.enterError k).copyLen = s.copyLen := rfl
@[simp] theorem State.enterError_copyDist (s : State) (k : Cause) : (s.enterError k).copyDist = s.copyDist := rfl
@[simp] theorem State.enterError_errKind (s : State) (k : Cause) : (s.enterError k).errKind = k.kind.code := rfl
@[simp] theorem State.enterError_errCause (s : State) (k : Cause) : (s.enterError k).errCause = k.code := rfl
@[simp] theorem State.enterError_inMem (s : State) (k : Cause) : (s.enterError k).inMem = s.inMem := rfl
@[simp] theorem State.enterError_outMem (s : State) (k : Cause) : (s.enterError k).outMem = [] := rfl
@[simp] theorem State.enterError_inLen (s : State) (k : Cause) : (s.enterError k).inLen = s.inLen := rfl
@[simp] theorem State.enterError_params (s : State) (k : Cause) : (s.enterError k).params = s.params := rfl
@[simp] theorem State.enterError_expect (s : State) (k : Cause) : (s.enterError k).expect = s.expect := rfl
@[simp] theorem State.enterError_hostQueue (s : State) (k : Cause) : (s.enterError k).hostQueue = s.hostQueue := rfl
@[simp] theorem State.enterError_hostWord (s : State) (k : Cause) : (s.enterError k).hostWord = s.hostWord := rfl
@[simp] theorem State.enterError_hostByte (s : State) (k : Cause) : (s.enterError k).hostByte = s.hostByte := rfl
@[simp] theorem State.enterError_freeDraw (s : State) (k : Cause) : (s.enterError k).freeDraw = s.freeDraw + 1 := rfl
@[simp] theorem State.enterError_inDraw (s : State) (k : Cause) : (s.enterError k).inDraw = s.inDraw := rfl
@[simp] theorem State.enterError_outDraw (s : State) (k : Cause) : (s.enterError k).outDraw = s.freeDraw := rfl

/-! ### `State.startCall` -/

@[simp] theorem State.startCall_cursor (s : State) : (s.startCall).cursor = Cursor.start := rfl
@[simp] theorem State.startCall_bfinal (s : State) : (s.startCall).bfinal = s.bfinal := rfl
@[simp] theorem State.startCall_btype (s : State) : (s.startCall).btype = s.btype := rfl
@[simp] theorem State.startCall_distPresent (s : State) : (s.startCall).distPresent = s.distPresent := rfl
@[simp] theorem State.startCall_phase (s : State) : (s.startCall).phase = .readFinal := rfl
@[simp] theorem State.startCall_outLen (s : State) : (s.startCall).outLen = 0 := rfl
@[simp] theorem State.startCall_storedLen (s : State) : (s.startCall).storedLen = s.storedLen := rfl
@[simp] theorem State.startCall_storedNlen (s : State) : (s.startCall).storedNlen = s.storedNlen := rfl
@[simp] theorem State.startCall_hlit (s : State) : (s.startCall).hlit = s.hlit := rfl
@[simp] theorem State.startCall_hdist (s : State) : (s.startCall).hdist = s.hdist := rfl
@[simp] theorem State.startCall_hclen (s : State) : (s.startCall).hclen = s.hclen := rfl
@[simp] theorem State.startCall_clenLens (s : State) : (s.startCall).clenLens = s.clenLens := rfl
@[simp] theorem State.startCall_lens (s : State) : (s.startCall).lens = s.lens := rfl
@[simp] theorem State.startCall_metaTab (s : State) : (s.startCall).metaTab = s.metaTab := rfl
@[simp] theorem State.startCall_litlenTab (s : State) : (s.startCall).litlenTab = s.litlenTab := rfl
@[simp] theorem State.startCall_distTab (s : State) : (s.startCall).distTab = s.distTab := rfl
@[simp] theorem State.startCall_copyLen (s : State) : (s.startCall).copyLen = s.copyLen := rfl
@[simp] theorem State.startCall_copyDist (s : State) : (s.startCall).copyDist = s.copyDist := rfl
@[simp] theorem State.startCall_errKind (s : State) : (s.startCall).errKind = 0 := rfl
@[simp] theorem State.startCall_errCause (s : State) : (s.startCall).errCause = 0 := rfl
@[simp] theorem State.startCall_inMem (s : State) : (s.startCall).inMem = s.inMem := rfl
@[simp] theorem State.startCall_outMem (s : State) : (s.startCall).outMem = [] := rfl
@[simp] theorem State.startCall_inLen (s : State) : (s.startCall).inLen = s.inLen := rfl
@[simp] theorem State.startCall_params (s : State) : (s.startCall).params = s.params := rfl
@[simp] theorem State.startCall_expect (s : State) : (s.startCall).expect = s.expect := rfl
@[simp] theorem State.startCall_hostQueue (s : State) : (s.startCall).hostQueue = s.hostQueue := rfl
@[simp] theorem State.startCall_hostWord (s : State) : (s.startCall).hostWord = s.hostWord := rfl
@[simp] theorem State.startCall_hostByte (s : State) : (s.startCall).hostByte = s.hostByte := rfl
@[simp] theorem State.startCall_freeDraw (s : State) : (s.startCall).freeDraw = s.freeDraw + 1 := rfl
@[simp] theorem State.startCall_inDraw (s : State) : (s.startCall).inDraw = s.inDraw := rfl
@[simp] theorem State.startCall_outDraw (s : State) : (s.startCall).outDraw = s.freeDraw := rfl

/-! ### `State.endBlock` -/

@[simp] theorem State.endBlock_cursor (s : State) : (s.endBlock).cursor = s.cursor := rfl
@[simp] theorem State.endBlock_bfinal (s : State) : (s.endBlock).bfinal = s.bfinal := rfl
@[simp] theorem State.endBlock_btype (s : State) : (s.endBlock).btype = s.btype := rfl
@[simp] theorem State.endBlock_distPresent (s : State) : (s.endBlock).distPresent = s.distPresent := rfl
@[simp] theorem State.endBlock_phase (s : State) : (s.endBlock).phase = if s.bfinal then .done else .readFinal := rfl
@[simp] theorem State.endBlock_outLen (s : State) : (s.endBlock).outLen = s.outLen := rfl
@[simp] theorem State.endBlock_storedLen (s : State) : (s.endBlock).storedLen = s.storedLen := rfl
@[simp] theorem State.endBlock_storedNlen (s : State) : (s.endBlock).storedNlen = s.storedNlen := rfl
@[simp] theorem State.endBlock_hlit (s : State) : (s.endBlock).hlit = s.hlit := rfl
@[simp] theorem State.endBlock_hdist (s : State) : (s.endBlock).hdist = s.hdist := rfl
@[simp] theorem State.endBlock_hclen (s : State) : (s.endBlock).hclen = s.hclen := rfl
@[simp] theorem State.endBlock_clenLens (s : State) : (s.endBlock).clenLens = s.clenLens := rfl
@[simp] theorem State.endBlock_lens (s : State) : (s.endBlock).lens = s.lens := rfl
@[simp] theorem State.endBlock_metaTab (s : State) : (s.endBlock).metaTab = s.metaTab := rfl
@[simp] theorem State.endBlock_litlenTab (s : State) : (s.endBlock).litlenTab = s.litlenTab := rfl
@[simp] theorem State.endBlock_distTab (s : State) : (s.endBlock).distTab = s.distTab := rfl
@[simp] theorem State.endBlock_copyLen (s : State) : (s.endBlock).copyLen = s.copyLen := rfl
@[simp] theorem State.endBlock_copyDist (s : State) : (s.endBlock).copyDist = s.copyDist := rfl
@[simp] theorem State.endBlock_errKind (s : State) : (s.endBlock).errKind = s.errKind := rfl
@[simp] theorem State.endBlock_errCause (s : State) : (s.endBlock).errCause = s.errCause := rfl
@[simp] theorem State.endBlock_inMem (s : State) : (s.endBlock).inMem = s.inMem := rfl
@[simp] theorem State.endBlock_outMem (s : State) : (s.endBlock).outMem = s.outMem := rfl
@[simp] theorem State.endBlock_inLen (s : State) : (s.endBlock).inLen = s.inLen := rfl
@[simp] theorem State.endBlock_params (s : State) : (s.endBlock).params = s.params := rfl
@[simp] theorem State.endBlock_expect (s : State) : (s.endBlock).expect = s.expect := rfl
@[simp] theorem State.endBlock_hostQueue (s : State) : (s.endBlock).hostQueue = s.hostQueue := rfl
@[simp] theorem State.endBlock_hostWord (s : State) : (s.endBlock).hostWord = s.hostWord := rfl
@[simp] theorem State.endBlock_hostByte (s : State) : (s.endBlock).hostByte = s.hostByte := rfl
@[simp] theorem State.endBlock_freeDraw (s : State) : (s.endBlock).freeDraw = s.freeDraw := rfl
@[simp] theorem State.endBlock_inDraw (s : State) : (s.endBlock).inDraw = s.inDraw := rfl
@[simp] theorem State.endBlock_outDraw (s : State) : (s.endBlock).outDraw = s.outDraw := rfl

/-! ### `State.enterBlock` -/

@[simp] theorem State.enterBlock_cursor (s : State) (b : Bool) (t : BitVec 2) (e : Element) : (s.enterBlock b t e).cursor = s.cursor := rfl
@[simp] theorem State.enterBlock_bfinal (s : State) (b : Bool) (t : BitVec 2) (e : Element) : (s.enterBlock b t e).bfinal = b := rfl
@[simp] theorem State.enterBlock_btype (s : State) (b : Bool) (t : BitVec 2) (e : Element) : (s.enterBlock b t e).btype = t := rfl
@[simp] theorem State.enterBlock_distPresent (s : State) (b : Bool) (t : BitVec 2) (e : Element) : (s.enterBlock b t e).distPresent = s.distPresent := rfl
@[simp] theorem State.enterBlock_phase (s : State) (b : Bool) (t : BitVec 2) (e : Element) : (s.enterBlock b t e).phase = .decodeBlock := rfl
@[simp] theorem State.enterBlock_outLen (s : State) (b : Bool) (t : BitVec 2) (e : Element) : (s.enterBlock b t e).outLen = s.outLen := rfl
@[simp] theorem State.enterBlock_storedLen (s : State) (b : Bool) (t : BitVec 2) (e : Element) : (s.enterBlock b t e).storedLen = s.storedLen := rfl
@[simp] theorem State.enterBlock_storedNlen (s : State) (b : Bool) (t : BitVec 2) (e : Element) : (s.enterBlock b t e).storedNlen = s.storedNlen := rfl
@[simp] theorem State.enterBlock_hlit (s : State) (b : Bool) (t : BitVec 2) (e : Element) : (s.enterBlock b t e).hlit = s.hlit := rfl
@[simp] theorem State.enterBlock_hdist (s : State) (b : Bool) (t : BitVec 2) (e : Element) : (s.enterBlock b t e).hdist = s.hdist := rfl
@[simp] theorem State.enterBlock_hclen (s : State) (b : Bool) (t : BitVec 2) (e : Element) : (s.enterBlock b t e).hclen = s.hclen := rfl
@[simp] theorem State.enterBlock_clenLens (s : State) (b : Bool) (t : BitVec 2) (e : Element) : (s.enterBlock b t e).clenLens = s.clenLens := rfl
@[simp] theorem State.enterBlock_lens (s : State) (b : Bool) (t : BitVec 2) (e : Element) : (s.enterBlock b t e).lens = s.lens := rfl
@[simp] theorem State.enterBlock_metaTab (s : State) (b : Bool) (t : BitVec 2) (e : Element) : (s.enterBlock b t e).metaTab = s.metaTab := rfl
@[simp] theorem State.enterBlock_litlenTab (s : State) (b : Bool) (t : BitVec 2) (e : Element) : (s.enterBlock b t e).litlenTab = s.litlenTab := rfl
@[simp] theorem State.enterBlock_distTab (s : State) (b : Bool) (t : BitVec 2) (e : Element) : (s.enterBlock b t e).distTab = s.distTab := rfl
@[simp] theorem State.enterBlock_copyLen (s : State) (b : Bool) (t : BitVec 2) (e : Element) : (s.enterBlock b t e).copyLen = s.copyLen := rfl
@[simp] theorem State.enterBlock_copyDist (s : State) (b : Bool) (t : BitVec 2) (e : Element) : (s.enterBlock b t e).copyDist = s.copyDist := rfl
@[simp] theorem State.enterBlock_errKind (s : State) (b : Bool) (t : BitVec 2) (e : Element) : (s.enterBlock b t e).errKind = s.errKind := rfl
@[simp] theorem State.enterBlock_errCause (s : State) (b : Bool) (t : BitVec 2) (e : Element) : (s.enterBlock b t e).errCause = s.errCause := rfl
@[simp] theorem State.enterBlock_inMem (s : State) (b : Bool) (t : BitVec 2) (e : Element) : (s.enterBlock b t e).inMem = s.inMem := rfl
@[simp] theorem State.enterBlock_outMem (s : State) (b : Bool) (t : BitVec 2) (e : Element) : (s.enterBlock b t e).outMem = s.outMem := rfl
@[simp] theorem State.enterBlock_inLen (s : State) (b : Bool) (t : BitVec 2) (e : Element) : (s.enterBlock b t e).inLen = s.inLen := rfl
@[simp] theorem State.enterBlock_params (s : State) (b : Bool) (t : BitVec 2) (e : Element) : (s.enterBlock b t e).params = s.params := rfl
@[simp] theorem State.enterBlock_expect (s : State) (b : Bool) (t : BitVec 2) (e : Element) : (s.enterBlock b t e).expect = e := rfl
@[simp] theorem State.enterBlock_hostQueue (s : State) (b : Bool) (t : BitVec 2) (e : Element) : (s.enterBlock b t e).hostQueue = s.hostQueue := rfl
@[simp] theorem State.enterBlock_hostWord (s : State) (b : Bool) (t : BitVec 2) (e : Element) : (s.enterBlock b t e).hostWord = s.hostWord := rfl
@[simp] theorem State.enterBlock_hostByte (s : State) (b : Bool) (t : BitVec 2) (e : Element) : (s.enterBlock b t e).hostByte = s.hostByte := rfl
@[simp] theorem State.enterBlock_freeDraw (s : State) (b : Bool) (t : BitVec 2) (e : Element) : (s.enterBlock b t e).freeDraw = s.freeDraw := rfl
@[simp] theorem State.enterBlock_inDraw (s : State) (b : Bool) (t : BitVec 2) (e : Element) : (s.enterBlock b t e).inDraw = s.inDraw := rfl
@[simp] theorem State.enterBlock_outDraw (s : State) (b : Bool) (t : BitVec 2) (e : Element) : (s.enterBlock b t e).outDraw = s.outDraw := rfl

/-! ### `State.setCursor` -/

@[simp] theorem State.setCursor_cursor (s : State) (c : Cursor) : (s.setCursor c).cursor = c := rfl
@[simp] theorem State.setCursor_bfinal (s : State) (c : Cursor) : (s.setCursor c).bfinal = s.bfinal := rfl
@[simp] theorem State.setCursor_btype (s : State) (c : Cursor) : (s.setCursor c).btype = s.btype := rfl
@[simp] theorem State.setCursor_distPresent (s : State) (c : Cursor) : (s.setCursor c).distPresent = s.distPresent := rfl
@[simp] theorem State.setCursor_phase (s : State) (c : Cursor) : (s.setCursor c).phase = s.phase := rfl
@[simp] theorem State.setCursor_outLen (s : State) (c : Cursor) : (s.setCursor c).outLen = s.outLen := rfl
@[simp] theorem State.setCursor_storedLen (s : State) (c : Cursor) : (s.setCursor c).storedLen = s.storedLen := rfl
@[simp] theorem State.setCursor_storedNlen (s : State) (c : Cursor) : (s.setCursor c).storedNlen = s.storedNlen := rfl
@[simp] theorem State.setCursor_hlit (s : State) (c : Cursor) : (s.setCursor c).hlit = s.hlit := rfl
@[simp] theorem State.setCursor_hdist (s : State) (c : Cursor) : (s.setCursor c).hdist = s.hdist := rfl
@[simp] theorem State.setCursor_hclen (s : State) (c : Cursor) : (s.setCursor c).hclen = s.hclen := rfl
@[simp] theorem State.setCursor_clenLens (s : State) (c : Cursor) : (s.setCursor c).clenLens = s.clenLens := rfl
@[simp] theorem State.setCursor_lens (s : State) (c : Cursor) : (s.setCursor c).lens = s.lens := rfl
@[simp] theorem State.setCursor_metaTab (s : State) (c : Cursor) : (s.setCursor c).metaTab = s.metaTab := rfl
@[simp] theorem State.setCursor_litlenTab (s : State) (c : Cursor) : (s.setCursor c).litlenTab = s.litlenTab := rfl
@[simp] theorem State.setCursor_distTab (s : State) (c : Cursor) : (s.setCursor c).distTab = s.distTab := rfl
@[simp] theorem State.setCursor_copyLen (s : State) (c : Cursor) : (s.setCursor c).copyLen = s.copyLen := rfl
@[simp] theorem State.setCursor_copyDist (s : State) (c : Cursor) : (s.setCursor c).copyDist = s.copyDist := rfl
@[simp] theorem State.setCursor_errKind (s : State) (c : Cursor) : (s.setCursor c).errKind = s.errKind := rfl
@[simp] theorem State.setCursor_errCause (s : State) (c : Cursor) : (s.setCursor c).errCause = s.errCause := rfl
@[simp] theorem State.setCursor_inMem (s : State) (c : Cursor) : (s.setCursor c).inMem = s.inMem := rfl
@[simp] theorem State.setCursor_outMem (s : State) (c : Cursor) : (s.setCursor c).outMem = s.outMem := rfl
@[simp] theorem State.setCursor_inLen (s : State) (c : Cursor) : (s.setCursor c).inLen = s.inLen := rfl
@[simp] theorem State.setCursor_params (s : State) (c : Cursor) : (s.setCursor c).params = s.params := rfl
@[simp] theorem State.setCursor_expect (s : State) (c : Cursor) : (s.setCursor c).expect = s.expect := rfl
@[simp] theorem State.setCursor_hostQueue (s : State) (c : Cursor) : (s.setCursor c).hostQueue = s.hostQueue := rfl
@[simp] theorem State.setCursor_hostWord (s : State) (c : Cursor) : (s.setCursor c).hostWord = s.hostWord := rfl
@[simp] theorem State.setCursor_hostByte (s : State) (c : Cursor) : (s.setCursor c).hostByte = s.hostByte := rfl
@[simp] theorem State.setCursor_freeDraw (s : State) (c : Cursor) : (s.setCursor c).freeDraw = s.freeDraw := rfl
@[simp] theorem State.setCursor_inDraw (s : State) (c : Cursor) : (s.setCursor c).inDraw = s.inDraw := rfl
@[simp] theorem State.setCursor_outDraw (s : State) (c : Cursor) : (s.setCursor c).outDraw = s.outDraw := rfl

/-! ### `State.giveWord` -/

@[simp] theorem State.giveWord_cursor (s : State) (w : Word) : (s.giveWord w).cursor = s.cursor := rfl
@[simp] theorem State.giveWord_bfinal (s : State) (w : Word) : (s.giveWord w).bfinal = s.bfinal := rfl
@[simp] theorem State.giveWord_btype (s : State) (w : Word) : (s.giveWord w).btype = s.btype := rfl
@[simp] theorem State.giveWord_distPresent (s : State) (w : Word) : (s.giveWord w).distPresent = s.distPresent := rfl
@[simp] theorem State.giveWord_phase (s : State) (w : Word) : (s.giveWord w).phase = s.phase := rfl
@[simp] theorem State.giveWord_outLen (s : State) (w : Word) : (s.giveWord w).outLen = s.outLen := rfl
@[simp] theorem State.giveWord_storedLen (s : State) (w : Word) : (s.giveWord w).storedLen = s.storedLen := rfl
@[simp] theorem State.giveWord_storedNlen (s : State) (w : Word) : (s.giveWord w).storedNlen = s.storedNlen := rfl
@[simp] theorem State.giveWord_hlit (s : State) (w : Word) : (s.giveWord w).hlit = s.hlit := rfl
@[simp] theorem State.giveWord_hdist (s : State) (w : Word) : (s.giveWord w).hdist = s.hdist := rfl
@[simp] theorem State.giveWord_hclen (s : State) (w : Word) : (s.giveWord w).hclen = s.hclen := rfl
@[simp] theorem State.giveWord_clenLens (s : State) (w : Word) : (s.giveWord w).clenLens = s.clenLens := rfl
@[simp] theorem State.giveWord_lens (s : State) (w : Word) : (s.giveWord w).lens = s.lens := rfl
@[simp] theorem State.giveWord_metaTab (s : State) (w : Word) : (s.giveWord w).metaTab = s.metaTab := rfl
@[simp] theorem State.giveWord_litlenTab (s : State) (w : Word) : (s.giveWord w).litlenTab = s.litlenTab := rfl
@[simp] theorem State.giveWord_distTab (s : State) (w : Word) : (s.giveWord w).distTab = s.distTab := rfl
@[simp] theorem State.giveWord_copyLen (s : State) (w : Word) : (s.giveWord w).copyLen = s.copyLen := rfl
@[simp] theorem State.giveWord_copyDist (s : State) (w : Word) : (s.giveWord w).copyDist = s.copyDist := rfl
@[simp] theorem State.giveWord_errKind (s : State) (w : Word) : (s.giveWord w).errKind = s.errKind := rfl
@[simp] theorem State.giveWord_errCause (s : State) (w : Word) : (s.giveWord w).errCause = s.errCause := rfl
@[simp] theorem State.giveWord_inMem (s : State) (w : Word) : (s.giveWord w).inMem = s.inMem := rfl
@[simp] theorem State.giveWord_outMem (s : State) (w : Word) : (s.giveWord w).outMem = s.outMem := rfl
@[simp] theorem State.giveWord_inLen (s : State) (w : Word) : (s.giveWord w).inLen = s.inLen := rfl
@[simp] theorem State.giveWord_params (s : State) (w : Word) : (s.giveWord w).params = s.params := rfl
@[simp] theorem State.giveWord_expect (s : State) (w : Word) : (s.giveWord w).expect = s.expect := rfl
@[simp] theorem State.giveWord_hostQueue (s : State) (w : Word) : (s.giveWord w).hostQueue = s.hostQueue := rfl
@[simp] theorem State.giveWord_hostWord (s : State) (w : Word) : (s.giveWord w).hostWord = w := rfl
@[simp] theorem State.giveWord_hostByte (s : State) (w : Word) : (s.giveWord w).hostByte = s.hostByte := rfl
@[simp] theorem State.giveWord_freeDraw (s : State) (w : Word) : (s.giveWord w).freeDraw = s.freeDraw := rfl
@[simp] theorem State.giveWord_inDraw (s : State) (w : Word) : (s.giveWord w).inDraw = s.inDraw := rfl
@[simp] theorem State.giveWord_outDraw (s : State) (w : Word) : (s.giveWord w).outDraw = s.outDraw := rfl

/-! ### `State.giveByte` -/

@[simp] theorem State.giveByte_cursor (s : State) (b : Byte) : (s.giveByte b).cursor = s.cursor := rfl
@[simp] theorem State.giveByte_bfinal (s : State) (b : Byte) : (s.giveByte b).bfinal = s.bfinal := rfl
@[simp] theorem State.giveByte_btype (s : State) (b : Byte) : (s.giveByte b).btype = s.btype := rfl
@[simp] theorem State.giveByte_distPresent (s : State) (b : Byte) : (s.giveByte b).distPresent = s.distPresent := rfl
@[simp] theorem State.giveByte_phase (s : State) (b : Byte) : (s.giveByte b).phase = s.phase := rfl
@[simp] theorem State.giveByte_outLen (s : State) (b : Byte) : (s.giveByte b).outLen = s.outLen := rfl
@[simp] theorem State.giveByte_storedLen (s : State) (b : Byte) : (s.giveByte b).storedLen = s.storedLen := rfl
@[simp] theorem State.giveByte_storedNlen (s : State) (b : Byte) : (s.giveByte b).storedNlen = s.storedNlen := rfl
@[simp] theorem State.giveByte_hlit (s : State) (b : Byte) : (s.giveByte b).hlit = s.hlit := rfl
@[simp] theorem State.giveByte_hdist (s : State) (b : Byte) : (s.giveByte b).hdist = s.hdist := rfl
@[simp] theorem State.giveByte_hclen (s : State) (b : Byte) : (s.giveByte b).hclen = s.hclen := rfl
@[simp] theorem State.giveByte_clenLens (s : State) (b : Byte) : (s.giveByte b).clenLens = s.clenLens := rfl
@[simp] theorem State.giveByte_lens (s : State) (b : Byte) : (s.giveByte b).lens = s.lens := rfl
@[simp] theorem State.giveByte_metaTab (s : State) (b : Byte) : (s.giveByte b).metaTab = s.metaTab := rfl
@[simp] theorem State.giveByte_litlenTab (s : State) (b : Byte) : (s.giveByte b).litlenTab = s.litlenTab := rfl
@[simp] theorem State.giveByte_distTab (s : State) (b : Byte) : (s.giveByte b).distTab = s.distTab := rfl
@[simp] theorem State.giveByte_copyLen (s : State) (b : Byte) : (s.giveByte b).copyLen = s.copyLen := rfl
@[simp] theorem State.giveByte_copyDist (s : State) (b : Byte) : (s.giveByte b).copyDist = s.copyDist := rfl
@[simp] theorem State.giveByte_errKind (s : State) (b : Byte) : (s.giveByte b).errKind = s.errKind := rfl
@[simp] theorem State.giveByte_errCause (s : State) (b : Byte) : (s.giveByte b).errCause = s.errCause := rfl
@[simp] theorem State.giveByte_inMem (s : State) (b : Byte) : (s.giveByte b).inMem = s.inMem := rfl
@[simp] theorem State.giveByte_outMem (s : State) (b : Byte) : (s.giveByte b).outMem = s.outMem := rfl
@[simp] theorem State.giveByte_inLen (s : State) (b : Byte) : (s.giveByte b).inLen = s.inLen := rfl
@[simp] theorem State.giveByte_params (s : State) (b : Byte) : (s.giveByte b).params = s.params := rfl
@[simp] theorem State.giveByte_expect (s : State) (b : Byte) : (s.giveByte b).expect = s.expect := rfl
@[simp] theorem State.giveByte_hostQueue (s : State) (b : Byte) : (s.giveByte b).hostQueue = s.hostQueue := rfl
@[simp] theorem State.giveByte_hostWord (s : State) (b : Byte) : (s.giveByte b).hostWord = s.hostWord := rfl
@[simp] theorem State.giveByte_hostByte (s : State) (b : Byte) : (s.giveByte b).hostByte = b := rfl
@[simp] theorem State.giveByte_freeDraw (s : State) (b : Byte) : (s.giveByte b).freeDraw = s.freeDraw := rfl
@[simp] theorem State.giveByte_inDraw (s : State) (b : Byte) : (s.giveByte b).inDraw = s.inDraw := rfl
@[simp] theorem State.giveByte_outDraw (s : State) (b : Byte) : (s.giveByte b).outDraw = s.outDraw := rfl

/-! ### `State.drawFree` -/

@[simp] theorem State.drawFree_cursor (s : State) : (s.drawFree).cursor = s.cursor := rfl
@[simp] theorem State.drawFree_bfinal (s : State) : (s.drawFree).bfinal = s.bfinal := rfl
@[simp] theorem State.drawFree_btype (s : State) : (s.drawFree).btype = s.btype := rfl
@[simp] theorem State.drawFree_distPresent (s : State) : (s.drawFree).distPresent = s.distPresent := rfl
@[simp] theorem State.drawFree_phase (s : State) : (s.drawFree).phase = s.phase := rfl
@[simp] theorem State.drawFree_outLen (s : State) : (s.drawFree).outLen = s.outLen := rfl
@[simp] theorem State.drawFree_storedLen (s : State) : (s.drawFree).storedLen = s.storedLen := rfl
@[simp] theorem State.drawFree_storedNlen (s : State) : (s.drawFree).storedNlen = s.storedNlen := rfl
@[simp] theorem State.drawFree_hlit (s : State) : (s.drawFree).hlit = s.hlit := rfl
@[simp] theorem State.drawFree_hdist (s : State) : (s.drawFree).hdist = s.hdist := rfl
@[simp] theorem State.drawFree_hclen (s : State) : (s.drawFree).hclen = s.hclen := rfl
@[simp] theorem State.drawFree_clenLens (s : State) : (s.drawFree).clenLens = s.clenLens := rfl
@[simp] theorem State.drawFree_lens (s : State) : (s.drawFree).lens = s.lens := rfl
@[simp] theorem State.drawFree_metaTab (s : State) : (s.drawFree).metaTab = s.metaTab := rfl
@[simp] theorem State.drawFree_litlenTab (s : State) : (s.drawFree).litlenTab = s.litlenTab := rfl
@[simp] theorem State.drawFree_distTab (s : State) : (s.drawFree).distTab = s.distTab := rfl
@[simp] theorem State.drawFree_copyLen (s : State) : (s.drawFree).copyLen = s.copyLen := rfl
@[simp] theorem State.drawFree_copyDist (s : State) : (s.drawFree).copyDist = s.copyDist := rfl
@[simp] theorem State.drawFree_errKind (s : State) : (s.drawFree).errKind = s.errKind := rfl
@[simp] theorem State.drawFree_errCause (s : State) : (s.drawFree).errCause = s.errCause := rfl
@[simp] theorem State.drawFree_inMem (s : State) : (s.drawFree).inMem = s.inMem := rfl
@[simp] theorem State.drawFree_outMem (s : State) : (s.drawFree).outMem = s.outMem := rfl
@[simp] theorem State.drawFree_inLen (s : State) : (s.drawFree).inLen = s.inLen := rfl
@[simp] theorem State.drawFree_params (s : State) : (s.drawFree).params = s.params := rfl
@[simp] theorem State.drawFree_expect (s : State) : (s.drawFree).expect = s.expect := rfl
@[simp] theorem State.drawFree_hostQueue (s : State) : (s.drawFree).hostQueue = s.hostQueue := rfl
@[simp] theorem State.drawFree_hostWord (s : State) : (s.drawFree).hostWord = s.hostWord := rfl
@[simp] theorem State.drawFree_hostByte (s : State) : (s.drawFree).hostByte = s.hostByte := rfl
@[simp] theorem State.drawFree_freeDraw (s : State) : (s.drawFree).freeDraw = s.freeDraw + 1 := rfl
@[simp] theorem State.drawFree_inDraw (s : State) : (s.drawFree).inDraw = s.inDraw := rfl
@[simp] theorem State.drawFree_outDraw (s : State) : (s.drawFree).outDraw = s.outDraw := rfl

/-! ### `State.putLengths` -/

@[simp] theorem State.putLengths_cursor (s : State) (v : BitVec 4) (r : Nat) : (s.putLengths v r).cursor = s.cursor := rfl
@[simp] theorem State.putLengths_bfinal (s : State) (v : BitVec 4) (r : Nat) : (s.putLengths v r).bfinal = s.bfinal := rfl
@[simp] theorem State.putLengths_btype (s : State) (v : BitVec 4) (r : Nat) : (s.putLengths v r).btype = s.btype := rfl
@[simp] theorem State.putLengths_distPresent (s : State) (v : BitVec 4) (r : Nat) : (s.putLengths v r).distPresent = s.distPresent := rfl
@[simp] theorem State.putLengths_phase (s : State) (v : BitVec 4) (r : Nat) : (s.putLengths v r).phase = s.phase := rfl
@[simp] theorem State.putLengths_outLen (s : State) (v : BitVec 4) (r : Nat) : (s.putLengths v r).outLen = s.outLen := rfl
@[simp] theorem State.putLengths_storedLen (s : State) (v : BitVec 4) (r : Nat) : (s.putLengths v r).storedLen = s.storedLen := rfl
@[simp] theorem State.putLengths_storedNlen (s : State) (v : BitVec 4) (r : Nat) : (s.putLengths v r).storedNlen = s.storedNlen := rfl
@[simp] theorem State.putLengths_hlit (s : State) (v : BitVec 4) (r : Nat) : (s.putLengths v r).hlit = s.hlit := rfl
@[simp] theorem State.putLengths_hdist (s : State) (v : BitVec 4) (r : Nat) : (s.putLengths v r).hdist = s.hdist := rfl
@[simp] theorem State.putLengths_hclen (s : State) (v : BitVec 4) (r : Nat) : (s.putLengths v r).hclen = s.hclen := rfl
@[simp] theorem State.putLengths_clenLens (s : State) (v : BitVec 4) (r : Nat) : (s.putLengths v r).clenLens = s.clenLens := rfl
@[simp] theorem State.putLengths_lens (s : State) (v : BitVec 4) (r : Nat) : (s.putLengths v r).lens = s.lens ++ List.replicate r v := rfl
@[simp] theorem State.putLengths_metaTab (s : State) (v : BitVec 4) (r : Nat) : (s.putLengths v r).metaTab = s.metaTab := rfl
@[simp] theorem State.putLengths_litlenTab (s : State) (v : BitVec 4) (r : Nat) : (s.putLengths v r).litlenTab = s.litlenTab := rfl
@[simp] theorem State.putLengths_distTab (s : State) (v : BitVec 4) (r : Nat) : (s.putLengths v r).distTab = s.distTab := rfl
@[simp] theorem State.putLengths_copyLen (s : State) (v : BitVec 4) (r : Nat) : (s.putLengths v r).copyLen = s.copyLen := rfl
@[simp] theorem State.putLengths_copyDist (s : State) (v : BitVec 4) (r : Nat) : (s.putLengths v r).copyDist = s.copyDist := rfl
@[simp] theorem State.putLengths_errKind (s : State) (v : BitVec 4) (r : Nat) : (s.putLengths v r).errKind = s.errKind := rfl
@[simp] theorem State.putLengths_errCause (s : State) (v : BitVec 4) (r : Nat) : (s.putLengths v r).errCause = s.errCause := rfl
@[simp] theorem State.putLengths_inMem (s : State) (v : BitVec 4) (r : Nat) : (s.putLengths v r).inMem = s.inMem := rfl
@[simp] theorem State.putLengths_outMem (s : State) (v : BitVec 4) (r : Nat) : (s.putLengths v r).outMem = s.outMem := rfl
@[simp] theorem State.putLengths_inLen (s : State) (v : BitVec 4) (r : Nat) : (s.putLengths v r).inLen = s.inLen := rfl
@[simp] theorem State.putLengths_params (s : State) (v : BitVec 4) (r : Nat) : (s.putLengths v r).params = s.params := rfl
@[simp] theorem State.putLengths_expect (s : State) (v : BitVec 4) (r : Nat) : (s.putLengths v r).expect = s.expect := rfl
@[simp] theorem State.putLengths_hostQueue (s : State) (v : BitVec 4) (r : Nat) : (s.putLengths v r).hostQueue = s.hostQueue := rfl
@[simp] theorem State.putLengths_hostWord (s : State) (v : BitVec 4) (r : Nat) : (s.putLengths v r).hostWord = s.hostWord := rfl
@[simp] theorem State.putLengths_hostByte (s : State) (v : BitVec 4) (r : Nat) : (s.putLengths v r).hostByte = s.hostByte := rfl
@[simp] theorem State.putLengths_freeDraw (s : State) (v : BitVec 4) (r : Nat) : (s.putLengths v r).freeDraw = s.freeDraw := rfl
@[simp] theorem State.putLengths_inDraw (s : State) (v : BitVec 4) (r : Nat) : (s.putLengths v r).inDraw = s.inDraw := rfl
@[simp] theorem State.putLengths_outDraw (s : State) (v : BitVec 4) (r : Nat) : (s.putLengths v r).outDraw = s.outDraw := rfl

/-! ### `State.setExpect` -/

@[simp] theorem State.setExpect_cursor (s : State) (e : Element) : (s.setExpect e).cursor = s.cursor := rfl
@[simp] theorem State.setExpect_bfinal (s : State) (e : Element) : (s.setExpect e).bfinal = s.bfinal := rfl
@[simp] theorem State.setExpect_btype (s : State) (e : Element) : (s.setExpect e).btype = s.btype := rfl
@[simp] theorem State.setExpect_distPresent (s : State) (e : Element) : (s.setExpect e).distPresent = s.distPresent := rfl
@[simp] theorem State.setExpect_phase (s : State) (e : Element) : (s.setExpect e).phase = s.phase := rfl
@[simp] theorem State.setExpect_outLen (s : State) (e : Element) : (s.setExpect e).outLen = s.outLen := rfl
@[simp] theorem State.setExpect_storedLen (s : State) (e : Element) : (s.setExpect e).storedLen = s.storedLen := rfl
@[simp] theorem State.setExpect_storedNlen (s : State) (e : Element) : (s.setExpect e).storedNlen = s.storedNlen := rfl
@[simp] theorem State.setExpect_hlit (s : State) (e : Element) : (s.setExpect e).hlit = s.hlit := rfl
@[simp] theorem State.setExpect_hdist (s : State) (e : Element) : (s.setExpect e).hdist = s.hdist := rfl
@[simp] theorem State.setExpect_hclen (s : State) (e : Element) : (s.setExpect e).hclen = s.hclen := rfl
@[simp] theorem State.setExpect_clenLens (s : State) (e : Element) : (s.setExpect e).clenLens = s.clenLens := rfl
@[simp] theorem State.setExpect_lens (s : State) (e : Element) : (s.setExpect e).lens = s.lens := rfl
@[simp] theorem State.setExpect_metaTab (s : State) (e : Element) : (s.setExpect e).metaTab = s.metaTab := rfl
@[simp] theorem State.setExpect_litlenTab (s : State) (e : Element) : (s.setExpect e).litlenTab = s.litlenTab := rfl
@[simp] theorem State.setExpect_distTab (s : State) (e : Element) : (s.setExpect e).distTab = s.distTab := rfl
@[simp] theorem State.setExpect_copyLen (s : State) (e : Element) : (s.setExpect e).copyLen = s.copyLen := rfl
@[simp] theorem State.setExpect_copyDist (s : State) (e : Element) : (s.setExpect e).copyDist = s.copyDist := rfl
@[simp] theorem State.setExpect_errKind (s : State) (e : Element) : (s.setExpect e).errKind = s.errKind := rfl
@[simp] theorem State.setExpect_errCause (s : State) (e : Element) : (s.setExpect e).errCause = s.errCause := rfl
@[simp] theorem State.setExpect_inMem (s : State) (e : Element) : (s.setExpect e).inMem = s.inMem := rfl
@[simp] theorem State.setExpect_outMem (s : State) (e : Element) : (s.setExpect e).outMem = s.outMem := rfl
@[simp] theorem State.setExpect_inLen (s : State) (e : Element) : (s.setExpect e).inLen = s.inLen := rfl
@[simp] theorem State.setExpect_params (s : State) (e : Element) : (s.setExpect e).params = s.params := rfl
@[simp] theorem State.setExpect_expect (s : State) (e : Element) : (s.setExpect e).expect = e := rfl
@[simp] theorem State.setExpect_hostQueue (s : State) (e : Element) : (s.setExpect e).hostQueue = s.hostQueue := rfl
@[simp] theorem State.setExpect_hostWord (s : State) (e : Element) : (s.setExpect e).hostWord = s.hostWord := rfl
@[simp] theorem State.setExpect_hostByte (s : State) (e : Element) : (s.setExpect e).hostByte = s.hostByte := rfl
@[simp] theorem State.setExpect_freeDraw (s : State) (e : Element) : (s.setExpect e).freeDraw = s.freeDraw := rfl
@[simp] theorem State.setExpect_inDraw (s : State) (e : Element) : (s.setExpect e).inDraw = s.inDraw := rfl
@[simp] theorem State.setExpect_outDraw (s : State) (e : Element) : (s.setExpect e).outDraw = s.outDraw := rfl

/-! ### `State.setStoredHeader` -/

@[simp] theorem State.setStoredHeader_cursor (s : State) (l n : BitVec 16) : (s.setStoredHeader l n).cursor = s.cursor := rfl
@[simp] theorem State.setStoredHeader_bfinal (s : State) (l n : BitVec 16) : (s.setStoredHeader l n).bfinal = s.bfinal := rfl
@[simp] theorem State.setStoredHeader_btype (s : State) (l n : BitVec 16) : (s.setStoredHeader l n).btype = s.btype := rfl
@[simp] theorem State.setStoredHeader_distPresent (s : State) (l n : BitVec 16) : (s.setStoredHeader l n).distPresent = s.distPresent := rfl
@[simp] theorem State.setStoredHeader_phase (s : State) (l n : BitVec 16) : (s.setStoredHeader l n).phase = s.phase := rfl
@[simp] theorem State.setStoredHeader_outLen (s : State) (l n : BitVec 16) : (s.setStoredHeader l n).outLen = s.outLen := rfl
@[simp] theorem State.setStoredHeader_storedLen (s : State) (l n : BitVec 16) : (s.setStoredHeader l n).storedLen = l := rfl
@[simp] theorem State.setStoredHeader_storedNlen (s : State) (l n : BitVec 16) : (s.setStoredHeader l n).storedNlen = n := rfl
@[simp] theorem State.setStoredHeader_hlit (s : State) (l n : BitVec 16) : (s.setStoredHeader l n).hlit = s.hlit := rfl
@[simp] theorem State.setStoredHeader_hdist (s : State) (l n : BitVec 16) : (s.setStoredHeader l n).hdist = s.hdist := rfl
@[simp] theorem State.setStoredHeader_hclen (s : State) (l n : BitVec 16) : (s.setStoredHeader l n).hclen = s.hclen := rfl
@[simp] theorem State.setStoredHeader_clenLens (s : State) (l n : BitVec 16) : (s.setStoredHeader l n).clenLens = s.clenLens := rfl
@[simp] theorem State.setStoredHeader_lens (s : State) (l n : BitVec 16) : (s.setStoredHeader l n).lens = s.lens := rfl
@[simp] theorem State.setStoredHeader_metaTab (s : State) (l n : BitVec 16) : (s.setStoredHeader l n).metaTab = s.metaTab := rfl
@[simp] theorem State.setStoredHeader_litlenTab (s : State) (l n : BitVec 16) : (s.setStoredHeader l n).litlenTab = s.litlenTab := rfl
@[simp] theorem State.setStoredHeader_distTab (s : State) (l n : BitVec 16) : (s.setStoredHeader l n).distTab = s.distTab := rfl
@[simp] theorem State.setStoredHeader_copyLen (s : State) (l n : BitVec 16) : (s.setStoredHeader l n).copyLen = s.copyLen := rfl
@[simp] theorem State.setStoredHeader_copyDist (s : State) (l n : BitVec 16) : (s.setStoredHeader l n).copyDist = s.copyDist := rfl
@[simp] theorem State.setStoredHeader_errKind (s : State) (l n : BitVec 16) : (s.setStoredHeader l n).errKind = s.errKind := rfl
@[simp] theorem State.setStoredHeader_errCause (s : State) (l n : BitVec 16) : (s.setStoredHeader l n).errCause = s.errCause := rfl
@[simp] theorem State.setStoredHeader_inMem (s : State) (l n : BitVec 16) : (s.setStoredHeader l n).inMem = s.inMem := rfl
@[simp] theorem State.setStoredHeader_outMem (s : State) (l n : BitVec 16) : (s.setStoredHeader l n).outMem = s.outMem := rfl
@[simp] theorem State.setStoredHeader_inLen (s : State) (l n : BitVec 16) : (s.setStoredHeader l n).inLen = s.inLen := rfl
@[simp] theorem State.setStoredHeader_params (s : State) (l n : BitVec 16) : (s.setStoredHeader l n).params = s.params := rfl
@[simp] theorem State.setStoredHeader_expect (s : State) (l n : BitVec 16) : (s.setStoredHeader l n).expect = s.expect := rfl
@[simp] theorem State.setStoredHeader_hostQueue (s : State) (l n : BitVec 16) : (s.setStoredHeader l n).hostQueue = s.hostQueue := rfl
@[simp] theorem State.setStoredHeader_hostWord (s : State) (l n : BitVec 16) : (s.setStoredHeader l n).hostWord = s.hostWord := rfl
@[simp] theorem State.setStoredHeader_hostByte (s : State) (l n : BitVec 16) : (s.setStoredHeader l n).hostByte = s.hostByte := rfl
@[simp] theorem State.setStoredHeader_freeDraw (s : State) (l n : BitVec 16) : (s.setStoredHeader l n).freeDraw = s.freeDraw := rfl
@[simp] theorem State.setStoredHeader_inDraw (s : State) (l n : BitVec 16) : (s.setStoredHeader l n).inDraw = s.inDraw := rfl
@[simp] theorem State.setStoredHeader_outDraw (s : State) (l n : BitVec 16) : (s.setStoredHeader l n).outDraw = s.outDraw := rfl

/-! ### `State.setCounts` -/

@[simp] theorem State.setCounts_cursor (s : State) (h d c : Nat) : (s.setCounts h d c).cursor = s.cursor := rfl
@[simp] theorem State.setCounts_bfinal (s : State) (h d c : Nat) : (s.setCounts h d c).bfinal = s.bfinal := rfl
@[simp] theorem State.setCounts_btype (s : State) (h d c : Nat) : (s.setCounts h d c).btype = s.btype := rfl
@[simp] theorem State.setCounts_distPresent (s : State) (h d c : Nat) : (s.setCounts h d c).distPresent = s.distPresent := rfl
@[simp] theorem State.setCounts_phase (s : State) (h d c : Nat) : (s.setCounts h d c).phase = s.phase := rfl
@[simp] theorem State.setCounts_outLen (s : State) (h d c : Nat) : (s.setCounts h d c).outLen = s.outLen := rfl
@[simp] theorem State.setCounts_storedLen (s : State) (h d c : Nat) : (s.setCounts h d c).storedLen = s.storedLen := rfl
@[simp] theorem State.setCounts_storedNlen (s : State) (h d c : Nat) : (s.setCounts h d c).storedNlen = s.storedNlen := rfl
@[simp] theorem State.setCounts_hlit (s : State) (h d c : Nat) : (s.setCounts h d c).hlit = h := rfl
@[simp] theorem State.setCounts_hdist (s : State) (h d c : Nat) : (s.setCounts h d c).hdist = d := rfl
@[simp] theorem State.setCounts_hclen (s : State) (h d c : Nat) : (s.setCounts h d c).hclen = c := rfl
@[simp] theorem State.setCounts_clenLens (s : State) (h d c : Nat) : (s.setCounts h d c).clenLens = s.clenLens := rfl
@[simp] theorem State.setCounts_lens (s : State) (h d c : Nat) : (s.setCounts h d c).lens = s.lens := rfl
@[simp] theorem State.setCounts_metaTab (s : State) (h d c : Nat) : (s.setCounts h d c).metaTab = s.metaTab := rfl
@[simp] theorem State.setCounts_litlenTab (s : State) (h d c : Nat) : (s.setCounts h d c).litlenTab = s.litlenTab := rfl
@[simp] theorem State.setCounts_distTab (s : State) (h d c : Nat) : (s.setCounts h d c).distTab = s.distTab := rfl
@[simp] theorem State.setCounts_copyLen (s : State) (h d c : Nat) : (s.setCounts h d c).copyLen = s.copyLen := rfl
@[simp] theorem State.setCounts_copyDist (s : State) (h d c : Nat) : (s.setCounts h d c).copyDist = s.copyDist := rfl
@[simp] theorem State.setCounts_errKind (s : State) (h d c : Nat) : (s.setCounts h d c).errKind = s.errKind := rfl
@[simp] theorem State.setCounts_errCause (s : State) (h d c : Nat) : (s.setCounts h d c).errCause = s.errCause := rfl
@[simp] theorem State.setCounts_inMem (s : State) (h d c : Nat) : (s.setCounts h d c).inMem = s.inMem := rfl
@[simp] theorem State.setCounts_outMem (s : State) (h d c : Nat) : (s.setCounts h d c).outMem = s.outMem := rfl
@[simp] theorem State.setCounts_inLen (s : State) (h d c : Nat) : (s.setCounts h d c).inLen = s.inLen := rfl
@[simp] theorem State.setCounts_params (s : State) (h d c : Nat) : (s.setCounts h d c).params = s.params := rfl
@[simp] theorem State.setCounts_expect (s : State) (h d c : Nat) : (s.setCounts h d c).expect = s.expect := rfl
@[simp] theorem State.setCounts_hostQueue (s : State) (h d c : Nat) : (s.setCounts h d c).hostQueue = s.hostQueue := rfl
@[simp] theorem State.setCounts_hostWord (s : State) (h d c : Nat) : (s.setCounts h d c).hostWord = s.hostWord := rfl
@[simp] theorem State.setCounts_hostByte (s : State) (h d c : Nat) : (s.setCounts h d c).hostByte = s.hostByte := rfl
@[simp] theorem State.setCounts_freeDraw (s : State) (h d c : Nat) : (s.setCounts h d c).freeDraw = s.freeDraw := rfl
@[simp] theorem State.setCounts_inDraw (s : State) (h d c : Nat) : (s.setCounts h d c).inDraw = s.inDraw := rfl
@[simp] theorem State.setCounts_outDraw (s : State) (h d c : Nat) : (s.setCounts h d c).outDraw = s.outDraw := rfl

/-! ### `State.setCopyLen` -/

@[simp] theorem State.setCopyLen_cursor (s : State) (n : Nat) : (s.setCopyLen n).cursor = s.cursor := rfl
@[simp] theorem State.setCopyLen_bfinal (s : State) (n : Nat) : (s.setCopyLen n).bfinal = s.bfinal := rfl
@[simp] theorem State.setCopyLen_btype (s : State) (n : Nat) : (s.setCopyLen n).btype = s.btype := rfl
@[simp] theorem State.setCopyLen_distPresent (s : State) (n : Nat) : (s.setCopyLen n).distPresent = s.distPresent := rfl
@[simp] theorem State.setCopyLen_phase (s : State) (n : Nat) : (s.setCopyLen n).phase = s.phase := rfl
@[simp] theorem State.setCopyLen_outLen (s : State) (n : Nat) : (s.setCopyLen n).outLen = s.outLen := rfl
@[simp] theorem State.setCopyLen_storedLen (s : State) (n : Nat) : (s.setCopyLen n).storedLen = s.storedLen := rfl
@[simp] theorem State.setCopyLen_storedNlen (s : State) (n : Nat) : (s.setCopyLen n).storedNlen = s.storedNlen := rfl
@[simp] theorem State.setCopyLen_hlit (s : State) (n : Nat) : (s.setCopyLen n).hlit = s.hlit := rfl
@[simp] theorem State.setCopyLen_hdist (s : State) (n : Nat) : (s.setCopyLen n).hdist = s.hdist := rfl
@[simp] theorem State.setCopyLen_hclen (s : State) (n : Nat) : (s.setCopyLen n).hclen = s.hclen := rfl
@[simp] theorem State.setCopyLen_clenLens (s : State) (n : Nat) : (s.setCopyLen n).clenLens = s.clenLens := rfl
@[simp] theorem State.setCopyLen_lens (s : State) (n : Nat) : (s.setCopyLen n).lens = s.lens := rfl
@[simp] theorem State.setCopyLen_metaTab (s : State) (n : Nat) : (s.setCopyLen n).metaTab = s.metaTab := rfl
@[simp] theorem State.setCopyLen_litlenTab (s : State) (n : Nat) : (s.setCopyLen n).litlenTab = s.litlenTab := rfl
@[simp] theorem State.setCopyLen_distTab (s : State) (n : Nat) : (s.setCopyLen n).distTab = s.distTab := rfl
@[simp] theorem State.setCopyLen_copyLen (s : State) (n : Nat) : (s.setCopyLen n).copyLen = n := rfl
@[simp] theorem State.setCopyLen_copyDist (s : State) (n : Nat) : (s.setCopyLen n).copyDist = s.copyDist := rfl
@[simp] theorem State.setCopyLen_errKind (s : State) (n : Nat) : (s.setCopyLen n).errKind = s.errKind := rfl
@[simp] theorem State.setCopyLen_errCause (s : State) (n : Nat) : (s.setCopyLen n).errCause = s.errCause := rfl
@[simp] theorem State.setCopyLen_inMem (s : State) (n : Nat) : (s.setCopyLen n).inMem = s.inMem := rfl
@[simp] theorem State.setCopyLen_outMem (s : State) (n : Nat) : (s.setCopyLen n).outMem = s.outMem := rfl
@[simp] theorem State.setCopyLen_inLen (s : State) (n : Nat) : (s.setCopyLen n).inLen = s.inLen := rfl
@[simp] theorem State.setCopyLen_params (s : State) (n : Nat) : (s.setCopyLen n).params = s.params := rfl
@[simp] theorem State.setCopyLen_expect (s : State) (n : Nat) : (s.setCopyLen n).expect = s.expect := rfl
@[simp] theorem State.setCopyLen_hostQueue (s : State) (n : Nat) : (s.setCopyLen n).hostQueue = s.hostQueue := rfl
@[simp] theorem State.setCopyLen_hostWord (s : State) (n : Nat) : (s.setCopyLen n).hostWord = s.hostWord := rfl
@[simp] theorem State.setCopyLen_hostByte (s : State) (n : Nat) : (s.setCopyLen n).hostByte = s.hostByte := rfl
@[simp] theorem State.setCopyLen_freeDraw (s : State) (n : Nat) : (s.setCopyLen n).freeDraw = s.freeDraw := rfl
@[simp] theorem State.setCopyLen_inDraw (s : State) (n : Nat) : (s.setCopyLen n).inDraw = s.inDraw := rfl
@[simp] theorem State.setCopyLen_outDraw (s : State) (n : Nat) : (s.setCopyLen n).outDraw = s.outDraw := rfl

/-! ### `State.setCopyDist` -/

@[simp] theorem State.setCopyDist_cursor (s : State) (d : Nat) : (s.setCopyDist d).cursor = s.cursor := rfl
@[simp] theorem State.setCopyDist_bfinal (s : State) (d : Nat) : (s.setCopyDist d).bfinal = s.bfinal := rfl
@[simp] theorem State.setCopyDist_btype (s : State) (d : Nat) : (s.setCopyDist d).btype = s.btype := rfl
@[simp] theorem State.setCopyDist_distPresent (s : State) (d : Nat) : (s.setCopyDist d).distPresent = s.distPresent := rfl
@[simp] theorem State.setCopyDist_phase (s : State) (d : Nat) : (s.setCopyDist d).phase = s.phase := rfl
@[simp] theorem State.setCopyDist_outLen (s : State) (d : Nat) : (s.setCopyDist d).outLen = s.outLen := rfl
@[simp] theorem State.setCopyDist_storedLen (s : State) (d : Nat) : (s.setCopyDist d).storedLen = s.storedLen := rfl
@[simp] theorem State.setCopyDist_storedNlen (s : State) (d : Nat) : (s.setCopyDist d).storedNlen = s.storedNlen := rfl
@[simp] theorem State.setCopyDist_hlit (s : State) (d : Nat) : (s.setCopyDist d).hlit = s.hlit := rfl
@[simp] theorem State.setCopyDist_hdist (s : State) (d : Nat) : (s.setCopyDist d).hdist = s.hdist := rfl
@[simp] theorem State.setCopyDist_hclen (s : State) (d : Nat) : (s.setCopyDist d).hclen = s.hclen := rfl
@[simp] theorem State.setCopyDist_clenLens (s : State) (d : Nat) : (s.setCopyDist d).clenLens = s.clenLens := rfl
@[simp] theorem State.setCopyDist_lens (s : State) (d : Nat) : (s.setCopyDist d).lens = s.lens := rfl
@[simp] theorem State.setCopyDist_metaTab (s : State) (d : Nat) : (s.setCopyDist d).metaTab = s.metaTab := rfl
@[simp] theorem State.setCopyDist_litlenTab (s : State) (d : Nat) : (s.setCopyDist d).litlenTab = s.litlenTab := rfl
@[simp] theorem State.setCopyDist_distTab (s : State) (d : Nat) : (s.setCopyDist d).distTab = s.distTab := rfl
@[simp] theorem State.setCopyDist_copyLen (s : State) (d : Nat) : (s.setCopyDist d).copyLen = s.copyLen := rfl
@[simp] theorem State.setCopyDist_copyDist (s : State) (d : Nat) : (s.setCopyDist d).copyDist = d := rfl
@[simp] theorem State.setCopyDist_errKind (s : State) (d : Nat) : (s.setCopyDist d).errKind = s.errKind := rfl
@[simp] theorem State.setCopyDist_errCause (s : State) (d : Nat) : (s.setCopyDist d).errCause = s.errCause := rfl
@[simp] theorem State.setCopyDist_inMem (s : State) (d : Nat) : (s.setCopyDist d).inMem = s.inMem := rfl
@[simp] theorem State.setCopyDist_outMem (s : State) (d : Nat) : (s.setCopyDist d).outMem = s.outMem := rfl
@[simp] theorem State.setCopyDist_inLen (s : State) (d : Nat) : (s.setCopyDist d).inLen = s.inLen := rfl
@[simp] theorem State.setCopyDist_params (s : State) (d : Nat) : (s.setCopyDist d).params = s.params := rfl
@[simp] theorem State.setCopyDist_expect (s : State) (d : Nat) : (s.setCopyDist d).expect = s.expect := rfl
@[simp] theorem State.setCopyDist_hostQueue (s : State) (d : Nat) : (s.setCopyDist d).hostQueue = s.hostQueue := rfl
@[simp] theorem State.setCopyDist_hostWord (s : State) (d : Nat) : (s.setCopyDist d).hostWord = s.hostWord := rfl
@[simp] theorem State.setCopyDist_hostByte (s : State) (d : Nat) : (s.setCopyDist d).hostByte = s.hostByte := rfl
@[simp] theorem State.setCopyDist_freeDraw (s : State) (d : Nat) : (s.setCopyDist d).freeDraw = s.freeDraw := rfl
@[simp] theorem State.setCopyDist_inDraw (s : State) (d : Nat) : (s.setCopyDist d).inDraw = s.inDraw := rfl
@[simp] theorem State.setCopyDist_outDraw (s : State) (d : Nat) : (s.setCopyDist d).outDraw = s.outDraw := rfl

/-! ### `State.setCodeLengths` -/

@[simp] theorem State.setCodeLengths_cursor (s : State) (l : List (BitVec 3)) : (s.setCodeLengths l).cursor = s.cursor := rfl
@[simp] theorem State.setCodeLengths_bfinal (s : State) (l : List (BitVec 3)) : (s.setCodeLengths l).bfinal = s.bfinal := rfl
@[simp] theorem State.setCodeLengths_btype (s : State) (l : List (BitVec 3)) : (s.setCodeLengths l).btype = s.btype := rfl
@[simp] theorem State.setCodeLengths_distPresent (s : State) (l : List (BitVec 3)) : (s.setCodeLengths l).distPresent = s.distPresent := rfl
@[simp] theorem State.setCodeLengths_phase (s : State) (l : List (BitVec 3)) : (s.setCodeLengths l).phase = s.phase := rfl
@[simp] theorem State.setCodeLengths_outLen (s : State) (l : List (BitVec 3)) : (s.setCodeLengths l).outLen = s.outLen := rfl
@[simp] theorem State.setCodeLengths_storedLen (s : State) (l : List (BitVec 3)) : (s.setCodeLengths l).storedLen = s.storedLen := rfl
@[simp] theorem State.setCodeLengths_storedNlen (s : State) (l : List (BitVec 3)) : (s.setCodeLengths l).storedNlen = s.storedNlen := rfl
@[simp] theorem State.setCodeLengths_hlit (s : State) (l : List (BitVec 3)) : (s.setCodeLengths l).hlit = s.hlit := rfl
@[simp] theorem State.setCodeLengths_hdist (s : State) (l : List (BitVec 3)) : (s.setCodeLengths l).hdist = s.hdist := rfl
@[simp] theorem State.setCodeLengths_hclen (s : State) (l : List (BitVec 3)) : (s.setCodeLengths l).hclen = s.hclen := rfl
@[simp] theorem State.setCodeLengths_clenLens (s : State) (l : List (BitVec 3)) : (s.setCodeLengths l).clenLens = l := rfl
@[simp] theorem State.setCodeLengths_lens (s : State) (l : List (BitVec 3)) : (s.setCodeLengths l).lens = [] := rfl
@[simp] theorem State.setCodeLengths_metaTab (s : State) (l : List (BitVec 3)) : (s.setCodeLengths l).metaTab = build (l.map BitVec.toNat) := rfl
@[simp] theorem State.setCodeLengths_litlenTab (s : State) (l : List (BitVec 3)) : (s.setCodeLengths l).litlenTab = s.litlenTab := rfl
@[simp] theorem State.setCodeLengths_distTab (s : State) (l : List (BitVec 3)) : (s.setCodeLengths l).distTab = s.distTab := rfl
@[simp] theorem State.setCodeLengths_copyLen (s : State) (l : List (BitVec 3)) : (s.setCodeLengths l).copyLen = s.copyLen := rfl
@[simp] theorem State.setCodeLengths_copyDist (s : State) (l : List (BitVec 3)) : (s.setCodeLengths l).copyDist = s.copyDist := rfl
@[simp] theorem State.setCodeLengths_errKind (s : State) (l : List (BitVec 3)) : (s.setCodeLengths l).errKind = s.errKind := rfl
@[simp] theorem State.setCodeLengths_errCause (s : State) (l : List (BitVec 3)) : (s.setCodeLengths l).errCause = s.errCause := rfl
@[simp] theorem State.setCodeLengths_inMem (s : State) (l : List (BitVec 3)) : (s.setCodeLengths l).inMem = s.inMem := rfl
@[simp] theorem State.setCodeLengths_outMem (s : State) (l : List (BitVec 3)) : (s.setCodeLengths l).outMem = s.outMem := rfl
@[simp] theorem State.setCodeLengths_inLen (s : State) (l : List (BitVec 3)) : (s.setCodeLengths l).inLen = s.inLen := rfl
@[simp] theorem State.setCodeLengths_params (s : State) (l : List (BitVec 3)) : (s.setCodeLengths l).params = s.params := rfl
@[simp] theorem State.setCodeLengths_expect (s : State) (l : List (BitVec 3)) : (s.setCodeLengths l).expect = s.expect := rfl
@[simp] theorem State.setCodeLengths_hostQueue (s : State) (l : List (BitVec 3)) : (s.setCodeLengths l).hostQueue = s.hostQueue := rfl
@[simp] theorem State.setCodeLengths_hostWord (s : State) (l : List (BitVec 3)) : (s.setCodeLengths l).hostWord = s.hostWord := rfl
@[simp] theorem State.setCodeLengths_hostByte (s : State) (l : List (BitVec 3)) : (s.setCodeLengths l).hostByte = s.hostByte := rfl
@[simp] theorem State.setCodeLengths_freeDraw (s : State) (l : List (BitVec 3)) : (s.setCodeLengths l).freeDraw = s.freeDraw := rfl
@[simp] theorem State.setCodeLengths_inDraw (s : State) (l : List (BitVec 3)) : (s.setCodeLengths l).inDraw = s.inDraw := rfl
@[simp] theorem State.setCodeLengths_outDraw (s : State) (l : List (BitVec 3)) : (s.setCodeLengths l).outDraw = s.outDraw := rfl

/-! ### `State.assertReset` -/

@[simp] theorem State.assertReset_cursor (s : State) : (s.assertReset).cursor = Cursor.start := rfl
@[simp] theorem State.assertReset_bfinal (s : State) : (s.assertReset).bfinal = false := rfl
@[simp] theorem State.assertReset_btype (s : State) : (s.assertReset).btype = 0 := rfl
@[simp] theorem State.assertReset_distPresent (s : State) : (s.assertReset).distPresent = false := rfl
@[simp] theorem State.assertReset_phase (s : State) : (s.assertReset).phase = .idle := rfl
@[simp] theorem State.assertReset_outLen (s : State) : (s.assertReset).outLen = 0 := rfl
@[simp] theorem State.assertReset_storedLen (s : State) : (s.assertReset).storedLen = 0 := rfl
@[simp] theorem State.assertReset_storedNlen (s : State) : (s.assertReset).storedNlen = 0 := rfl
@[simp] theorem State.assertReset_hlit (s : State) : (s.assertReset).hlit = 0 := rfl
@[simp] theorem State.assertReset_hdist (s : State) : (s.assertReset).hdist = 0 := rfl
@[simp] theorem State.assertReset_hclen (s : State) : (s.assertReset).hclen = 0 := rfl
@[simp] theorem State.assertReset_clenLens (s : State) : (s.assertReset).clenLens = List.replicate 19 0 := rfl
@[simp] theorem State.assertReset_lens (s : State) : (s.assertReset).lens = [] := rfl
@[simp] theorem State.assertReset_metaTab (s : State) : (s.assertReset).metaTab = [] := rfl
@[simp] theorem State.assertReset_litlenTab (s : State) : (s.assertReset).litlenTab = [] := rfl
@[simp] theorem State.assertReset_distTab (s : State) : (s.assertReset).distTab = [] := rfl
@[simp] theorem State.assertReset_copyLen (s : State) : (s.assertReset).copyLen = 0 := rfl
@[simp] theorem State.assertReset_copyDist (s : State) : (s.assertReset).copyDist = 0 := rfl
@[simp] theorem State.assertReset_errKind (s : State) : (s.assertReset).errKind = 0 := rfl
@[simp] theorem State.assertReset_errCause (s : State) : (s.assertReset).errCause = 0 := rfl
@[simp] theorem State.assertReset_inMem (s : State) : (s.assertReset).inMem = [] := rfl
@[simp] theorem State.assertReset_outMem (s : State) : (s.assertReset).outMem = [] := rfl
@[simp] theorem State.assertReset_inLen (s : State) : (s.assertReset).inLen = 0 := rfl
@[simp] theorem State.assertReset_params (s : State) : (s.assertReset).params = s.params := rfl
@[simp] theorem State.assertReset_expect (s : State) : (s.assertReset).expect = .storedHeader := rfl
@[simp] theorem State.assertReset_hostQueue (s : State) : (s.assertReset).hostQueue = s.hostQueue := rfl
@[simp] theorem State.assertReset_hostWord (s : State) : (s.assertReset).hostWord = s.hostWord := rfl
@[simp] theorem State.assertReset_hostByte (s : State) : (s.assertReset).hostByte = s.hostByte := rfl
@[simp] theorem State.assertReset_freeDraw (s : State) : (s.assertReset).freeDraw = s.freeDraw + 2 := rfl
@[simp] theorem State.assertReset_inDraw (s : State) : (s.assertReset).inDraw = s.freeDraw := rfl
@[simp] theorem State.assertReset_outDraw (s : State) : (s.assertReset).outDraw = s.freeDraw + 1 := rfl

/-! ### `State.buildTables` and `State.continueLengths` -/

@[simp] theorem State.buildTables_cursor (s : State) : s.buildTables.cursor = s.cursor := by
  unfold State.buildTables; split <;> rfl
@[simp] theorem State.buildTables_bfinal (s : State) : s.buildTables.bfinal = s.bfinal := by
  unfold State.buildTables; split <;> rfl
@[simp] theorem State.buildTables_btype (s : State) : s.buildTables.btype = s.btype := by
  unfold State.buildTables; split <;> rfl
@[simp] theorem State.buildTables_phase (s : State) : s.buildTables.phase = s.phase := by
  unfold State.buildTables; split <;> rfl
@[simp] theorem State.buildTables_outLen (s : State) : s.buildTables.outLen = s.outLen := by
  unfold State.buildTables; split <;> rfl
@[simp] theorem State.buildTables_storedLen (s : State) : s.buildTables.storedLen = s.storedLen := by
  unfold State.buildTables; split <;> rfl
@[simp] theorem State.buildTables_storedNlen (s : State) : s.buildTables.storedNlen = s.storedNlen := by
  unfold State.buildTables; split <;> rfl
@[simp] theorem State.buildTables_hlit (s : State) : s.buildTables.hlit = s.hlit := by
  unfold State.buildTables; split <;> rfl
@[simp] theorem State.buildTables_hdist (s : State) : s.buildTables.hdist = s.hdist := by
  unfold State.buildTables; split <;> rfl
@[simp] theorem State.buildTables_hclen (s : State) : s.buildTables.hclen = s.hclen := by
  unfold State.buildTables; split <;> rfl
@[simp] theorem State.buildTables_clenLens (s : State) : s.buildTables.clenLens = s.clenLens := by
  unfold State.buildTables; split <;> rfl
@[simp] theorem State.buildTables_lens (s : State) : s.buildTables.lens = s.lens := by
  unfold State.buildTables; split <;> rfl
@[simp] theorem State.buildTables_metaTab (s : State) : s.buildTables.metaTab = s.metaTab := by
  unfold State.buildTables; split <;> rfl
@[simp] theorem State.buildTables_copyLen (s : State) : s.buildTables.copyLen = s.copyLen := by
  unfold State.buildTables; split <;> rfl
@[simp] theorem State.buildTables_copyDist (s : State) : s.buildTables.copyDist = s.copyDist := by
  unfold State.buildTables; split <;> rfl
@[simp] theorem State.buildTables_errKind (s : State) : s.buildTables.errKind = s.errKind := by
  unfold State.buildTables; split <;> rfl
@[simp] theorem State.buildTables_errCause (s : State) : s.buildTables.errCause = s.errCause := by
  unfold State.buildTables; split <;> rfl
@[simp] theorem State.buildTables_inMem (s : State) : s.buildTables.inMem = s.inMem := by
  unfold State.buildTables; split <;> rfl
@[simp] theorem State.buildTables_outMem (s : State) : s.buildTables.outMem = s.outMem := by
  unfold State.buildTables; split <;> rfl
@[simp] theorem State.buildTables_inLen (s : State) : s.buildTables.inLen = s.inLen := by
  unfold State.buildTables; split <;> rfl
@[simp] theorem State.buildTables_params (s : State) : s.buildTables.params = s.params := by
  unfold State.buildTables; split <;> rfl
@[simp] theorem State.buildTables_hostQueue (s : State) : s.buildTables.hostQueue = s.hostQueue := by
  unfold State.buildTables; split <;> rfl
@[simp] theorem State.buildTables_hostWord (s : State) : s.buildTables.hostWord = s.hostWord := by
  unfold State.buildTables; split <;> rfl
@[simp] theorem State.buildTables_hostByte (s : State) : s.buildTables.hostByte = s.hostByte := by
  unfold State.buildTables; split <;> rfl
@[simp] theorem State.buildTables_freeDraw (s : State) : s.buildTables.freeDraw = s.freeDraw := by
  unfold State.buildTables; split <;> rfl
@[simp] theorem State.buildTables_inDraw (s : State) : s.buildTables.inDraw = s.inDraw := by
  unfold State.buildTables; split <;> rfl
@[simp] theorem State.buildTables_outDraw (s : State) : s.buildTables.outDraw = s.outDraw := by
  unfold State.buildTables; split <;> rfl
@[simp] theorem State.buildTables_litlenTab (s : State) : s.buildTables.litlenTab = build s.litlenLens := by
  unfold State.buildTables; split <;> rfl
@[simp] theorem State.buildTables_expect (s : State) : s.buildTables.expect = .litlen := by
  unfold State.buildTables; split <;> rfl

@[simp] theorem State.continueLengths_cursor (s : State) : s.continueLengths.cursor = s.cursor := by
  unfold State.continueLengths; split <;> simp
@[simp] theorem State.continueLengths_bfinal (s : State) : s.continueLengths.bfinal = s.bfinal := by
  unfold State.continueLengths; split <;> simp
@[simp] theorem State.continueLengths_btype (s : State) : s.continueLengths.btype = s.btype := by
  unfold State.continueLengths; split <;> simp
@[simp] theorem State.continueLengths_phase (s : State) : s.continueLengths.phase = s.phase := by
  unfold State.continueLengths; split <;> simp
@[simp] theorem State.continueLengths_outLen (s : State) : s.continueLengths.outLen = s.outLen := by
  unfold State.continueLengths; split <;> simp
@[simp] theorem State.continueLengths_storedLen (s : State) : s.continueLengths.storedLen = s.storedLen := by
  unfold State.continueLengths; split <;> simp
@[simp] theorem State.continueLengths_storedNlen (s : State) : s.continueLengths.storedNlen = s.storedNlen := by
  unfold State.continueLengths; split <;> simp
@[simp] theorem State.continueLengths_hlit (s : State) : s.continueLengths.hlit = s.hlit := by
  unfold State.continueLengths; split <;> simp
@[simp] theorem State.continueLengths_hdist (s : State) : s.continueLengths.hdist = s.hdist := by
  unfold State.continueLengths; split <;> simp
@[simp] theorem State.continueLengths_hclen (s : State) : s.continueLengths.hclen = s.hclen := by
  unfold State.continueLengths; split <;> simp
@[simp] theorem State.continueLengths_clenLens (s : State) : s.continueLengths.clenLens = s.clenLens := by
  unfold State.continueLengths; split <;> simp
@[simp] theorem State.continueLengths_lens (s : State) : s.continueLengths.lens = s.lens := by
  unfold State.continueLengths; split <;> simp
@[simp] theorem State.continueLengths_metaTab (s : State) : s.continueLengths.metaTab = s.metaTab := by
  unfold State.continueLengths; split <;> simp
@[simp] theorem State.continueLengths_copyLen (s : State) : s.continueLengths.copyLen = s.copyLen := by
  unfold State.continueLengths; split <;> simp
@[simp] theorem State.continueLengths_copyDist (s : State) : s.continueLengths.copyDist = s.copyDist := by
  unfold State.continueLengths; split <;> simp
@[simp] theorem State.continueLengths_errKind (s : State) : s.continueLengths.errKind = s.errKind := by
  unfold State.continueLengths; split <;> simp
@[simp] theorem State.continueLengths_errCause (s : State) : s.continueLengths.errCause = s.errCause := by
  unfold State.continueLengths; split <;> simp
@[simp] theorem State.continueLengths_inMem (s : State) : s.continueLengths.inMem = s.inMem := by
  unfold State.continueLengths; split <;> simp
@[simp] theorem State.continueLengths_outMem (s : State) : s.continueLengths.outMem = s.outMem := by
  unfold State.continueLengths; split <;> simp
@[simp] theorem State.continueLengths_inLen (s : State) : s.continueLengths.inLen = s.inLen := by
  unfold State.continueLengths; split <;> simp
@[simp] theorem State.continueLengths_params (s : State) : s.continueLengths.params = s.params := by
  unfold State.continueLengths; split <;> simp
@[simp] theorem State.continueLengths_hostQueue (s : State) : s.continueLengths.hostQueue = s.hostQueue := by
  unfold State.continueLengths; split <;> simp
@[simp] theorem State.continueLengths_hostWord (s : State) : s.continueLengths.hostWord = s.hostWord := by
  unfold State.continueLengths; split <;> simp
@[simp] theorem State.continueLengths_hostByte (s : State) : s.continueLengths.hostByte = s.hostByte := by
  unfold State.continueLengths; split <;> simp
@[simp] theorem State.continueLengths_freeDraw (s : State) : s.continueLengths.freeDraw = s.freeDraw := by
  unfold State.continueLengths; split <;> simp
@[simp] theorem State.continueLengths_inDraw (s : State) : s.continueLengths.inDraw = s.inDraw := by
  unfold State.continueLengths; split <;> simp
@[simp] theorem State.continueLengths_outDraw (s : State) : s.continueLengths.outDraw = s.outDraw := by
  unfold State.continueLengths; split <;> simp

theorem State.continueLengths_of_lt (s : State) (h : s.lens.length < s.hlit + s.hdist) :
    s.continueLengths = s.setExpect .codeLength := by
  simp [State.continueLengths, State.lensCount, h]

theorem State.continueLengths_of_ge (s : State) (h : s.hlit + s.hdist ≤ s.lens.length) :
    s.continueLengths = s.buildTables := by
  simp [State.continueLengths, State.lensCount, Nat.not_lt.mpr h]

/-! ### What the updates leave of the derived words -/

@[simp] theorem State.setCursor_inByte (s : State) (c : Cursor) (a : Nat) : (s.setCursor c).inByte a = s.inByte a := rfl
@[simp] theorem State.setCursor_busy (s : State) (c : Cursor) : (s.setCursor c).busy = s.busy := rfl
@[simp] theorem State.setCursor_cursor_self (s : State) : s.setCursor s.cursor = s := rfl
@[simp] theorem State.setCursor_setCursor (s : State) (c d : Cursor) : (s.setCursor c).setCursor d = s.setCursor d := rfl

end Sys2Proof.Machine
end

