-- ==== Sys2Proof/Laws/Memory.lean ====
section
/-! SUPPORT. The laws of byte memories: read after write, and every operation keeps the canonical form. -/

namespace Sys2Proof.Machine

@[simp] theorem Memory.read_nil (a : Nat) : Memory.read [] a = none := rfl

theorem Memory.read_cons (c : Host.Cell) (m : Memory) (a : Nat) :
    Memory.read (c :: m) a = if c.1 = a then some c.2 else Memory.read m a := rfl

@[simp] theorem Memory.read_write_same (m : Memory) (a : Nat) (b : Byte) : (Memory.write m a b).read a = some b := by
  induction m with
  | nil => simp [Memory.write, Memory.read_cons]
  | cons c m ih =>
    unfold Memory.write
    split
    · simp [Memory.read_cons]
    · split
      · simp [Memory.read_cons]
      · rename_i h1 h2
        simp [Memory.read_cons, Ne.symm h2, ih]

theorem Memory.read_write_other (m : Memory) {a x : Nat} (b : Byte) (h : x ≠ a) :
    (Memory.write m a b).read x = m.read x := by
  induction m with
  | nil => simp [Memory.write, Memory.read_cons, Ne.symm h]
  | cons c m ih =>
    unfold Memory.write
    split
    · simp [Memory.read_cons, Ne.symm h]
    · split
      · rename_i h1 h2
        simp [Memory.read_cons, ← h2, Ne.symm h]
      · simp [Memory.read_cons, ih]

theorem Memory.read_write (m : Memory) (a x : Nat) (b : Byte) :
    (Memory.write m a b).read x = if x = a then some b else m.read x := by
  by_cases h : x = a
  · subst h; simp
  · simp [h, Memory.read_write_other m b h]

theorem Memory.mem_write {m : Memory} {a : Nat} {b : Byte} {c : Host.Cell} (h : c ∈ Memory.write m a b) :
    c = (a, b) ∨ c ∈ m := by
  induction m with
  | nil => simpa [Memory.write] using h
  | cons d m ih =>
    unfold Memory.write at h
    split at h
    · simpa using h
    · split at h
      · simp only [List.mem_cons] at h ⊢; tauto
      · simp only [List.mem_cons] at h ⊢
        rcases h with h | h
        · exact .inr (.inl h)
        · rcases ih h with h | h <;> tauto

@[simp] theorem Memory.wf_nil : Memory.wf [] = true := by decide

theorem Memory.wf_cons (c : Host.Cell) (m : Memory) :
    Memory.wf (c :: m) = true ↔ (∀ d ∈ m, c.1 < d.1) ∧ m.wf = true := by
  simp [Memory.wf, List.pairwise_cons]

/-- Every write keeps the canonical form. -/
theorem Memory.write_wf {m : Memory} (a : Nat) (b : Byte) (h : m.wf = true) : (Memory.write m a b).wf = true := by
  induction m with
  | nil => simp [Memory.write, Memory.wf]
  | cons c m ih =>
    have ⟨hc, hm⟩ := (Memory.wf_cons c m).1 h
    unfold Memory.write
    split
    · rename_i hlt
      refine (Memory.wf_cons _ _).2 ⟨fun d hd => ?_, h⟩
      rcases List.mem_cons.1 hd with rfl | hd
      · exact hlt
      · exact Nat.lt_trans hlt (hc d hd)
    · split
      · rename_i h1 h2
        refine (Memory.wf_cons _ _).2 ⟨fun d hd => ?_, hm⟩
        simpa [h2] using hc d hd
      · rename_i h1 h2
        refine (Memory.wf_cons _ _).2 ⟨fun d hd => ?_, ih hm⟩
        rcases Memory.mem_write hd with rfl | hd
        · show c.1 < a; omega
        · exact hc d hd

/-- Equal memories are equal data: two canonical memories that read alike at every address are one list. -/
theorem Memory.ext_of_wf {m n : Memory} (hm : m.wf = true) (hn : n.wf = true) (h : ∀ a, m.read a = n.read a) : m = n := by
  have none_below {k : Memory} {a : Nat} (hk : ∀ d ∈ k, a < d.1) : k.read a = none := by
    induction k with
    | nil => rfl
    | cons d k ih =>
      have := hk d (by simp)
      simp [Memory.read_cons, Nat.ne_of_gt this, ih fun e he => hk e (List.mem_cons_of_mem _ he)]
  induction m generalizing n with
  | nil =>
    cases n with
    | nil => rfl
    | cons d n => simpa [Memory.read_cons] using h d.1
  | cons c m ih =>
    cases n with
    | nil => simpa [Memory.read_cons] using h c.1
    | cons d n =>
      have ⟨hc, hm'⟩ := (Memory.wf_cons c m).1 hm
      have ⟨hd, hn'⟩ := (Memory.wf_cons d n).1 hn
      have heq : c.1 = d.1 := by
        rcases Nat.lt_trichotomy c.1 d.1 with hlt | heq | hlt
        · have := h c.1
          rw [none_below (k := d :: n) (by
            intro e he
            rcases List.mem_cons.1 he with rfl | he
            · exact hlt
            · exact Nat.lt_trans hlt (hd e he))] at this
          simp [Memory.read_cons] at this
        · exact heq
        · have := h d.1
          rw [none_below (k := c :: m) (by
            intro e he
            rcases List.mem_cons.1 he with rfl | he
            · exact hlt
            · exact Nat.lt_trans hlt (hc e he))] at this
          simp [Memory.read_cons] at this
      have hval : c.2 = d.2 := by simpa [Memory.read_cons, heq] using h c.1
      have htail : m = n := ih hm' hn' fun a => by
        by_cases ha : a = c.1
        · subst ha
          rw [none_below hc, none_below (heq ▸ hd)]
        · simpa [Memory.read_cons, Ne.symm ha, heq ▸ Ne.symm ha] using h a
      rw [htail, show c = d from Prod.ext heq hval]

theorem Memory.write_within {m : Memory} {size : Word} {a : Nat} (b : Byte) (h : m.within size) (ha : a < size.toNat) :
    (Memory.write m a b).within size := by
  refine ⟨Memory.write_wf a b h.1, fun c hc => ?_⟩
  rcases Memory.mem_write hc with rfl | hc
  · exact ha
  · exact h.2 c hc

@[simp] theorem Memory.within_nil (size : Word) : Memory.within [] size := ⟨rfl, by simp⟩

theorem Memory.writeBytes_wf {m : Memory} (a : Nat) (bs : List Byte) (h : m.wf = true) :
    (Memory.writeBytes m a bs).wf = true := by
  induction bs generalizing m a with
  | nil => exact h
  | cons b bs ih => exact ih (a + 1) (Memory.write_wf a b h)

theorem Memory.read_writeBytes (m : Memory) (a x : Nat) (bs : List Byte) :
    (Memory.writeBytes m a bs).read x = if a ≤ x ∧ x < a + bs.length then bs[x - a]? else m.read x := by
  induction bs generalizing m a with
  | nil => simp [Memory.writeBytes]
  | cons b bs ih =>
    rw [Memory.writeBytes, ih, Memory.read_write]
    rcases Nat.lt_trichotomy x a with hx | rfl | hx
    · simp [Nat.not_le.mpr hx, show ¬ a + 1 ≤ x by omega, Nat.ne_of_lt hx]
    · simp
    · have : x - a = x - (a + 1) + 1 := by omega
      simp [show a + 1 ≤ x by omega, Nat.le_of_lt hx, Nat.ne_of_gt hx, this, Nat.add_comm 1, Nat.add_assoc]

/-- Reset leaves both memories in canonical form. -/
theorem State.reset_memories_wf : State.reset.inMem.wf = true ∧ State.reset.outMem.wf = true := by decide

end Sys2Proof.Machine
end

