-- ==== Sys2Proof/Laws/Cursor.lean ====
section
/-! SUPPORT. The bit cursor as a position in the stream of bits: what each operation of Machine/Cursor.lean can do. -/

namespace Sys2Proof.Machine

theorem cursorAt_pos {k : Nat} (h : k < 8 * 2 ^ 32) : (cursorAt k).pos.toNat = k / 8 := by
  simp only [cursorAt, BitVec.toNat_ofNat]; omega

theorem cursorAt_left (k : Nat) : (cursorAt k).left.toNat = 8 - k % 8 := by
  simp only [cursorAt, BitVec.toNat_ofNat]; omega

theorem consumed_cursorAt {k : Nat} (h : k < 8 * 2 ^ 32) : (cursorAt k).consumed = k := by
  simp only [Cursor.consumed, cursorAt_pos h, cursorAt_left]; omega

theorem Cursor.consumed_lt (c : Cursor) (h : 1 ≤ c.left.toNat) : c.consumed < 8 * 2 ^ 32 := by
  have := c.pos.isLt
  simp only [Cursor.consumed]; omega

theorem cursorAt_consumed (c : Cursor) (h1 : 1 ≤ c.left.toNat) (h8 : c.left.toNat ≤ 8) : cursorAt c.consumed = c := by
  have hp := cursorAt_pos (c.consumed_lt h1)
  have hl := cursorAt_left c.consumed
  obtain ⟨p, l⟩ := c
  simp only [Cursor.consumed] at *
  have e1 : (cursorAt (8 * p.toNat + (8 - l.toNat))).pos = p := BitVec.eq_of_toNat_eq (by omega)
  have e2 : (cursorAt (8 * p.toNat + (8 - l.toNat))).left = l := BitVec.eq_of_toNat_eq (by omega)
  cases hc : cursorAt (8 * p.toNat + (8 - l.toNat))
  simp_all

theorem cursorAt_zero : cursorAt 0 = Cursor.start := by decide

@[simp] theorem Cursor.start_consumed : Cursor.start.consumed = 0 := by decide

theorem advance1_cursorAt (k : Nat) : (cursorAt k).advance1 = cursorAt (k + 1) := by
  have hl : ∀ r : Nat, r < 8 → (BitVec.ofNat 4 (8 - r) - 1 = (0 : BitVec 4) ↔ r = 7) := by decide
  have hl' : ∀ r : Nat, r < 7 → BitVec.ofNat 4 (8 - r) - 1 = BitVec.ofNat 4 (8 - (r + 1)) := by decide
  unfold Cursor.advance1 cursorAt
  by_cases h7 : k % 8 = 7
  · have h1 : (k + 1) / 8 = k / 8 + 1 := by omega
    have h2 : (k + 1) % 8 = 0 := by omega
    simp [h7, h1, h2, BitVec.ofNat_add]
  · have h1 : (k + 1) / 8 = k / 8 := by omega
    have h2 : (k + 1) % 8 = k % 8 + 1 := by omega
    have := (hl (k % 8) (by omega)).not.2 h7
    rw [h1, h2, ← hl' (k % 8) (by omega), if_neg this]

theorem State.bitAt_cursorAt (s : State) {k : Nat} (h : k < 8 * 2 ^ 32) : s.bitAt (cursorAt k) = s.streamBit k := by
  unfold State.bitAt State.streamBit
  rw [cursorAt_pos h, cursorAt_left, show 8 - (8 - k % 8) = k % 8 by omega]

@[simp] theorem State.fieldAt_zero (s : State) (k : Nat) : s.fieldAt k 0 = 0 := rfl

theorem State.fieldAt_succ (s : State) (k n : Nat) :
    s.fieldAt k (n + 1) = (s.streamBit k).toNat + 2 * s.fieldAt (k + 1) n := by
  simp only [State.fieldAt, List.range_succ_eq_map, List.map_cons, List.map_map, bitsValue, Nat.add_zero]
  congr 3
  apply List.map_congr_left
  intro i _
  simp only [Function.comp, Nat.succ_eq_add_one]
  rw [show k + (i + 1) = k + 1 + i by omega]

theorem State.takeBits_cursorAt (s : State) (n : Nat) {k : Nat} (h : k + n < 8 * 2 ^ 32) :
    s.takeBits n (cursorAt k) = (s.fieldAt k n, cursorAt (k + n)) := by
  induction n generalizing k with
  | zero => rfl
  | succ n ih =>
    rw [State.takeBits, advance1_cursorAt, ih (by omega), State.bitAt_cursorAt s (by omega)]
    simp only [State.fieldAt_succ]
    rw [show k + 1 + n = k + (n + 1) by omega]

theorem bitsValue_lt (bs : List Bool) : bitsValue bs < 2 ^ bs.length := by
  induction bs with
  | nil => simp [bitsValue]
  | cons b bs ih =>
    have := Bool.toNat_le b
    simp only [bitsValue, List.length_cons, Nat.pow_succ]; omega

theorem State.fieldAt_lt (s : State) (k n : Nat) : s.fieldAt k n < 2 ^ n := by
  simpa [State.fieldAt] using bitsValue_lt ((List.range n).map fun i => s.streamBit (k + i))

/-- A legal cursor is at its own position, and what is available is what is left of the stream. -/
theorem State.CursorLegal.cursor_eq {s : State} (h : s.CursorLegal) : s.cursor = cursorAt s.cursor.consumed :=
  (cursorAt_consumed s.cursor h.1 h.2.1).symm

theorem State.CursorLegal.consumed_le {s : State} (h : s.CursorLegal) : s.cursor.consumed ≤ 8 * s.inLen.toNat := by
  obtain ⟨h1, h8, hp, he⟩ := h
  unfold Cursor.consumed
  by_cases hq : s.cursor.pos = s.inLen
  · have := he hq
    simp [this, hq]
  · have : s.cursor.pos.toNat ≠ s.inLen.toNat := fun e => hq (BitVec.eq_of_toNat_eq e)
    omega

theorem State.CursorLegal.avail_eq {s : State} (h : s.CursorLegal) :
    s.avail = 8 * s.inLen.toNat - s.cursor.consumed := by
  have := h.consumed_le
  obtain ⟨h1, h8, hp, he⟩ := h
  unfold State.avail Cursor.consumed at *
  omega

/-- A position within the stream is a legal cursor. -/
theorem State.CursorLegal.at {s : State} {k : Nat} (h : k ≤ 8 * s.inLen.toNat) (hc : s.cursor = cursorAt k) :
    s.CursorLegal := by
  have hlt := s.inLen.isLt
  have hp := cursorAt_pos (k := k) (by omega)
  have hl := cursorAt_left k
  unfold State.CursorLegal
  rw [hc]
  refine ⟨by omega, by omega, by omega, fun e => ?_⟩
  have : (cursorAt k).pos.toNat = s.inLen.toNat := by rw [e]
  exact BitVec.eq_of_toNat_eq (by rw [hl]; show 8 - k % 8 = 8; omega)

/-- Everything `read_bits` can do at a legal cursor. -/
theorem readBits_legal {s : State} (h : s.CursorLegal) (n : Nat) (hn : n ≤ 32) :
    readBits n s =
      if s.cursor.consumed + n ≤ 8 * s.inLen.toNat then
        .ok (s.fieldAt s.cursor.consumed n, cursorAt (s.cursor.consumed + n))
      else .error .endOfInput := by
  have hle := h.consumed_le
  have hlt := s.inLen.isLt
  unfold readBits
  rw [if_neg (by unfold readMax; omega), h.avail_eq]
  by_cases hk : s.cursor.consumed + n ≤ 8 * s.inLen.toNat
  · rw [if_neg (by omega), if_pos hk]
    conv => lhs; rw [h.cursor_eq]
    rw [State.takeBits_cursorAt s n (by omega)]
  · rw [if_pos (by omega), if_neg hk]

/-- A read that answers: it consumed `n` bits that were there. -/
theorem readBits_ok {s : State} (h : s.CursorLegal) {n v : Nat} {c : Cursor} (hr : readBits n s = .ok (v, c)) :
    s.cursor.consumed + n ≤ 8 * s.inLen.toNat ∧ v = s.fieldAt s.cursor.consumed n ∧
      c = cursorAt (s.cursor.consumed + n) := by
  have hn : n ≤ 32 := by
    unfold readBits readMax at hr
    split at hr
    · cases hr
    · omega
  rw [readBits_legal h n hn] at hr
  split at hr
  · rename_i hk
    simp only [Except.ok.injEq, Prod.mk.injEq] at hr
    exact ⟨hk, hr.1.symm, hr.2.symm⟩
  · cases hr

/-- A read that fails, with a width the core uses, fails for want of input. -/
theorem readBits_error {s : State} {n : Nat} {e : Cause} (hn : n ≤ 32) (hr : readBits n s = .error e) :
    e = .endOfInput := by
  unfold readBits readMax at hr
  rw [if_neg (by omega)] at hr
  split at hr
  · exact (Except.error.inj hr).symm
  · cases hr

/-- `peek_bits` is the value of `read_bits`. -/
theorem peekBits_eq (n : Nat) (s : State) : peekBits n s = (readBits n s).map Prod.fst := by
  unfold peekBits
  cases readBits n s <;> rfl

/-- `skip_bits` is the cursor of `read_bits`. -/
theorem skipBits_eq (n : Nat) (s : State) : skipBits n s = (readBits n s).map Prod.snd := by
  unfold skipBits
  cases readBits n s <;> rfl

/-- A read that answers leaves a legal cursor. -/
theorem State.setCursor_legal {s : State} {k : Nat} (h : k ≤ 8 * s.inLen.toNat) :
    (s.setCursor (cursorAt k)).CursorLegal :=
  State.CursorLegal.at (s := s.setCursor (cursorAt k)) h rfl

/-- `read_bytes` that answers: the cursor was aligned, the bytes were there, and they are the next bytes of IN. -/
theorem readBytes_ok {s : State} {n : Nat} {bs : List Byte} {c : Cursor} (hr : readBytes n s = .ok (bs, c)) :
    s.cursor.left = 8 ∧ n ≤ s.inLen.toNat - s.cursor.pos.toNat ∧
      bs = (List.range n).map (fun k => s.inByte (s.cursor.pos.toNat + k)) ∧
      c = { s.cursor with pos := s.cursor.pos + BitVec.ofNat 32 n } := by
  unfold readBytes at hr
  split at hr
  · cases hr
  · split at hr
    · cases hr
    · rename_i h1 h2
      simp only [Except.ok.injEq, Prod.mk.injEq] at hr
      exact ⟨by simpa using h1, by omega, hr.1.symm, hr.2.symm⟩

/-- Moving past `n` whole bytes is moving past `8 × n` bits. -/
theorem Cursor.skipBytes_eq {c : Cursor} {n : Nat} (h8 : c.left = 8) (hn : c.pos.toNat + n < 2 ^ 32) :
    ({ c with pos := c.pos + BitVec.ofNat 32 n } : Cursor) = cursorAt (c.consumed + 8 * n) := by
  obtain ⟨p, l⟩ := c
  simp only at h8 hn
  subst h8
  have e : ({ pos := p, left := 8 } : Cursor).consumed = 8 * p.toNat := by simp [Cursor.consumed]
  rw [e]
  simp only [cursorAt, Cursor.mk.injEq]
  refine ⟨BitVec.eq_of_toNat_eq ?_, ?_⟩
  · simp only [BitVec.toNat_add, BitVec.toNat_ofNat]
    omega
  · rw [show (8 * p.toNat + 8 * n) % 8 = 0 by omega]
    rfl

/-- `skip_to_byte_boundary` goes to the next multiple of 8. -/
theorem Cursor.align_eq {c : Cursor} (h1 : 1 ≤ c.left.toNat) (h8 : c.left.toNat ≤ 8) (hp : c.pos.toNat + 1 < 2 ^ 32 ∨ c.left = 8) :
    c.align = cursorAt (8 * ((c.consumed + 7) / 8)) := by
  obtain ⟨p, l⟩ := c
  unfold Cursor.align
  by_cases hl : l = 8
  · subst hl
    have e : ({ pos := p, left := 8 } : Cursor).consumed = 8 * p.toNat := by simp [Cursor.consumed]
    simp only [if_true, e, show 8 * ((8 * p.toNat + 7) / 8) = 8 * p.toNat by omega]
    rw [← e]
    exact (cursorAt_consumed _ (show 1 ≤ (8 : BitVec 4).toNat by decide) (show (8 : BitVec 4).toNat ≤ 8 by decide)).symm
  · have hn : l.toNat ≠ 8 := fun e => hl (BitVec.eq_of_toNat_eq e)
    simp only at h1 h8 hp
    have hp' : p.toNat + 1 < 2 ^ 32 := by tauto
    simp only [hl, if_false, Cursor.consumed, cursorAt, Cursor.mk.injEq]
    refine ⟨BitVec.eq_of_toNat_eq ?_, ?_⟩
    · have h1' : (1 : BitVec 32).toNat = 1 := rfl
      simp only [BitVec.toNat_add, BitVec.toNat_ofNat, h1']
      omega
    · rw [show 8 * ((8 * p.toNat + (8 - l.toNat) + 7) / 8) % 8 = 0 by omega]
      rfl

end Sys2Proof.Machine
end

