-- ==== Sys2Proof/Laws/Huffman.lean ====
section
/-! SUPPORT. What the table builder and the symbol decoder can do. -/

namespace Sys2Proof.Machine

/-- An entry of step 3 stands for a symbol of its own length, and the length is not 0. -/
theorem mem_assign {next : List Nat} {sym : Nat} {lens : List Nat} {e : Entry} (h : e ∈ assign next sym lens) :
    sym ≤ e.sym ∧ lens[e.sym - sym]? = some e.len ∧ e.len ≠ 0 := by
  induction lens generalizing next sym with
  | nil => simp [assign] at h
  | cons L lens ih =>
    have tail {next' : List Nat} (h : e ∈ assign next' (sym + 1) lens) :
        sym ≤ e.sym ∧ (L :: lens)[e.sym - sym]? = some e.len ∧ e.len ≠ 0 := by
      obtain ⟨h1, h2, h3⟩ := ih h
      refine ⟨by omega, ?_, h3⟩
      rw [show e.sym - sym = e.sym - (sym + 1) + 1 by omega]
      simpa using h2
    unfold assign at h
    split at h
    · exact tail h
    · rename_i hL
      rcases List.mem_cons.1 h with rfl | h
      · simp [hL]
      · exact tail h

/-- An entry of a built table stands for a symbol of the alphabet, by that symbol's length. -/
theorem mem_build {lens : List Nat} {e : Entry} (h : e ∈ build lens) :
    e.sym < lens.length ∧ lens[e.sym]? = some e.len ∧ e.len ≠ 0 := by
  obtain ⟨-, h2, h3⟩ := mem_assign h
  rw [Nat.sub_zero] at h2
  exact ⟨(List.getElem?_eq_some_iff.1 h2).1, h2, h3⟩

/-- The table built from lengths 0..15 of at most `n` symbols. -/
theorem build_symbolsBelow {lens : List Nat} {n : Nat} (hn : lens.length ≤ n) (h15 : ∀ L ∈ lens, L ≤ 15) :
    Table.symbolsBelow (build lens) n := by
  intro e he
  obtain ⟨h1, h2, h3⟩ := mem_build he
  exact ⟨by omega, by omega, h15 _ (List.mem_of_getElem? h2)⟩

/-- A symbol found stands in the table under the code and length looked up. -/
theorem lookup_some {t : Table} {code len sym : Nat} (h : lookup t code len = some sym) :
    { code := code, len := len, sym := sym } ∈ t := by
  induction t with
  | nil => cases h
  | cons e t ih =>
    unfold lookup at h
    split at h
    · rename_i he
      obtain ⟨h1, h2⟩ := he
      obtain ⟨c, l, s⟩ := e
      simp_all
    · exact List.mem_cons_of_mem _ (ih h)

/-- Bit reversal is legal on the lengths the core uses (00_scope.md R13). -/
theorem bitrev_legal {v L : Nat} (h1 : 1 ≤ L) (h15 : L ≤ 15) : bitrev v L = .ok (revBits L v) := by
  simp [bitrev, h1, h15]

/-- One turn of the symbol decoder at a legal cursor. -/
theorem decodeSymbolFrom_succ {s : State} (t : Table) (h : s.CursorLegal) (n L : Nat) (h1 : 1 ≤ L) (h15 : L ≤ 15) :
    decodeSymbolFrom t s (n + 1) L =
      if s.cursor.consumed + L ≤ 8 * s.inLen.toNat then
        match lookup t (revBits L (s.fieldAt s.cursor.consumed L)) L with
        | some sym => .ok (sym, cursorAt (s.cursor.consumed + L))
        | none => decodeSymbolFrom t s n (L + 1)
      else .error .endOfInput := by
  rw [decodeSymbolFrom, peekBits_eq, skipBits_eq, readBits_legal h L (by omega)]
  by_cases hk : s.cursor.consumed + L ≤ 8 * s.inLen.toNat
  · simp only [if_pos hk, Except.map, bitrev_legal h1 h15]
    cases lookup t (revBits L (s.fieldAt s.cursor.consumed L)) L <;> rfl
  · simp only [if_neg hk, Except.map]

/-- A symbol decoded: it is a symbol of the table, and the bits of one code of a length tried were consumed. -/
theorem decodeSymbolFrom_ok {s : State} {t : Table} (h : s.CursorLegal) {n L sym : Nat} {c : Cursor} (h1 : 1 ≤ L)
    (h15 : L + n ≤ 16) (hr : decodeSymbolFrom t s n L = .ok (sym, c)) :
    ∃ k, L ≤ k ∧ k < L + n ∧ s.cursor.consumed + k ≤ 8 * s.inLen.toNat ∧ c = cursorAt (s.cursor.consumed + k) ∧
      lookup t (revBits k (s.fieldAt s.cursor.consumed k)) k = some sym := by
  induction n generalizing L with
  | zero => cases hr
  | succ n ih =>
    rw [decodeSymbolFrom_succ t h n L h1 (by omega)] at hr
    split at hr
    · rename_i hle
      split at hr
      · rename_i hl
        simp only [Except.ok.injEq, Prod.mk.injEq] at hr
        obtain ⟨rfl, rfl⟩ := hr
        exact ⟨L, by omega, by omega, hle, rfl, hl⟩
      · obtain ⟨k, h2, h3, h4⟩ := ih (by omega) (by omega) hr
        exact ⟨k, by omega, by omega, h4⟩
    · cases hr

theorem decodeSymbol_ok {s : State} {t : Table} (h : s.CursorLegal) {lmin lmax sym : Nat} {c : Cursor}
    (h1 : 1 ≤ lmin) (h15 : lmax ≤ 15) (hr : decodeSymbol t lmin lmax s = .ok (sym, c)) :
    ∃ k, lmin ≤ k ∧ k ≤ lmax ∧ s.cursor.consumed + k ≤ 8 * s.inLen.toNat ∧ c = cursorAt (s.cursor.consumed + k) ∧
      lookup t (revBits k (s.fieldAt s.cursor.consumed k)) k = some sym := by
  unfold decodeSymbol at hr
  by_cases hl : lmin ≤ lmax
  · obtain ⟨k, h2, h3, h4⟩ := decodeSymbolFrom_ok h h1 (by omega) hr
    exact ⟨k, h2, by omega, h4⟩
  · rw [show lmax + 1 - lmin = 0 by omega] at hr
    cases hr

/-- A symbol decoded is a symbol of the table. -/
theorem decodeSymbol_mem {s : State} {t : Table} (h : s.CursorLegal) {lmin lmax sym : Nat} {c : Cursor}
    (h1 : 1 ≤ lmin) (h15 : lmax ≤ 15) (hr : decodeSymbol t lmin lmax s = .ok (sym, c)) : ∃ e ∈ t, e.sym = sym := by
  obtain ⟨k, -, -, -, -, hl⟩ := decodeSymbol_ok h h1 h15 hr
  exact ⟨_, lookup_some hl, rfl⟩

/-- Decoding fails for want of input or of a code, never otherwise (42_symbol_decoder.md R212). -/
theorem decodeSymbolFrom_error {s : State} {t : Table} (h : s.CursorLegal) {n L : Nat} {e : Cause} (h1 : 1 ≤ L)
    (h15 : L + n ≤ 16) (hr : decodeSymbolFrom t s n L = .error e) : e = .endOfInput ∨ e = .noMatchingCode := by
  induction n generalizing L with
  | zero => exact .inr (Except.error.inj hr).symm
  | succ n ih =>
    rw [decodeSymbolFrom_succ t h n L h1 (by omega)] at hr
    split at hr
    · split at hr
      · cases hr
      · exact ih (by omega) (by omega) hr
    · exact .inl (Except.error.inj hr).symm

theorem decodeSymbol_error {s : State} {t : Table} (h : s.CursorLegal) {lmin lmax : Nat} {e : Cause}
    (h1 : 1 ≤ lmin) (h15 : lmax ≤ 15) (hr : decodeSymbol t lmin lmax s = .error e) :
    e = .endOfInput ∨ e = .noMatchingCode := by
  unfold decodeSymbol at hr
  by_cases hl : lmin ≤ lmax
  · exact decodeSymbolFrom_error h h1 (by omega) hr
  · rw [show lmax + 1 - lmin = 0 by omega] at hr
    exact .inr (Except.error.inj hr).symm

/-- The symbols of the fixed table (45_fixed_block.md R270). -/
theorem fixedLitlen_symbolsBelow : Table.symbolsBelow fixedLitlen 288 :=
  build_symbolsBelow (by decide +kernel) (by decide +kernel)

end Sys2Proof.Machine
end

