-- ==== Sys2Proof/Laws/Ops.lean ====
section
/-! SUPPORT. What each shared operation over errors and the output buffer can do. -/

namespace Sys2Proof.Machine

/-- `raise` of a cause that is no InternalBug enters the error state (60_exceptions.md R403). -/
theorem raise_next {c : Cause} (h : c.kind ≠ .internalBug) (s : State) : raise c s = .next (s.enterError c) := by
  simp [raise, h]

/-- `raise` that answers a next state entered the error state, and its cause is no InternalBug. -/
theorem raise_eq_next {c : Cause} {s t : State} (h : raise c s = .next t) :
    c.kind ≠ .internalBug ∧ t = s.enterError c := by
  unfold raise at h
  split at h
  · cases h
  · rename_i hk
    exact ⟨hk, (Host.Outcome.next.inj h).symm⟩

/-- `append` that answers: OUT was not full, and one byte was written at its end (48_lz77_expander.md R360). -/
theorem append_ok {v : Byte} {s t : State} (h : append v s = .ok t) :
    s.outLen ≠ s.params.outMemSize ∧
      t = { s with outMem := Memory.write s.outMem s.outLen.toNat v, outLen := s.outLen + 1 } := by
  unfold append at h
  split at h
  · cases h
  · rename_i hne
    exact ⟨hne, (Except.ok.inj h).symm⟩

theorem append_error {v : Byte} {s : State} {e : Cause} (h : append v s = .error e) :
    e = .outputOverflow ∧ s.outLen = s.params.outMemSize := by
  unfold append at h
  split at h
  · rename_i he
    exact ⟨(Except.error.inj h).symm, he⟩
  · cases h

/-- `t` is `s` with `n` bytes appended to the output: everything but OUT and `out_len` is the same, every byte below the
old end reads the same, the new bytes are listed, and nothing is listed outside them. -/
structure Appended (s t : State) (n : Nat) : Prop where
  frame : t = { s with outMem := t.outMem, outLen := t.outLen }
  outLen : t.outLen.toNat = s.outLen.toNat + n
  fits : t.outLen.toNat ≤ s.params.outMemSize.toNat
  below : ∀ a < s.outLen.toNat, Memory.read t.outMem a = Memory.read s.outMem a
  above : ∀ a, t.outLen.toNat ≤ a → Memory.read t.outMem a = Memory.read s.outMem a
  listed : ∀ a, s.outLen.toNat ≤ a → a < t.outLen.toNat → (Memory.read t.outMem a).isSome = true
  cells : ∀ c ∈ t.outMem, c ∈ s.outMem ∨ s.outLen.toNat ≤ c.1 ∧ c.1 < t.outLen.toNat
  wf : s.outMem.wf = true → t.outMem.wf = true

theorem Appended.refl {s : State} (h : s.outLen.toNat ≤ s.params.outMemSize.toNat) : Appended s s 0 where
  frame := rfl
  outLen := rfl
  fits := h
  below := fun _ _ => rfl
  above := fun _ _ => rfl
  listed := fun a h1 h2 => absurd h2 (by omega)
  cells := fun _ h => .inl h
  wf := id

theorem Appended.params {s t : State} {n : Nat} (h : Appended s t n) : t.params = s.params := by rw [h.frame]

theorem Appended.trans {s t u : State} {m n : Nat} (h1 : Appended s t m) (h2 : Appended t u n) :
    Appended s u (m + n) where
  frame := by rw [h2.frame, h1.frame]
  outLen := by rw [h2.outLen, h1.outLen]; omega
  fits := h1.params ▸ h2.fits
  below := fun a ha => by rw [h2.below a (by have := h1.outLen; omega), h1.below a ha]
  above := fun a ha => by
    have := h2.outLen
    rw [h2.above a ha, h1.above a (by omega)]
  listed := fun a ha hb => by
    by_cases hc : a < t.outLen.toNat
    · rw [h2.below a hc]; exact h1.listed a ha hc
    · exact h2.listed a (by omega) hb
  cells := fun c hc => by
    have e1 := h1.outLen
    have e2 := h2.outLen
    rcases h2.cells c hc with h | h
    · rcases h1.cells c h with h | h
      · exact .inl h
      · exact .inr ⟨h.1, by omega⟩
    · exact .inr ⟨by omega, h.2⟩
  wf := fun h => h2.wf (h1.wf h)

theorem append_appended {v : Byte} {s t : State} (hs : s.outLen.toNat ≤ s.params.outMemSize.toNat)
    (h : append v s = .ok t) : Appended s t 1 := by
  obtain ⟨hne, rfl⟩ := append_ok h
  have hlt : s.outLen.toNat < s.params.outMemSize.toNat :=
    Nat.lt_of_le_of_ne hs fun e => hne (BitVec.eq_of_toNat_eq e)
  have hsz := s.params.outMemSize.isLt
  have e : (s.outLen + 1).toNat = s.outLen.toNat + 1 := by
    rw [BitVec.toNat_add]; show (s.outLen.toNat + 1) % 2 ^ 32 = _; omega
  refine ⟨rfl, e, by show (s.outLen + 1).toNat ≤ _; omega, fun a ha => ?_, fun a ha => ?_, fun a ha hb => ?_, fun c hc => ?_,
    fun h => ?_⟩
  · exact Memory.read_write_other _ _ (by omega)
  · exact Memory.read_write_other _ _ (by change (s.outLen + 1).toNat ≤ a at ha; omega)
  · change a < (s.outLen + 1).toNat at hb
    have : a = s.outLen.toNat := by omega
    subst this
    show (Memory.read (Memory.write _ _ _) _).isSome = true
    simp
  · rcases Memory.mem_write hc with rfl | hc
    · exact .inr ⟨Nat.le_refl _, by show _ < (s.outLen + 1).toNat; rw [e]; exact Nat.lt_succ_self _⟩
    · exact .inl hc
  · exact Memory.write_wf _ _ h

/-- `append` while OUT has room answers. -/
theorem append_room {v : Byte} {s : State} (h : s.outLen.toNat < s.params.outMemSize.toNat) :
    append v s = .ok { s with outMem := Memory.write s.outMem s.outLen.toNat v, outLen := s.outLen + 1 } := by
  unfold append
  rw [if_neg]
  intro e
  rw [e] at h
  omega

theorem appendAll_appended {vs : List Byte} {s t : State} (hs : s.outLen.toNat ≤ s.params.outMemSize.toNat)
    (h : appendAll vs s = .ok t) : Appended s t vs.length := by
  induction vs generalizing s with
  | nil => cases h; exact Appended.refl hs
  | cons v vs ih =>
    unfold appendAll at h
    split at h
    · cases h
    · rename_i s' ha
      have h1 := append_appended hs ha
      have h2 := ih (h1.params ▸ h1.fits) h
      have h3 := h1.trans h2
      rwa [Nat.add_comm] at h3

theorem appendAll_error {vs : List Byte} {s : State} {e : Cause} (h : appendAll vs s = .error e) :
    e = .outputOverflow := by
  induction vs generalizing s with
  | nil => cases h
  | cons v vs ih =>
    unfold appendAll at h
    split at h
    · rename_i ha
      cases h
      exact (append_error ha).1
    · exact ih h

theorem lz77Copy_appended {n d : Nat} {s t : State} (hs : s.outLen.toNat ≤ s.params.outMemSize.toNat)
    (h : lz77Copy n d s = .ok t) : Appended s t n := by
  induction n generalizing s with
  | zero => cases h; exact Appended.refl hs
  | succ n ih =>
    unfold lz77Copy at h
    split at h
    · cases h
    · rename_i s' ha
      have h1 := append_appended hs ha
      have h2 := ih (h1.params ▸ h1.fits) h
      have h3 := h1.trans h2
      rwa [Nat.add_comm] at h3

theorem lz77Copy_error {n d : Nat} {s : State} {e : Cause} (h : lz77Copy n d s = .error e) : e = .outputOverflow := by
  induction n generalizing s with
  | zero => cases h
  | succ n ih =>
    unfold lz77Copy at h
    split at h
    · rename_i ha
      cases h
      exact (append_error ha).1
    · exact ih h

/-! ### With room, and without -/

/-- `append` with room: the byte stands at the old end, `out_len` is one more, all else is as before. -/
theorem append_at_end {v : Byte} {s : State} (h : s.outLen.toNat < s.params.outMemSize.toNat) :
    ∃ t, append v s = .ok t ∧ t = { s with outMem := t.outMem, outLen := BitVec.ofNat 32 (s.outLen.toNat + 1) } ∧
      t.outLen.toNat = s.outLen.toNat + 1 ∧ t.outByte s.outLen.toNat = v ∧
      ∀ a, a ≠ s.outLen.toNat → t.outByte a = s.outByte a := by
  have hlt := s.params.outMemSize.isLt
  rw [append_room h]
  refine ⟨_, rfl, ?_, ?_, ?_, fun a ha => ?_⟩
  · rw [show s.outLen + 1 = BitVec.ofNat 32 (s.outLen.toNat + 1) by simp [BitVec.ofNat_add]]
  · rw [BitVec.toNat_add]; show (s.outLen.toNat + 1) % 2 ^ 32 = _; omega
  · simp [State.outByte]
  · simp [State.outByte, Memory.read_write_other _ _ ha]

/-- `append` on a full OUT. -/
theorem append_full {v : Byte} {s : State} (h : s.outLen.toNat = s.params.outMemSize.toNat) :
    append v s = .error .outputOverflow := by
  unfold append; rw [if_pos (BitVec.eq_of_toNat_eq h)]

/-- The bytes of a stored block with room for all of them. -/
theorem appendAll_room {vs : List Byte} {s : State} (hr : s.outLen.toNat + vs.length ≤ s.params.outMemSize.toNat) :
    ∃ t, appendAll vs s = .ok t ∧
      t = { s with outMem := t.outMem, outLen := BitVec.ofNat 32 (s.outLen.toNat + vs.length) } ∧
      (∀ k < vs.length, vs[k]? = some (t.outByte (s.outLen.toNat + k))) ∧
      ∀ a, a < s.outLen.toNat ∨ s.outLen.toNat + vs.length ≤ a → t.outByte a = s.outByte a := by
  have hlt := s.params.outMemSize.isLt
  induction vs generalizing s with
  | nil => exact ⟨s, rfl, by simp, by simp, fun _ _ => rfl⟩
  | cons v vs ih =>
    simp only [List.length_cons] at *
    obtain ⟨u, h1, h2, e1, h3, h4⟩ := append_at_end (v := v) (s := s) (by omega)
    have e2 : u.params = s.params := by rw [h2]
    obtain ⟨t, g1, g2, g3, g4⟩ := ih (s := u) (by rw [e2, e1]; omega) (by rw [e2]; exact hlt)
    refine ⟨t, ?_, ?_, fun k hk => ?_, fun a ha => ?_⟩
    · unfold appendAll; rw [h1]; exact g1
    · rw [g2, e1, show s.outLen.toNat + 1 + vs.length = s.outLen.toNat + (vs.length + 1) by omega, h2]
    · cases k with
      | zero => rw [Nat.add_zero, g4 _ (.inl (by omega)), h3]; rfl
      | succ k =>
        have := g3 k (by omega)
        rw [e1] at this
        rw [show s.outLen.toNat + (k + 1) = s.outLen.toNat + 1 + k by omega, ← this]
        rfl
    · rw [g4 a (by omega), h4 a (by omega)]

/-- The bytes of a stored block with too little room. -/
theorem appendAll_full {vs : List Byte} {s : State} (h1 : s.outLen.toNat ≤ s.params.outMemSize.toNat)
    (h2 : s.params.outMemSize.toNat < s.outLen.toNat + vs.length) : appendAll vs s = .error .outputOverflow := by
  induction vs generalizing s with
  | nil => simp only [List.length_nil] at h2; omega
  | cons v vs ih =>
    simp only [List.length_cons] at h2
    unfold appendAll
    by_cases he : s.outLen.toNat = s.params.outMemSize.toNat
    · rw [append_full he]
    · obtain ⟨u, g1, g2, g3, -, -⟩ := append_at_end (v := v) (s := s) (by omega)
      have e2 : u.params = s.params := by rw [g2]
      rw [g1]
      exact ih (by rw [e2]; omega) (by rw [e2]; omega)

/-- A copy with room: each new byte is the one `d` before it, and the rest of OUT is as before. -/
theorem lz77Copy_room {n d : Nat} {s : State} (h1 : 1 ≤ d) (hd : d ≤ s.outLen.toNat)
    (hr : s.outLen.toNat + n ≤ s.params.outMemSize.toNat) :
    ∃ t, lz77Copy n d s = .ok t ∧
      t = { s with outMem := t.outMem, outLen := BitVec.ofNat 32 (s.outLen.toNat + n) } ∧
      (∀ k < n, t.outByte (s.outLen.toNat + k) = t.outByte (s.outLen.toNat + k - d)) ∧
      ∀ a, a < s.outLen.toNat ∨ s.outLen.toNat + n ≤ a → t.outByte a = s.outByte a := by
  have hlt := s.params.outMemSize.isLt
  induction n generalizing s with
  | zero => exact ⟨s, rfl, by simp, fun k hk => absurd hk (by omega), fun _ _ => rfl⟩
  | succ n ih =>
    obtain ⟨u, f1, f2, e1, f3, f4⟩ := append_at_end (v := s.outByte (s.outLen.toNat - d)) (s := s) (by omega)
    have e2 : u.params = s.params := by rw [f2]
    obtain ⟨t, g1, g2, g3, g4⟩ := ih (s := u) (by omega) (by rw [e2, e1]; omega) (by rw [e2]; exact hlt)
    refine ⟨t, ?_, ?_, fun k hk => ?_, fun a ha => ?_⟩
    · unfold lz77Copy; rw [f1]; exact g1
    · rw [g2, e1, show s.outLen.toNat + 1 + n = s.outLen.toNat + (n + 1) by omega, f2]
    · cases k with
      | zero => rw [Nat.add_zero, g4 _ (.inl (by omega)), f3, g4 _ (.inl (by omega)), f4 _ (by omega)]
      | succ k =>
        have := g3 k (by omega)
        rw [e1] at this
        rwa [show s.outLen.toNat + (k + 1) = s.outLen.toNat + 1 + k by omega]
    · rw [g4 a (by omega), f4 a (by omega)]

/-- A copy with too little room. -/
theorem lz77Copy_full {n d : Nat} {s : State} (h1 : s.outLen.toNat ≤ s.params.outMemSize.toNat)
    (h2 : s.params.outMemSize.toNat < s.outLen.toNat + n) : lz77Copy n d s = .error .outputOverflow := by
  induction n generalizing s with
  | zero => omega
  | succ n ih =>
    unfold lz77Copy
    by_cases he : s.outLen.toNat = s.params.outMemSize.toNat
    · rw [append_full he]
    · obtain ⟨u, g1, g2, g3, -, -⟩ := append_at_end (v := s.outByte (s.outLen.toNat - d)) (s := s) (by omega)
      have e2 : u.params = s.params := by rw [g2]
      rw [g1]
      exact ih (by rw [e2]; omega) (by rw [e2]; omega)

end Sys2Proof.Machine
end

