-- ==== Sys2Proof/Laws/Step.lean ====
section
/-! SUPPORT. What the shared operations behind the meanings, the reading of the next element, and a step can do. -/

namespace Sys2Proof.Machine

/-! ### Lengths and distances -/

theorem lextra_le (idx : Nat) (h : idx ≤ 28) : lextra.getD idx 0 ≤ 5 := by
  have : ∀ i : Fin 29, lextra.getD i 0 ≤ 5 := by decide
  exact this ⟨idx, by omega⟩

theorem dextra_le (d : Nat) (h : d ≤ 29) : dextra.getD d 0 ≤ 13 := by
  have : ∀ i : Fin 30, dextra.getD i 0 ≤ 13 := by decide
  exact this ⟨d, by omega⟩

/-- The lengths of the table lie in 3..258 (47_length_distance.md R339). -/
theorem length_range (idx x : Nat) (h : idx ≤ 28) (hx : x < 2 ^ lextra.getD idx 0) :
    3 ≤ lbase.getD idx 0 + x ∧ lbase.getD idx 0 + x ≤ 258 := by
  have : ∀ i : Fin 29, 3 ≤ lbase.getD i 0 ∧ lbase.getD i 0 + 2 ^ lextra.getD i 0 ≤ 259 := by decide
  have := this ⟨idx, by omega⟩
  simp only at this
  omega

/-- The distances of the table lie in 1..32768 (R339). -/
theorem distance_range (d x : Nat) (h : d ≤ 29) (hx : x < 2 ^ dextra.getD d 0) :
    1 ≤ dbase.getD d 0 + x ∧ dbase.getD d 0 + x ≤ 32768 := by
  have : ∀ i : Fin 30, 1 ≤ dbase.getD i 0 ∧ dbase.getD i 0 + 2 ^ dextra.getD i 0 ≤ 32769 := by decide
  have := this ⟨d, by omega⟩
  simp only at this
  omega

/-- Everything `resolve_length` can do at a legal cursor (R333 to R335): LENGTH_TOO_LONG does not arise. -/
theorem resolveLength_legal {s : State} (h : s.CursorLegal) (sym : Nat) :
    resolveLength sym s =
      if 28 < sym - 257 then .error .litlenSymbolRange
      else if s.cursor.consumed + lextra.getD (sym - 257) 0 ≤ 8 * s.inLen.toNat then
        .ok (lbase.getD (sym - 257) 0 + s.fieldAt s.cursor.consumed (lextra.getD (sym - 257) 0),
             cursorAt (s.cursor.consumed + lextra.getD (sym - 257) 0))
      else .error .endOfInput := by
  unfold resolveLength
  by_cases hi : 28 < sym - 257
  · simp [hi]
  · have hx := lextra_le (sym - 257) (by omega)
    have hr := length_range (sym - 257) _ (by omega) (s.fieldAt_lt s.cursor.consumed (lextra.getD (sym - 257) 0))
    simp only [hi, if_false, readBits_legal h _ (show lextra.getD (sym - 257) 0 ≤ 32 by omega)]
    split
    · rename_i heq
      split at heq
      · cases heq
      · rename_i hk; rw [if_neg hk]; cases heq; rfl
    · rename_i v c heq
      split at heq
      · rename_i hk
        simp only [Except.ok.injEq, Prod.mk.injEq] at heq
        obtain ⟨rfl, rfl⟩ := heq
        rw [if_pos hk, if_neg (by unfold lengthMax; omega)]
      · cases heq

/-- Everything `resolve_distance` can do at a legal cursor (R337, R338): DIST_TOO_FAR_WINDOW does not arise. -/
theorem resolveDistance_legal {s : State} (h : s.CursorLegal) (dsym : Nat) :
    resolveDistance dsym s =
      if 29 < dsym then .error .distSymbolRange
      else if s.cursor.consumed + dextra.getD dsym 0 ≤ 8 * s.inLen.toNat then
        if s.outLen.toNat < dbase.getD dsym 0 + s.fieldAt s.cursor.consumed (dextra.getD dsym 0) then
          .error .distBeyondOutput
        else
          .ok (dbase.getD dsym 0 + s.fieldAt s.cursor.consumed (dextra.getD dsym 0),
               cursorAt (s.cursor.consumed + dextra.getD dsym 0))
      else .error .endOfInput := by
  unfold resolveDistance
  by_cases hi : 29 < dsym
  · simp [hi]
  · have hx := dextra_le dsym (by omega)
    have hr := distance_range dsym _ (by omega) (s.fieldAt_lt s.cursor.consumed (dextra.getD dsym 0))
    simp only [hi, if_false, readBits_legal h _ (show dextra.getD dsym 0 ≤ 32 by omega)]
    split
    · rename_i heq
      split at heq
      · cases heq
      · rename_i hk; rw [if_neg hk]; cases heq; rfl
    · rename_i v c heq
      split at heq
      · rename_i hk
        simp only [Except.ok.injEq, Prod.mk.injEq] at heq
        obtain ⟨rfl, rfl⟩ := heq
        rw [if_pos hk, if_neg (by unfold windowMax; omega)]
      · cases heq

/-- Everything a length symbol can do at a legal cursor. -/
theorem lengthSymbol_next {s t : State} (h : s.CursorLegal) {sym : Nat} (hn : lengthSymbol sym s = .next t) :
    (∃ c u, c.kind = .malformedData ∧ t = u.enterError c ∧ (u = s ∨ ∃ k, u = { s with cursor := cursorAt k, copyLen := u.copyLen }) ∧
      (c = .litlenSymbolRange ∧ 28 < sym - 257 ∨ c = .endOfInput ∨ c = .noDistanceTable ∧ s.btype = 2)) ∨
    (∃ len k, t = { s with cursor := cursorAt (s.cursor.consumed + k), copyLen := len, expect := .distance } ∧
      s.cursor.consumed + k ≤ 8 * s.inLen.toNat ∧ 3 ≤ len ∧ len ≤ 258 ∧ (s.btype = 2 → s.distPresent = true)) := by
  unfold lengthSymbol at hn
  rw [resolveLength_legal h] at hn
  by_cases hi : 28 < sym - 257
  · simp only [hi, if_true] at hn
    obtain ⟨-, rfl⟩ := raise_eq_next hn
    exact .inl ⟨_, s, rfl, rfl, .inl rfl, .inl ⟨rfl, hi⟩⟩
  · simp only [hi, if_false] at hn
    by_cases hk : s.cursor.consumed + lextra.getD (sym - 257) 0 ≤ 8 * s.inLen.toNat
    · simp only [hk, if_true] at hn
      have hr := length_range (sym - 257) _ (by omega) (s.fieldAt_lt s.cursor.consumed (lextra.getD (sym - 257) 0))
      split at hn
      · rename_i hd
        obtain ⟨-, rfl⟩ := raise_eq_next hn
        exact .inl ⟨_, _, rfl, rfl, .inr ⟨_, rfl⟩, .inr (.inr ⟨rfl, hd.1⟩)⟩
      · rename_i hd
        cases hn
        refine .inr ⟨_, _, rfl, hk, hr.1, hr.2, fun hb => ?_⟩
        cases hp : s.distPresent
        · exact absurd ⟨hb, hp⟩ hd
        · rfl
    · simp only [hk, if_false] at hn
      obtain ⟨-, rfl⟩ := raise_eq_next hn
      exact .inl ⟨_, s, rfl, rfl, .inl rfl, .inr (.inl rfl)⟩

/-- Everything a distance symbol can do at a legal cursor. -/
theorem distanceSymbol_next {s t : State} (h : s.CursorLegal) (hs : s.outLen.toNat ≤ s.params.outMemSize.toNat)
    {dsym : Nat} (hn : distanceSymbol dsym s = .next t) :
    (∃ c u, t = u.enterError c ∧ (u = s ∨ ∃ k d, u = { s with cursor := cursorAt k, copyDist := d }) ∧
      (c = .distSymbolRange ∧ 29 < dsym ∨ c = .endOfInput ∨ c = .distBeyondOutput ∨ c = .outputOverflow)) ∨
    (∃ k d u, t = { u with expect := .litlen } ∧ s.cursor.consumed + k ≤ 8 * s.inLen.toNat ∧ 1 ≤ d ∧ d ≤ 32768 ∧
      d ≤ s.outLen.toNat ∧
      Appended { s with cursor := cursorAt (s.cursor.consumed + k), copyDist := d } u s.copyLen) := by
  unfold distanceSymbol at hn
  rw [resolveDistance_legal h] at hn
  by_cases hi : 29 < dsym
  · simp only [hi, if_true] at hn
    obtain ⟨-, rfl⟩ := raise_eq_next hn
    exact .inl ⟨_, s, rfl, .inl rfl, .inl ⟨rfl, hi⟩⟩
  · simp only [hi, if_false] at hn
    by_cases hk : s.cursor.consumed + dextra.getD dsym 0 ≤ 8 * s.inLen.toNat
    · simp only [hk, if_true] at hn
      have hr := distance_range dsym _ (by omega) (s.fieldAt_lt s.cursor.consumed (dextra.getD dsym 0))
      by_cases ho : s.outLen.toNat < dbase.getD dsym 0 + s.fieldAt s.cursor.consumed (dextra.getD dsym 0)
      · simp only [ho, if_true] at hn
        obtain ⟨-, rfl⟩ := raise_eq_next hn
        exact .inl ⟨_, s, rfl, .inl rfl, .inr (.inr (.inl rfl))⟩
      · simp only [ho, if_false] at hn
        split at hn
        · rename_i he
          obtain ⟨-, rfl⟩ := raise_eq_next hn
          exact .inl ⟨_, _, rfl, .inr ⟨_, _, rfl⟩, .inr (.inr (.inr (lz77Copy_error he)))⟩
        · rename_i u he
          cases hn
          exact .inr ⟨_, _, u, rfl, hk, hr.1, hr.2, by omega, lz77Copy_appended hs he⟩
    · simp only [hk, if_false] at hn
      obtain ⟨-, rfl⟩ := raise_eq_next hn
      exact .inl ⟨_, s, rfl, .inl rfl, .inr (.inl rfl)⟩

/-! ### The dynamic header and the bit lengths -/

/-- The code-length lengths read (46_dynamic_block.md R294): 19 of them still, and three bits for each slot. -/
theorem readClens_ok {s : State} {order : List Nat} {acc lens : List (BitVec 3)} {c : Cursor} (h : s.CursorLegal)
    (hr : readClens order acc s = .ok (lens, c)) :
    lens.length = acc.length ∧ s.cursor.consumed + 3 * order.length ≤ 8 * s.inLen.toNat ∧
      c = cursorAt (s.cursor.consumed + 3 * order.length) := by
  induction order generalizing acc s with
  | nil =>
    simp only [readClens, Except.ok.injEq, Prod.mk.injEq] at hr
    obtain ⟨rfl, rfl⟩ := hr
    exact ⟨rfl, by simpa using h.consumed_le, by simpa using h.cursor_eq⟩
  | cons slot order ih =>
    unfold readClens at hr
    split at hr
    · cases hr
    · rename_i v c' hb
      obtain ⟨hk, -, rfl⟩ := readBits_ok h hb
      have hlt := s.inLen.isLt
      have := ih (State.setCursor_legal hk) hr
      simp only [State.setCursor_cursor, State.setCursor_inLen, List.length_set,
        consumed_cursorAt (show s.cursor.consumed + 3 < 8 * 2 ^ 32 by omega), List.length_cons] at this ⊢
      exact ⟨this.1, by omega, by rw [this.2.2]; congr 1; omega⟩

theorem readClens_error {s : State} {order : List Nat} {acc : List (BitVec 3)} {e : Cause}
    (hr : readClens order acc s = .error e) : e = .endOfInput := by
  induction order generalizing acc s with
  | nil => cases hr
  | cons slot order ih =>
    unfold readClens at hr
    split at hr
    · rename_i hb
      cases hr
      exact readBits_error (by omega) hb
    · exact ih hr

/-! ### Reading the next element -/

/-- The next element, read at a legal cursor: at least one bit was consumed, and the cursor is legal after it. -/
def State.Fetched (s : State) (c : Cursor) : Prop :=
  ∃ k, 1 ≤ k ∧ s.cursor.consumed + k ≤ 8 * s.inLen.toNat ∧ c = cursorAt (s.cursor.consumed + k)

theorem State.Fetched.legal {s : State} {c : Cursor} (h : s.Fetched c) : (s.setCursor c).CursorLegal := by
  obtain ⟨k, -, hk, rfl⟩ := h
  exact State.setCursor_legal hk

theorem State.Fetched.consumed {s : State} {c : Cursor} (h : s.Fetched c) :
    s.cursor.consumed < c.consumed ∧ c.consumed ≤ 8 * s.inLen.toNat := by
  obtain ⟨k, h1, hk, rfl⟩ := h
  have := s.inLen.isLt
  rw [consumed_cursorAt (by omega)]
  omega

theorem fetchBlockHeader_ok {s : State} {i : Instr} {c : Cursor} (h : s.CursorLegal)
    (hr : fetchBlockHeader s = .ok (i, c)) :
    s.Fetched c ∧ ∃ t : BitVec 2, i = decodeBlockHeader s.bfinal t := by
  unfold fetchBlockHeader at hr
  split at hr
  · cases hr
  · rename_i v c' hb
    obtain ⟨hk, -, rfl⟩ := readBits_ok h hb
    simp only [Except.ok.injEq, Prod.mk.injEq] at hr
    obtain ⟨rfl, rfl⟩ := hr
    exact ⟨⟨2, by omega, hk, rfl⟩, _, rfl⟩

theorem fetchStoredHeader_ok {s : State} {i : Instr} {c : Cursor}
    (hr : fetchStoredHeader s = .ok (i, c)) :
    s.Fetched c ∧ c.left = 8 ∧ ∃ len nlen, i = .hdrStored len nlen := by
  unfold fetchStoredHeader at hr
  split at hr
  · cases hr
  · rename_i hdr c' hb
    obtain ⟨h8, hn, -, rfl⟩ := readBytes_ok hb
    simp only [Except.ok.injEq, Prod.mk.injEq] at hr
    obtain ⟨rfl, rfl⟩ := hr
    have hlt := s.inLen.isLt
    have e : s.cursor.consumed = 8 * s.cursor.pos.toNat := by simp [Cursor.consumed, h8]
    refine ⟨⟨8 * 4, by omega, by omega, ?_⟩, h8, _, _, rfl⟩
    exact Cursor.skipBytes_eq h8 (by omega)

theorem fetchDynamicHeader_ok {s : State} {i : Instr} {c : Cursor} (h : s.CursorLegal)
    (hr : fetchDynamicHeader s = .ok (i, c)) :
    s.Fetched c ∧ ∃ a b d, i = .hdrDynamic a b d := by
  have hlt := s.inLen.isLt
  unfold fetchDynamicHeader at hr
  split at hr
  · cases hr
  · rename_i v c1 hb
    obtain ⟨hk, -, rfl⟩ := readBits_ok h hb
    have l1 := State.setCursor_legal hk
    split at hr
    · cases hr
    · rename_i v2 c2 hb2
      obtain ⟨hk2, -, rfl⟩ := readBits_ok l1 hb2
      simp only [State.setCursor_cursor, State.setCursor_inLen,
        consumed_cursorAt (show s.cursor.consumed + 5 < 8 * 2 ^ 32 by omega)] at hk2 hr
      have l2 := State.setCursor_legal hk2
      split at hr
      · cases hr
      · rename_i v3 c3 hb3
        obtain ⟨hk3, -, rfl⟩ := readBits_ok l2 hb3
        simp only [State.setCursor_cursor, State.setCursor_inLen,
          consumed_cursorAt (show s.cursor.consumed + 5 + 5 < 8 * 2 ^ 32 by omega)] at hk3 hr
        simp only [Except.ok.injEq, Prod.mk.injEq] at hr
        obtain ⟨rfl, rfl⟩ := hr
        exact ⟨⟨14, by omega, by omega, rfl⟩, _, _, _, rfl⟩

theorem fetchCodeLength_ok {s : State} {i : Instr} {c : Cursor} (h : s.CursorLegal)
    (hr : fetchCodeLength s = .ok (i, c)) :
    s.Fetched c ∧ ∃ sym, decodeClen sym = some i ∧ ∃ e ∈ s.metaTab, e.sym = sym := by
  unfold fetchCodeLength at hr
  split at hr
  · cases hr
  · rename_i sym c' hd
    split at hr
    · rename_i j hj
      simp only [Except.ok.injEq, Prod.mk.injEq] at hr
      obtain ⟨rfl, rfl⟩ := hr
      obtain ⟨k, hk, -, hle, hc, -⟩ := decodeSymbol_ok h (by omega) (by decide) hd
      exact ⟨⟨k, hk, hle, hc⟩, sym, hj, decodeSymbol_mem h (by omega) (by decide) hd⟩
    · cases hr

theorem fetchLitlen_ok {s : State} {i : Instr} {c : Cursor} (h : s.CursorLegal)
    (hr : fetchLitlen s = .ok (i, c)) :
    s.Fetched c ∧ ∃ sym, decodeLitlen sym = some i := by
  unfold fetchLitlen at hr
  split at hr
  · cases hr
  · rename_i sym c' hd
    split at hr
    · rename_i j hj
      simp only [Except.ok.injEq, Prod.mk.injEq] at hr
      obtain ⟨rfl, rfl⟩ := hr
      refine ⟨?_, sym, hj⟩
      split at hd
      · obtain ⟨k, hk, -, hle, hc, -⟩ := decodeSymbol_ok h (by omega) (by decide) hd
        exact ⟨k, by omega, hle, hc⟩
      · obtain ⟨k, hk, -, hle, hc, -⟩ := decodeSymbol_ok h (by omega) (by decide) hd
        exact ⟨k, hk, hle, hc⟩
    · cases hr

theorem fetchDistance_ok {s : State} {i : Instr} {c : Cursor} (h : s.CursorLegal)
    (hr : fetchDistance s = .ok (i, c)) :
    s.Fetched c ∧ ∃ dsym, decodeDist dsym = some i := by
  unfold fetchDistance at hr
  simp only at hr
  split at hr
  · split at hr
    · cases hr
    · rename_i v c' hb
      obtain ⟨hk, -, rfl⟩ := readBits_ok h hb
      split at hr
      · cases hr
      · rename_i dsym hd
        split at hr
        · rename_i j hj
          simp only [Except.ok.injEq, Prod.mk.injEq] at hr
          obtain ⟨rfl, rfl⟩ := hr
          exact ⟨⟨5, by omega, hk, rfl⟩, dsym, hj⟩
        · cases hr
  · split at hr
    · cases hr
    · rename_i dsym c' hd
      split at hr
      · rename_i j hj
        simp only [Except.ok.injEq, Prod.mk.injEq] at hr
        obtain ⟨rfl, rfl⟩ := hr
        obtain ⟨k, hk, -, hle, hc, -⟩ := decodeSymbol_ok h (by omega) (by decide) hd
        exact ⟨⟨k, hk, hle, hc⟩, dsym, hj⟩
      · cases hr

/-! ### The row of a symbol runs the shared meaning of its family -/

theorem exec_of_decodeLitlen {sym : Nat} {i : Instr} (h : decodeLitlen sym = some i) (s : State) :
    exec i s =
      if sym < 256 then execLit (BitVec.ofNat 8 sym) s
      else if sym = 256 then execEob s
      else lengthSymbol sym s := by
  unfold decodeLitlen at h
  split at h
  · rename_i hs
    cases h
    rw [if_pos hs]
    rfl
  · rename_i hs
    have hlt : sym - 256 < 32 := (List.getElem?_eq_some_iff.1 h).1
    obtain ⟨k, rfl⟩ : ∃ k, sym = 256 + k := ⟨sym - 256, by omega⟩
    rw [Nat.add_sub_cancel_left] at h hlt
    rw [if_neg hs]
    interval_cases k <;> (cases h; rfl)

theorem exec_of_decodeDist {dsym : Nat} {i : Instr} (h : decodeDist dsym = some i) (s : State) :
    exec i s = distanceSymbol dsym s := by
  have hlt : dsym < 32 := (List.getElem?_eq_some_iff.1 h).1
  unfold decodeDist at h
  interval_cases dsym <;> (cases h; rfl)

theorem exec_of_decodeClen {sym : Nat} {i : Instr} (h : decodeClen sym = some i) (s : State) :
    exec i s =
      if sym < 16 then execClLen (BitVec.ofNat 4 sym) s
      else if sym = 16 then execClRepeatPrev s
      else if sym = 17 then execClRepeatZeroShort s
      else execClRepeatZeroLong s := by
  unfold decodeClen at h
  split at h
  · rename_i hs
    cases h
    rw [if_pos hs]
    rfl
  · rename_i hs
    rw [if_neg hs]
    split at h
    · rename_i h16; cases h; rw [if_pos h16]; rfl
    · rename_i h16
      rw [if_neg h16]
      split at h
      · rename_i h17; cases h; rw [if_pos h17]; rfl
      · rename_i h17
        rw [if_neg h17]
        split at h
        · cases h; rfl
        · cases h

/-- Every row of the length and distance tables of Safety.lean runs the shared meaning with its own symbol. -/
theorem exec_lengthRow {k : Nat} {i : Instr} {base extra : Nat} (h : lengthRows[k]? = some (i, base, extra)) (s : State) :
    exec i s = lengthSymbol (257 + k) s ∧ base = lbase.getD k 0 ∧ extra = lextra.getD k 0 := by
  have hlt : k < 29 := (List.getElem?_eq_some_iff.1 h).1
  interval_cases k <;> (cases h; exact ⟨rfl, rfl, rfl⟩)

theorem exec_distanceRow {k : Nat} {i : Instr} {base extra : Nat} (h : distanceRows[k]? = some (i, base, extra))
    (s : State) : exec i s = distanceSymbol k s ∧ base = dbase.getD k 0 ∧ extra = dextra.getD k 0 := by
  have hlt : k < 30 := (List.getElem?_eq_some_iff.1 h).1
  interval_cases k <;> (cases h; exact ⟨rfl, rfl, rfl⟩)

/-! ### Runs and the choice of agent -/

theorem step_block {s : State} (h : s.hostQueue = []) : step s = blockStep s := by
  simp [step, stepOnce, h]

theorem step_host_now {s : State} {h : HostStep} {rest : List HostStep} (hq : s.hostQueue = h :: rest)
    (hw : s.busy = true → h.wait = 0) : step s = hostStep h.action { s with hostQueue := rest } := by
  simp only [step, stepOnce, hq]
  rw [if_neg]
  rintro ⟨hb, hne⟩
  exact hne (hw hb)

theorem step_host_later {s : State} {h : HostStep} {rest : List HostStep} (hq : s.hostQueue = h :: rest)
    (hb : s.busy = true) (hw : h.wait ≠ 0) :
    step s = blockStep { s with hostQueue := { h with wait := h.wait - 1 } :: rest } := by
  simp only [step, stepOnce, hq]
  rw [if_pos ⟨hb, hw⟩]

@[simp] theorem runSteps_zero (s : State) : runSteps 0 s = .next s := rfl

theorem core_run_succ (M : Host.Core) (k : Nat) (s : M.State) :
    M.run (k + 1) s = match M.step s with
      | .next t => M.run k t
      | .fault r => .fault r
      | .refused r => .refused r := rfl

theorem runSteps_succ_next {n : Nat} {s t : State} (h : step s = .next t) : runSteps (n + 1) s = runSteps n t := by
  have e := core_run_succ Sys2Proof.core n s
  rw [show Sys2Proof.core.step s = .next t from h] at e
  exact e

/-- Outside a call, with nothing coming from the host, the machine stands still. -/
theorem runSteps_idle {s : State} (hq : s.hostQueue = []) (hb : s.busy = false) (n : Nat) : runSteps n s = .next s := by
  have h1 : step s = .next s := by
    rw [step_block hq]
    unfold State.busy at hb
    unfold blockStep
    cases hp : s.phase <;> simp_all [Phase.busy]
  induction n with
  | zero => rfl
  | succ n ih => rw [runSteps_succ_next h1, ih]

end Sys2Proof.Machine
end

