-- ==== Sys2Proof/Laws/PerInstr.lean ====
section
/-! SUPPORT. The family RoundTrip, stated for each instruction: the word of a well-formed instruction decodes to it. -/

namespace Sys2Proof.Laws.RoundTrip

/-- Decoding the encoded word of a well-formed instruction gives the instruction back, with every operand. -/
def Statement (i : Instr) : Prop := i.wellFormed = true → decode (encode i).1 (encode i).2 = .ok i

theorem header_word (b : Bool) (k : Nat) : (2 * k + b.toNat).testBit 0 = b ∧ (2 * k + b.toNat) / 2 = k := by
  cases b <;> (simp [Nat.testBit_zero]; try omega)

/-- A block header word: BFINAL below BTYPE. -/
theorem header (f : Bool) (t : BitVec 2) :
    decode .blockHeader (2 * t.toNat + f.toNat) = .ok (decodeBlockHeader f t) := by
  have ht := t.isLt
  have hf := Bool.toNat_le f
  obtain ⟨h1, h2⟩ := header_word f t.toNat
  have e : (t.toNat * 2 + f.toNat) = 2 * t.toNat + f.toNat := by omega
  unfold decode
  rw [if_neg (by show ¬ 2 ^ 3 ≤ _; omega)]
  simp only [h1, h2, BitVec.ofNat_toNat, BitVec.setWidth_eq]

/-- A host write word: the offset below the data. -/
theorem hostWrite (o : BitVec 8) (x : Word) :
    decode .hostWrite (o.toNat + 2 ^ 8 * x.toNat) = decodeHostWrite o x := by
  have ho := o.isLt
  have hx := x.isLt
  unfold decode
  rw [if_neg (by show ¬ 2 ^ 40 ≤ _; omega)]
  have e1 : BitVec.ofNat 8 (o.toNat + 2 ^ 8 * x.toNat) = o := BitVec.eq_of_toNat_eq (by rw [BitVec.toNat_ofNat]; omega)
  have e2 : BitVec.ofNat 32 ((o.toNat + 2 ^ 8 * x.toNat) / 2 ^ 8) = x :=
    BitVec.eq_of_toNat_eq (by rw [BitVec.toNat_ofNat]; omega)
  simp only [e1, e2]

/-- A host read word: the offset. -/
theorem hostRead (o : BitVec 8) : decode .hostRead o.toNat = decodeHostRead o := by
  unfold decode
  rw [if_neg (by have := o.isLt; show ¬ 2 ^ 8 ≤ _; omega)]
  simp only [BitVec.ofNat_toNat, BitVec.setWidth_eq]

theorem blkStored (f : Bool) : Statement (.blkStored f) := fun _ => header f 0

theorem blkFixed (f : Bool) : Statement (.blkFixed f) := fun _ => header f 1

theorem blkDynamic (f : Bool) : Statement (.blkDynamic f) := fun _ => header f 2

theorem blkReserved (f : Bool) : Statement (.blkReserved f) := fun _ => header f 3

theorem hdrStored (l n : BitVec 16) : Statement (.hdrStored l n) := by
  intro _
  have hl := l.isLt
  have hn := n.isLt
  show decode .storedHeader (l.toNat + 2 ^ 16 * n.toNat) = _
  unfold decode
  rw [if_neg (by show ¬ 2 ^ 32 ≤ _; omega)]
  have e1 : BitVec.ofNat 16 (l.toNat + 2 ^ 16 * n.toNat) = l := BitVec.eq_of_toNat_eq (by rw [BitVec.toNat_ofNat]; omega)
  have e2 : BitVec.ofNat 16 ((l.toNat + 2 ^ 16 * n.toNat) / 2 ^ 16) = n :=
    BitVec.eq_of_toNat_eq (by rw [BitVec.toNat_ofNat]; omega)
  simp only [e1, e2]

theorem hdrDynamic (h d : BitVec 5) (c : BitVec 4) : Statement (.hdrDynamic h d c) := by
  intro _
  have hh := h.isLt
  have hd := d.isLt
  have hc := c.isLt
  show decode .dynamicHeader (h.toNat + 2 ^ 5 * d.toNat + 2 ^ 10 * c.toNat) = _
  generalize hw : h.toNat + 2 ^ 5 * d.toNat + 2 ^ 10 * c.toNat = w
  unfold decode
  rw [if_neg (by show ¬ 2 ^ 14 ≤ _; omega)]
  have e1 : BitVec.ofNat 5 w = h := BitVec.eq_of_toNat_eq (by rw [BitVec.toNat_ofNat]; omega)
  have e2 : BitVec.ofNat 5 (w / 2 ^ 5) = d := BitVec.eq_of_toNat_eq (by rw [BitVec.toNat_ofNat]; omega)
  have e3 : BitVec.ofNat 4 (w / 2 ^ 10) = c := BitVec.eq_of_toNat_eq (by rw [BitVec.toNat_ofNat]; omega)
  simp only [e1, e2, e3]

theorem lit (b : Byte) : Statement (.lit b) := by
  intro _
  have hb := b.isLt
  show decode .litlenSymbol b.toNat = _
  unfold decode
  rw [if_neg (by show ¬ 2 ^ 9 ≤ _; omega)]
  simp only [decodeLitlen, if_pos hb, BitVec.ofNat_toNat, BitVec.setWidth_eq]

theorem eob : Statement .eob := fun _ => by decide

theorem len257 : Statement .len257 := fun _ => by decide

theorem len258 : Statement .len258 := fun _ => by decide

theorem len259 : Statement .len259 := fun _ => by decide

theorem len260 : Statement .len260 := fun _ => by decide

theorem len261 : Statement .len261 := fun _ => by decide

theorem len262 : Statement .len262 := fun _ => by decide

theorem len263 : Statement .len263 := fun _ => by decide

theorem len264 : Statement .len264 := fun _ => by decide

theorem len265 : Statement .len265 := fun _ => by decide

theorem len266 : Statement .len266 := fun _ => by decide

theorem len267 : Statement .len267 := fun _ => by decide

theorem len268 : Statement .len268 := fun _ => by decide

theorem len269 : Statement .len269 := fun _ => by decide

theorem len270 : Statement .len270 := fun _ => by decide

theorem len271 : Statement .len271 := fun _ => by decide

theorem len272 : Statement .len272 := fun _ => by decide

theorem len273 : Statement .len273 := fun _ => by decide

theorem len274 : Statement .len274 := fun _ => by decide

theorem len275 : Statement .len275 := fun _ => by decide

theorem len276 : Statement .len276 := fun _ => by decide

theorem len277 : Statement .len277 := fun _ => by decide

theorem len278 : Statement .len278 := fun _ => by decide

theorem len279 : Statement .len279 := fun _ => by decide

theorem len280 : Statement .len280 := fun _ => by decide

theorem len281 : Statement .len281 := fun _ => by decide

theorem len282 : Statement .len282 := fun _ => by decide

theorem len283 : Statement .len283 := fun _ => by decide

theorem len284 : Statement .len284 := fun _ => by decide

theorem len285 : Statement .len285 := fun _ => by decide

theorem litlenInvalid286 : Statement .litlenInvalid286 := fun _ => by decide

theorem litlenInvalid287 : Statement .litlenInvalid287 := fun _ => by decide

theorem dist0 : Statement .dist0 := fun _ => by decide

theorem dist1 : Statement .dist1 := fun _ => by decide

theorem dist2 : Statement .dist2 := fun _ => by decide

theorem dist3 : Statement .dist3 := fun _ => by decide

theorem dist4 : Statement .dist4 := fun _ => by decide

theorem dist5 : Statement .dist5 := fun _ => by decide

theorem dist6 : Statement .dist6 := fun _ => by decide

theorem dist7 : Statement .dist7 := fun _ => by decide

theorem dist8 : Statement .dist8 := fun _ => by decide

theorem dist9 : Statement .dist9 := fun _ => by decide

theorem dist10 : Statement .dist10 := fun _ => by decide

theorem dist11 : Statement .dist11 := fun _ => by decide

theorem dist12 : Statement .dist12 := fun _ => by decide

theorem dist13 : Statement .dist13 := fun _ => by decide

theorem dist14 : Statement .dist14 := fun _ => by decide

theorem dist15 : Statement .dist15 := fun _ => by decide

theorem dist16 : Statement .dist16 := fun _ => by decide

theorem dist17 : Statement .dist17 := fun _ => by decide

theorem dist18 : Statement .dist18 := fun _ => by decide

theorem dist19 : Statement .dist19 := fun _ => by decide

theorem dist20 : Statement .dist20 := fun _ => by decide

theorem dist21 : Statement .dist21 := fun _ => by decide

theorem dist22 : Statement .dist22 := fun _ => by decide

theorem dist23 : Statement .dist23 := fun _ => by decide

theorem dist24 : Statement .dist24 := fun _ => by decide

theorem dist25 : Statement .dist25 := fun _ => by decide

theorem dist26 : Statement .dist26 := fun _ => by decide

theorem dist27 : Statement .dist27 := fun _ => by decide

theorem dist28 : Statement .dist28 := fun _ => by decide

theorem dist29 : Statement .dist29 := fun _ => by decide

theorem distInvalid30 : Statement .distInvalid30 := fun _ => by decide

theorem distInvalid31 : Statement .distInvalid31 := fun _ => by decide

theorem clLen (n : BitVec 4) : Statement (.clLen n) := by
  intro _
  have hn := n.isLt
  show decode .clenSymbol n.toNat = _
  unfold decode
  rw [if_neg (by show ¬ 2 ^ 5 ≤ _; omega)]
  simp only [decodeClen, if_pos hn, BitVec.ofNat_toNat, BitVec.setWidth_eq]

theorem clRepeatPrev : Statement .clRepeatPrev := fun _ => by decide

theorem clRepeatZeroShort : Statement .clRepeatZeroShort := fun _ => by decide

theorem clRepeatZeroLong : Statement .clRepeatZeroLong := fun _ => by decide

theorem hostStart (x : Word) : Statement (.hostStart x) := fun _ => hostWrite 0x00 x

theorem hostWriteInLen (x : Word) : Statement (.hostWriteInLen x) := fun _ => hostWrite 0x08 x

theorem hostReadStatus : Statement .hostReadStatus := fun _ => by decide

theorem hostReadOutLen : Statement .hostReadOutLen := fun _ => by decide

theorem hostReadInPos : Statement .hostReadInPos := fun _ => by decide

theorem hostReadInBits : Statement .hostReadInBits := fun _ => by decide

theorem hostReadInSize : Statement .hostReadInSize := fun _ => by decide

theorem hostReadOutSize : Statement .hostReadOutSize := fun _ => by decide

theorem hostWriteIgnored (o : BitVec 8) (x : Word) : Statement (.hostWriteIgnored o x) := by
  intro h
  have h : writeIgnoredOffset o = true := h
  simp only [writeIgnoredOffset, Bool.and_eq_true, bne_iff_ne, ne_eq] at h
  obtain ⟨⟨h1, h2⟩, h3⟩ := h
  refine (hostWrite o x).trans ?_
  unfold decodeHostWrite
  rw [h1, if_neg h2, if_neg h3]
  rfl

theorem hostReadReserved (o : BitVec 8) : Statement (.hostReadReserved o) := by
  intro h
  have all : ∀ p : Fin 256, readReservedOffset (BitVec.ofFin p) = true →
      decodeHostRead (BitVec.ofFin p) = .ok (.hostReadReserved (BitVec.ofFin p)) := by decide +kernel
  exact (hostRead o).trans (all o.toFin h)

end Sys2Proof.Laws.RoundTrip
end

