-- ==== Sys2Proof/Tests/Slice0.lean ====
section
/-! SUPPORT. The model's own tests: what WellFormed and the decoder refuse, every row decoded from a word written out from
the spec's encoding, the spec's worked examples one operation or one step at a time, and for every statement with hypotheses
a state and operands that meet them. -/

namespace Sys2Proof.Machine.Tests

/-! ### WellFormed refuses -/

/-- R97: an offset that is not a multiple of 4. -/
theorem test_illformed_misaligned_offsets :
    (Instr.hostWriteIgnored 0x05 0).wellFormed = false ∧ (Instr.hostReadReserved 0x22).wellFormed = false := by decide

/-- R388: CTRL and IN_LEN are not ignored by a write. -/
theorem test_illformed_written_offsets :
    (Instr.hostWriteIgnored 0x00 1).wellFormed = false ∧ (Instr.hostWriteIgnored 0x08 1).wellFormed = false := by decide

/-- R388: the registers of the map are not reserved. -/
theorem test_illformed_readable_offsets :
    (Instr.hostReadReserved 0x04).wellFormed = false ∧ (Instr.hostReadReserved 0x1C).wellFormed = false := by decide

theorem test_wellformed_boundary_offsets :
    (Instr.hostWriteIgnored 0x04 0).wellFormed = true ∧ (Instr.hostWriteIgnored 0xFC 0).wellFormed = true ∧
    (Instr.hostReadReserved 0x00).wellFormed = true ∧ (Instr.hostReadReserved 0x20).wellFormed = true := by decide

/-! ### The decoder -/

/-- R124, R131, opcode_table.json: `00F`, `01F`, `10F`, `11F`. -/
theorem test_decode_block_headers :
    ∀ p ∈ ([(0b000, .blkStored false), (0b001, .blkStored true), (0b010, .blkFixed false), (0b011, .blkFixed true),
       (0b100, .blkDynamic false), (0b101, .blkDynamic true), (0b110, .blkReserved false),
       (0b111, .blkReserved true)] : List (Nat × Instr)),
      decode .blockHeader p.1 = .ok p.2 := by decide

/-- R123: LEN in the first two bytes, NLEN in the next two. -/
theorem test_decode_stored_header :
    ∀ p ∈ ([(0xFFFA0005, .hdrStored 0x0005 0xFFFA), (0xFFFFFFFF, .hdrStored 0xFFFF 0xFFFF),
       (0x00008001, .hdrStored 0x8001 0x0000)] : List (Nat × Instr)),
      decode .storedHeader p.1 = .ok p.2 := by decide

/-- R127: 5, 5 and 4 bits, the first field lowest. -/
theorem test_decode_dynamic_header :
    ∀ p ∈ ([(0b11110000011101, .hdrDynamic 29 0 15), (0b00001111000000, .hdrDynamic 0 30 0),
       (0b10000000111110, .hdrDynamic 30 1 8)] : List (Nat × Instr)),
      decode .dynamicHeader p.1 = .ok p.2 := by decide

/-- R132: 0..255 literals, 256 the end of block. -/
theorem test_decode_literals :
    ∀ p ∈ ([(0, .lit 0x00), (65, .lit 0x41), (255, .lit 0xFF), (256, .eob)] : List (Nat × Instr)),
      decode .litlenSymbol p.1 = .ok p.2 := by decide

/-- R132, R134: symbols 257 to 271. -/
theorem test_decode_length_symbols_low :
    ∀ p ∈ ([(257, .len257), (258, .len258), (259, .len259), (260, .len260), (261, .len261), (262, .len262),
       (263, .len263), (264, .len264), (265, .len265), (266, .len266), (267, .len267), (268, .len268),
       (269, .len269), (270, .len270), (271, .len271)] : List (Nat × Instr)),
      decode .litlenSymbol p.1 = .ok p.2 := by decide

/-- R132, R134: symbols 272 to 287. -/
theorem test_decode_length_symbols_high :
    ∀ p ∈ ([(272, .len272), (273, .len273), (274, .len274), (275, .len275), (276, .len276), (277, .len277),
       (278, .len278), (279, .len279), (280, .len280), (281, .len281), (282, .len282), (283, .len283),
       (284, .len284), (285, .len285), (286, .litlenInvalid286), (287, .litlenInvalid287)] : List (Nat × Instr)),
      decode .litlenSymbol p.1 = .ok p.2 := by decide

/-- R133, R134: symbols 0 to 15. -/
theorem test_decode_distance_symbols_low :
    ∀ p ∈ ([(0b00000, .dist0), (0b00001, .dist1), (0b00010, .dist2), (0b00011, .dist3), (0b00100, .dist4),
       (0b00101, .dist5), (0b00110, .dist6), (0b00111, .dist7), (0b01000, .dist8), (0b01001, .dist9),
       (0b01010, .dist10), (0b01011, .dist11), (0b01100, .dist12), (0b01101, .dist13), (0b01110, .dist14),
       (0b01111, .dist15)] : List (Nat × Instr)),
      decode .distSymbol p.1 = .ok p.2 := by decide

/-- R133, R134: symbols 16 to 31. -/
theorem test_decode_distance_symbols_high :
    ∀ p ∈ ([(0b10000, .dist16), (0b10001, .dist17), (0b10010, .dist18), (0b10011, .dist19), (0b10100, .dist20),
       (0b10101, .dist21), (0b10110, .dist22), (0b10111, .dist23), (0b11000, .dist24), (0b11001, .dist25),
       (0b11010, .dist26), (0b11011, .dist27), (0b11100, .dist28), (0b11101, .dist29), (0b11110, .distInvalid30),
       (0b11111, .distInvalid31)] : List (Nat × Instr)),
      decode .distSymbol p.1 = .ok p.2 := by decide

/-- R135. -/
theorem test_decode_code_length_symbols :
    ∀ p ∈ ([(0, .clLen 0), (7, .clLen 7), (15, .clLen 15), (16, .clRepeatPrev), (17, .clRepeatZeroShort),
       (18, .clRepeatZeroLong)] : List (Nat × Instr)),
      decode .clenSymbol p.1 = .ok p.2 := by decide

/-- R139, R388: offset in the low byte, data above it. -/
theorem test_decode_host_writes :
    ∀ p ∈ ([(0x0000000100, .hostStart 1), (0x0000000A08, .hostWriteInLen 10),
       (0x0000000104, .hostWriteIgnored 0x04 1), (0xFFFFFFFF1C, .hostWriteIgnored 0x1C 0xFFFFFFFF),
       (0x00000000FC, .hostWriteIgnored 0xFC 0)] : List (Nat × Instr)),
      decode .hostWrite p.1 = .ok p.2 := by decide

/-- R50, R139, R388. -/
theorem test_decode_host_reads :
    ∀ p ∈ ([(0x04, .hostReadStatus), (0x0C, .hostReadOutLen), (0x10, .hostReadInPos), (0x14, .hostReadInBits),
       (0x18, .hostReadInSize), (0x1C, .hostReadOutSize), (0x20, .hostReadReserved 0x20),
       (0xFC, .hostReadReserved 0xFC), (0x00, .hostReadReserved 0x00)] : List (Nat × Instr)),
      decode .hostRead p.1 = .ok p.2 := by decide

/-- What the decoder refuses, by name: symbols with no row (R132, R135), misaligned offsets (R97), words too wide, and the
read of IN_LEN, which has no row (log entry 16). -/
theorem test_decode_refuses :
    decode .litlenSymbol 288 = .error .noLitlenSymbol ∧ decode .clenSymbol 19 = .error .noClenSymbol ∧
    decode .hostWrite 0x01 = .error .misalignedOffset ∧ decode .hostRead 0x06 = .error .misalignedOffset ∧
    decode .hostRead 0x08 = .error .inLenReadHasNoRow ∧ decode .blockHeader 8 = .error .wordTooWide ∧
    decode .distSymbol 32 = .error .wordTooWide := by decide

/-! ### Small states -/

/-- A running call in the middle of a block of type `btype` whose next element is `e`, over a stream `bytes`. -/
def running (bytes : List Byte) (c : Cursor) (btype : BitVec 2) (e : Element) : State :=
  { State.reset with
    inMem := bytes.zipIdx.map (fun p => (p.2, p.1)), inLen := BitVec.ofNat 32 bytes.length, cursor := c
    phase := .decodeBlock, btype := btype, expect := e }

/-- The same in another phase. -/
def running.inPhase (p : Phase) (bytes : List Byte) (c : Cursor) : State :=
  { running bytes c 0 .storedHeader with phase := p }

/-- The bytes `bs` already in the output. -/
def withOutput (bs : List Byte) (s : State) : State :=
  { s with outMem := bs.zipIdx.map (fun p => (p.2, p.1)), outLen := BitVec.ofNat 32 bs.length }

/-- A dynamic block with `hlit` and `hdist`, and the bit lengths so far. -/
def withLengths (hlit hdist : Nat) (lens : List (BitVec 4)) (s : State) : State :=
  { s with hlit := hlit, hdist := hdist, lens := lens }

/-- One field of the state an outcome answers. -/
def field {α : Type} (f : State → α) : Out → Option α
  | .next s => some (f s)
  | .fault _ => none
  | .refused _ => none

/-- The produced bytes an outcome answers, read from the listed cells. -/
def output : Out → Option (List (Option Byte)) :=
  field fun s => (List.range s.outLen.toNat).map (Memory.read s.outMem)

/-- Phase, kind and cause an outcome answers. -/
def ending : Out → Option (Phase × BitVec 2 × BitVec 8) := field fun s => (s.phase, s.errKind, s.errCause)

/-! ### The bit cursor: the examples of 40_bit_cursor.md and the vectors BC1 to BC10 -/

theorem test_read_bits_example :
    readBits 3 (running [0xB5, 0x01] ⟨0, 8⟩ 1 .litlen) = .ok (5, ⟨0, 5⟩) ∧
    readBits 6 (running [0xB5, 0x01] ⟨0, 5⟩ 1 .litlen) = .ok (54, ⟨1, 7⟩) ∧
    readBits 16 (running [0xB5, 0x01] ⟨0, 8⟩ 1 .litlen) = .ok (0x01B5, ⟨2, 8⟩) := by decide

theorem test_read_bits_bounds :
    readBits 17 (running [0xB5, 0x01] ⟨0, 8⟩ 1 .litlen) = .error .endOfInput ∧
    readBits 0 (running [0xB5, 0x01] ⟨2, 8⟩ 1 .litlen) = .ok (0, ⟨2, 8⟩) ∧
    readBits 33 (running [0xB5, 0x01] ⟨0, 8⟩ 1 .litlen) = .error .internalReadWidth := by decide

theorem test_peek_and_skip_examples :
    peekBits 3 (running [0xB5] ⟨0, 8⟩ 1 .litlen) = .ok 5 ∧
    skipBits 6 (running [0xB5, 0x01] ⟨0, 5⟩ 1 .litlen) = .ok ⟨1, 7⟩ ∧
    peekBits 8 (running [0xB5, 0x01] ⟨1, 7⟩ 1 .litlen) = .error .endOfInput := by decide

theorem test_read_bytes_example :
    readBytes 4 (running [0x01, 0x05, 0x00, 0xFA, 0xFF, 0x48] ⟨1, 8⟩ 0 .storedHeader)
      = .ok ([0x05, 0x00, 0xFA, 0xFF], ⟨5, 8⟩) ∧
    readBytes 4 (running [0x01, 0x05, 0x00, 0xFA] ⟨1, 8⟩ 0 .storedHeader) = .error .endOfInput ∧
    readBytes 1 (running [0x01] ⟨0, 5⟩ 0 .storedHeader) = .error .internalUnalignedRead := by decide

theorem test_align_examples :
    (⟨0, 5⟩ : Cursor).align = ⟨1, 8⟩ ∧ (⟨1, 8⟩ : Cursor).align = ⟨1, 8⟩ ∧ (⟨1, 7⟩ : Cursor).align = ⟨2, 8⟩ := by decide

/-! ### Huffman tables: the example of R191, the vectors B1 to B5 and Y1 to Y9 -/

theorem test_build_example :
    build [3, 3, 3, 3, 3, 2, 4, 4] =
      [⟨0b010, 3, 0⟩, ⟨0b011, 3, 1⟩, ⟨0b100, 3, 2⟩, ⟨0b101, 3, 3⟩, ⟨0b110, 3, 4⟩, ⟨0b00, 2, 5⟩, ⟨0b1110, 4, 6⟩,
       ⟨0b1111, 4, 7⟩] := by decide

theorem test_build_odd_tables :
    build [0, 0, 0] = [] ∧ build [1] = [⟨0, 1, 0⟩] ∧ build [0, 2, 0, 2] = [⟨0b00, 2, 1⟩, ⟨0b01, 2, 3⟩] ∧
    build [1, 1, 1] = [⟨0, 1, 0⟩, ⟨1, 1, 1⟩, ⟨2, 1, 2⟩] := by decide

theorem test_decode_fixed_vectors :
    decodeSymbol fixedLitlen 7 9 (running [0x00] ⟨0, 8⟩ 1 .litlen) = .ok (256, ⟨0, 1⟩) ∧
    decodeSymbol fixedLitlen 7 9 (running [0x8E] ⟨0, 8⟩ 1 .litlen) = .ok (65, ⟨1, 8⟩) ∧
    decodeSymbol fixedLitlen 7 9 (running [0xFF, 0x01] ⟨0, 8⟩ 1 .litlen) = .ok (255, ⟨1, 7⟩) ∧
    decodeSymbol fixedLitlen 7 9 (running [0x00] ⟨0, 6⟩ 1 .litlen) = .error .endOfInput := by decide +kernel

theorem test_decode_odd_tables :
    decodeSymbol (build [1, 1, 1]) 1 15 (running [0x01] ⟨0, 8⟩ 2 .litlen) = .ok (1, ⟨0, 7⟩) ∧
    decodeSymbol (build [0, 2, 0, 2]) 1 15 (running [0x03, 0x00] ⟨0, 8⟩ 2 .litlen) = .error .noMatchingCode ∧
    decodeSymbol (build [0, 2, 0, 2]) 1 15 (running [0xC0] ⟨0, 2⟩ 2 .litlen) = .error .endOfInput ∧
    decodeSymbol [] 1 15 (running [0x00, 0x00] ⟨0, 8⟩ 2 .litlen) = .error .noMatchingCode ∧
    decodeSymbol (build [1]) 1 15 (running [0x00] ⟨0, 1⟩ 2 .litlen) = .ok (0, ⟨1, 8⟩) := by decide

/-! ### Block headers and stored blocks: R231, R232, E-btype3, program P1 -/

theorem test_read_final_example :
    field (fun s => (s.bfinal, s.cursor, s.phase)) (step (running.inPhase .readFinal [0x01] ⟨0, 8⟩))
      = some (true, ⟨0, 7⟩, .readType) := by decide

theorem test_read_type_examples :
    field (fun s => (s.btype, s.cursor, s.phase)) (step (running.inPhase .readType [0x05] ⟨0, 7⟩))
      = some (2, ⟨0, 5⟩, .decodeBlock) ∧
    field (fun s => (s.btype, s.cursor)) (step (running.inPhase .readType [0x01, 0x05] ⟨0, 7⟩)) = some (0, ⟨1, 8⟩) ∧
    field (fun s => (s.btype, s.cursor)) (step (running.inPhase .readType [0x03, 0x00] ⟨0, 7⟩)) = some (1, ⟨0, 5⟩) ∧
    ending (step (running.inPhase .readType [0x07] ⟨0, 7⟩)) = some (.error, 1, 0x02) := by decide

theorem test_empty_stream_fails :
    ending (step (running.inPhase .readFinal [] ⟨0, 8⟩)) = some (.error, 1, 0x01) := by decide

theorem test_stored_hello :
    let s := { running [0x01, 0x05, 0x00, 0xFA, 0xFF, 0x48, 0x65, 0x6C, 0x6C, 0x6F] ⟨1, 8⟩ 0 .storedHeader with bfinal := true }
    output (step s) = some [some 0x48, some 0x65, some 0x6C, some 0x6C, some 0x6F] ∧
    field (fun s => (s.phase, s.cursor)) (step s) = some (.done, ⟨10, 8⟩) := by decide

theorem test_stored_complement :
    ending (exec (.hdrStored 0x0005 0xFFFB) (running [] ⟨0, 8⟩ 0 .storedHeader)) = some (.error, 1, 0x03) ∧
    field (fun s => (s.phase, s.outLen)) (exec (.hdrStored 0x0000 0xFFFF) (running [] ⟨0, 8⟩ 0 .storedHeader))
      = some (.readFinal, 0) := by decide

/-! ### Literals, lengths, distances and copies: R273, R275, R333, R334, R337, R360, R361, R363 -/

theorem test_literal_a :
    output (step (running [0x73, 0x04, 0x00] ⟨0, 5⟩ 1 .litlen)) = some [some 0x41] ∧
    field (fun s => s.cursor) (step (running [0x73, 0x04, 0x00] ⟨0, 5⟩ 1 .litlen)) = some ⟨1, 5⟩ := by decide +kernel

theorem test_append_example :
    output (exec (.lit 0x63) (withOutput [0x61, 0x62] (running [] ⟨0, 8⟩ 1 .litlen)))
      = some [some 0x61, some 0x62, some 0x63] := by decide

theorem test_output_overflow :
    ending (exec (.lit 0x63) { running [] ⟨0, 8⟩ 1 .litlen with params := ⟨1, 1⟩, outLen := 1 })
      = some (.error, 3, 0x80) := by decide

theorem test_end_of_block :
    field (fun s => (s.phase, s.cursor)) (step { running [0x03, 0x00] ⟨0, 5⟩ 1 .litlen with bfinal := true })
      = some (.done, ⟨1, 6⟩) := by decide +kernel

theorem test_length_examples :
    field (fun s => (s.copyLen, s.cursor)) (exec .len257 (running [] ⟨0, 8⟩ 1 .litlen)) = some (3, ⟨0, 8⟩) ∧
    field (fun s => (s.copyLen, s.cursor)) (exec .len266 (running [0x01] ⟨0, 8⟩ 1 .litlen)) = some (14, ⟨0, 7⟩) ∧
    field (fun s => (s.copyLen, s.cursor)) (exec .len277 (running [0x05] ⟨0, 8⟩ 1 .litlen)) = some (72, ⟨0, 4⟩) ∧
    field (fun s => s.copyLen) (exec .len284 (running [0x1F] ⟨0, 8⟩ 1 .litlen)) = some 258 ∧
    field (fun s => s.copyLen) (exec .len285 (running [] ⟨0, 8⟩ 1 .litlen)) = some 258 := by decide

/-- R275: the field bits 0,0,0,0,1 are distance symbol 1, whose base is 2. -/
theorem test_fixed_distance_field :
    fetchDistance (running [0x10] ⟨0, 8⟩ 1 .distance) = .ok (.dist1, ⟨0, 3⟩) ∧
    fetchDistance (running [0x0F] ⟨0, 8⟩ 1 .distance) = .ok (.distInvalid30, ⟨0, 3⟩) := by decide

theorem test_distance_example :
    field (fun s => (s.copyDist, s.cursor))
      (exec .dist4 { withOutput [1, 2, 3, 4, 5, 6] (running [0x01] ⟨0, 8⟩ 1 .distance) with copyLen := 3 })
      = some (6, ⟨0, 7⟩) := by decide

theorem test_copy_overlapping :
    output (exec .dist1 { withOutput [0x61, 0x62] (running [] ⟨0, 8⟩ 1 .distance) with copyLen := 5 })
      = some [some 0x61, some 0x62, some 0x61, some 0x62, some 0x61, some 0x62, some 0x61] ∧
    output (exec .dist0 { withOutput [0x41] (running [] ⟨0, 8⟩ 1 .distance) with copyLen := 3 })
      = some [some 0x41, some 0x41, some 0x41, some 0x41] := by decide

theorem test_distance_beyond_output :
    ending (exec .dist1 { withOutput [0x41] (running [] ⟨0, 8⟩ 1 .distance) with copyLen := 3 })
      = some (.error, 1, 0x0A) := by decide

theorem test_symbols_out_of_range :
    ending (exec .litlenInvalid286 (running [] ⟨0, 8⟩ 1 .litlen)) = some (.error, 1, 0x05) ∧
    ending (exec .distInvalid30 (running [] ⟨0, 8⟩ 1 .distance)) = some (.error, 1, 0x08) := by decide

/-! ### Dynamic blocks: R292, R294, R298 to R302, R305, R306, R336 -/

theorem test_dynamic_header_ranges :
    ending (exec (.hdrDynamic 30 31 0) (running [] ⟨0, 8⟩ 2 .dynamicHeader)) = some (.error, 1, 0x0B) ∧
    ending (exec (.hdrDynamic 29 30 0) (running [] ⟨0, 8⟩ 2 .dynamicHeader)) = some (.error, 1, 0x0C) ∧
    ending (exec (.hdrDynamic 29 29 0) (running [0xFF] ⟨0, 8⟩ 2 .dynamicHeader)) = some (.error, 1, 0x01) := by decide

/-- R294: the four values 1, 2, 3, 4 go to code-length symbols 16, 17, 18 and 0. -/
theorem test_code_length_order :
    field (fun s => (s.clenLens, s.hlit, s.hdist, s.hclen, s.cursor))
      (exec (.hdrDynamic 0 0 0) (running [0b11010001, 0b00001000] ⟨0, 8⟩ 2 .dynamicHeader))
      = some ([4, 0, 0, 0, 0, 0, 0, 0, 0, 0, 0, 0, 0, 0, 0, 0, 1, 2, 3], 257, 1, 4, ⟨1, 4⟩) := by decide

theorem test_repeat_previous_example :
    field (fun s => s.lens) (exec .clRepeatPrev (withLengths 257 1 [4] (running [0b10] ⟨0, 8⟩ 2 .codeLength)))
      = some [4, 4, 4, 4, 4, 4] ∧
    ending (exec .clRepeatPrev (withLengths 257 1 [] (running [0b10] ⟨0, 8⟩ 2 .codeLength))) = some (.error, 1, 0x0D) := by
  decide

theorem test_repeat_zero_examples :
    field (fun s => s.lens) (exec .clRepeatZeroShort (withLengths 257 1 [] (running [0b111] ⟨0, 8⟩ 2 .codeLength)))
      = some (List.replicate 10 0) ∧
    field (fun s => s.lens) (exec .clRepeatZeroLong (withLengths 257 1 [] (running [86] ⟨0, 8⟩ 2 .codeLength)))
      = some (List.replicate 97 0) := by decide

/-- R302: with 250 of 258 lengths, symbol 18 fails and symbol 17 with r = 8 ends the lengths. -/
theorem test_repeat_overflow_example :
    let s := withLengths 257 1 (List.replicate 250 0) (running [0b101] ⟨0, 8⟩ 2 .codeLength)
    ending (exec .clRepeatZeroLong s) = some (.error, 1, 0x0E) ∧
    field (fun s => (s.lens.length, s.expect, s.distPresent)) (exec .clRepeatZeroShort s)
      = some (258, .litlen, false) := by decide +kernel

/-- R305: a distance length that is not a single 0 gives a distance table; R308: it is taken from the end of `lens`. -/
theorem test_code_length_builds_the_tables :
    field (fun s => (s.expect, s.distPresent, s.distTab, s.litlenTab))
      (exec (.clLen 1) (withLengths 257 1 (List.replicate 256 0 ++ [1]) (running [] ⟨0, 8⟩ 2 .codeLength)))
      = some (.litlen, true, [⟨0, 1, 0⟩], [⟨0, 1, 256⟩]) := by decide +kernel

/-- R306: with the table 97:10, 98:11, 256:0 the bits 1,0 are the literal "a". -/
theorem test_dynamic_literal :
    let s := { running [0b00001101] ⟨0, 8⟩ 2 .litlen with litlenTab := [⟨0b10, 2, 97⟩, ⟨0b11, 2, 98⟩, ⟨0, 1, 256⟩] }
    output (step s) = some [some 0x61] ∧ field (fun s => s.cursor) (step s) = some ⟨0, 6⟩ := by decide

theorem test_no_distance_table :
    ending (exec .len257 (running [] ⟨0, 8⟩ 2 .litlen)) = some (.error, 1, 0x07) := by decide

/-! ### The host: R381 to R388 -/

theorem test_start :
    field (fun s => (s.phase, s.cursor, s.outLen)) (exec (.hostStart 1) { State.reset with inLen := 2, outLen := 7 })
      = some (.readFinal, ⟨0, 8⟩, 0) ∧
    field (fun s => s.phase) (exec (.hostStart 2) State.reset) = some .idle ∧
    ending (exec (.hostStart 1) { State.reset with inLen := 131073 }) = some (.error, 3, 0x81) := by decide

theorem test_write_in_len :
    field (fun s => s.inLen) (exec (.hostWriteInLen 0xFFFFFFFF) State.reset) = some 0xFFFFFFFF ∧
    field (fun s => s.inLen) (exec (.hostWriteInLen 9) (running [1] ⟨0, 8⟩ 1 .litlen)) = some 1 := by decide

theorem test_read_status :
    field (fun s => s.hostWord) (exec .hostReadStatus { State.reset with phase := .error, errKind := 1, errCause := 0x02 })
      = some 0x214 ∧
    field (fun s => s.hostWord) (exec .hostReadStatus (running [] ⟨0, 8⟩ 1 .litlen)) = some 1 := by decide

theorem test_read_result_registers :
    let s := { running [0x03, 0x00] ⟨1, 6⟩ 1 .litlen with phase := .done, outLen := 5 }
    field (fun s => s.hostWord) (exec .hostReadOutLen s) = some 5 ∧
    field (fun s => s.hostWord) (exec .hostReadInPos s) = some 1 ∧
    field (fun s => s.hostWord) (exec .hostReadInBits s) = some 6 ∧
    field (fun s => s.hostWord) (exec .hostReadInBits State.reset) = some 8 ∧
    field (fun s => s.hostWord) (exec .hostReadInSize { s with params := ⟨70000, 80000⟩ }) = some 70000 ∧
    field (fun s => s.hostWord) (exec .hostReadOutSize { s with params := ⟨70000, 80000⟩ }) = some 80000 := by decide

theorem test_ignored_and_reserved :
    field (fun s => (s.inLen, s.phase)) (exec (.hostWriteIgnored 0x18 5) State.reset) = some (0, .idle) ∧
    field (fun s => s.hostWord) (exec (.hostReadReserved 0x20) { State.reset with hostWord := 7 }) = some 0 := by decide

theorem test_host_action_waits :
    let s := { running.inPhase .readFinal [0x01] ⟨0, 8⟩ with hostQueue := [⟨1, .reg ⟨false, .word, 0x04, 0⟩⟩] }
    field (fun s => (s.phase, s.hostQueue)) (step s) = some (.readType, [⟨0, .reg ⟨false, .word, 0x04, 0⟩⟩]) := by decide

/-! ### Witnesses: for each statement with hypotheses, states and operands that meet them, clause by clause -/

/-- The parts of `State.Inv` that can be checked by evaluation. -/
abbrev Checks (s : State) : Prop :=
  s.params.legal = true ∧
  (s.inMem.wf = true ∧ ∀ c ∈ s.inMem, c.1 < s.params.inMemSize.toNat) ∧
  (s.outMem.wf = true ∧ ∀ c ∈ s.outMem, c.1 < s.params.outMemSize.toNat) ∧
  (1 ≤ s.cursor.left.toNat ∧ s.cursor.left.toNat ≤ 8) ∧ s.clenLens.length = 19 ∧ s.lens.length ≤ 316 ∧
  (∀ e ∈ s.metaTab, e.sym < 19 ∧ 1 ≤ e.len ∧ e.len ≤ 15) ∧ (∀ e ∈ s.litlenTab, e.sym < 286 ∧ 1 ≤ e.len ∧ e.len ≤ 15) ∧
  (∀ e ∈ s.distTab, e.sym < 30 ∧ 1 ≤ e.len ∧ e.len ≤ 15) ∧
  (s.busy = true ∨ s.phase = .done →
    s.outLen.toNat ≤ s.params.outMemSize.toNat ∧ ∀ a < s.outLen.toNat, (Memory.read s.outMem a).isSome = true) ∧
  (s.busy = true →
    (1 ≤ s.cursor.left.toNat ∧ s.cursor.left.toNat ≤ 8 ∧ s.cursor.pos.toNat ≤ s.inLen.toNat ∧
      (s.cursor.pos = s.inLen → s.cursor.left = 8)) ∧
    s.inLen.toNat ≤ s.params.inMemSize.toNat ∧ ∀ c ∈ s.outMem, c.1 < s.outLen.toNat) ∧
  (s.phase ≠ .error → s.errKind = 0 ∧ s.errCause = 0) ∧
  (s.inDraw < s.freeDraw ∧ s.outDraw < s.freeDraw ∧ s.inDraw ≠ s.outDraw)

theorem inv_of_checks {s : State} (h : Checks s) (hp : s.phase = .decodeBlock → s.ParserInv)
    (he : s.phase = .error → s.ErrorInv) : s.Inv := by
  obtain ⟨h1, h2, h3, h4, h5, h6, h7, h8, h9, h10, h11, h12, h13⟩ := h
  exact ⟨h1, h2, h3, h4, h5, h6, h7, h8, h9, h10, fun hb => ⟨(h11 hb).1, (h11 hb).2.1, (h11 hb).2.2, hp⟩, h12, he, h13⟩

/-- A machine loaded with the stream `03 00` and its length, about to be started. -/
def ready : State := { State.reset with inMem := [(0, 0x03), (1, 0x00)], inLen := 2 }

/-- The same stream in a bigger IN with other old contents of OUT and another past. -/
def readyOtherwise : State :=
  { ready with params := ⟨262144, 131072⟩, outMem := [(5, 0x77)], phase := .done, cursor := ⟨7, 3⟩, hlit := 300,
               litlenTab := [⟨0, 1, 9⟩] }

/-- A call at its start, in the middle and at a distance, a call that has failed, and one that is done. -/
def started : State := running.inPhase .readFinal [0x03, 0x00] ⟨0, 8⟩

/-- In READ_TYPE. -/
def typing : State := running.inPhase .readType [0x03, 0x00] ⟨0, 7⟩

/-- Before the literal of R273, with one byte of output. -/
def decoding : State := withOutput [0x2A] (running [0x73, 0x04, 0x00] ⟨0, 5⟩ 1 .litlen)

/-- In a fixed block, at a symbol that the input cuts short. -/
def cut : State := running [0x03] ⟨0, 5⟩ 1 .litlen

/-- In a dynamic block whose literal/length table is empty. -/
def lost : State := running [0x00, 0x00] ⟨0, 8⟩ 2 .litlen

/-- After RESERVED_BTYPE. -/
def failed : State := { running.inPhase .error [0x07] ⟨0, 5⟩ with errKind := 1, errCause := 0x02 }

/-- After the empty stream of F-empty. -/
def finished : State := running.inPhase .done [0x03, 0x00] ⟨1, 6⟩

theorem ready_inv : ready.Inv := inv_of_checks (by decide) (fun h => absurd h (by decide)) (fun h => absurd h (by decide))
theorem readyOtherwise_inv : readyOtherwise.Inv := inv_of_checks (by decide) (fun h => absurd h (by decide)) (fun h => absurd h (by decide))
theorem started_inv : started.Inv := inv_of_checks (by decide) (fun h => absurd h (by decide)) (fun h => absurd h (by decide))
theorem typing_inv : typing.Inv := inv_of_checks (by decide) (fun h => absurd h (by decide)) (fun h => absurd h (by decide))
theorem decoding_inv : decoding.Inv := inv_of_checks (by decide) (fun _ => .inl rfl) (fun h => absurd h (by decide))
theorem cut_inv : cut.Inv := inv_of_checks (by decide) (fun _ => .inl rfl) (fun h => absurd h (by decide))
theorem lost_inv : lost.Inv := inv_of_checks (by decide) (fun _ => .inr rfl) (fun h => absurd h (by decide))
theorem failed_inv : failed.Inv :=
  inv_of_checks (by decide) (fun h => absurd h (by decide)) (fun _ => ⟨.reservedBtype, by decide, by decide, by decide⟩)
theorem finished_inv : finished.Inv := inv_of_checks (by decide) (fun h => absurd h (by decide)) (fun h => absurd h (by decide))

/-- The two bytes of R170, at the first bit. -/
def twoBytes : State := running [0xB5, 0x01] ⟨0, 8⟩ 1 .litlen

theorem twoBytes_legal : twoBytes.CursorLegal := by unfold State.CursorLegal; decide

/-- 32 and 33 bits, one bit more than there are, and all of them. -/
theorem witness_ReadBitsPacksEarliestBitLowest :
    twoBytes.CursorLegal ∧ 32 < 33 ∧
    (17 ≤ 32 ∧ 8 * twoBytes.inLen.toNat < twoBytes.cursor.consumed + 17) ∧
    (16 ≤ 32 ∧ twoBytes.cursor.consumed + 16 ≤ 8 * twoBytes.inLen.toNat) := ⟨twoBytes_legal, by decide⟩

theorem witness_PeekAndSkipSplitARead :
    readBits 16 twoBytes = .ok (0x01B5, ⟨2, 8⟩) ∧ readBits 17 twoBytes = .error .endOfInput ∧
    peekBits 0 twoBytes = .ok 0 := by decide

/-- An unaligned cursor, one byte too many, and exactly the bytes there are. -/
theorem witness_ReadBytesTakesWholeBytes :
    cut.cursor.left ≠ 8 ∧
    (twoBytes.cursor.left = 8 ∧ twoBytes.cursor.pos.toNat ≤ twoBytes.inLen.toNat ∧
      twoBytes.inLen.toNat < twoBytes.cursor.pos.toNat + 3 ∧ twoBytes.cursor.pos.toNat + 2 ≤ twoBytes.inLen.toNat) := by
  decide

theorem witness_AlignmentGoesToTheNextByte :
    (twoBytes.CursorLegal ∧ twoBytes.cursor.left = 8) ∧ (cut.CursorLegal ∧ cut.cursor.left ≠ 8) := by
  unfold State.CursorLegal; decide

/-- Lengths up to 15, an over-full table (B5) and its entry, an empty one. -/
theorem witness_tables :
    (∀ L ∈ [1, 1, 1, 15, 0], L ≤ 15) ∧ (⟨2, 1, 2⟩ : Entry) ∈ build [1, 1, 1, 15, 0] ∧
    (2 : Nat) ^ (⟨2, 1, 2⟩ : Entry).len ≤ (⟨2, 1, 2⟩ : Entry).code ∧ [1, 1, 1, 15, 0].length ≤ 288 ∧
    (∀ L ∈ [0, 0, 0], L = 0) := by decide

/-- Too few bits for the widest code tried, and enough. -/
theorem witness_EmptyTableDecodesNothing :
    (∀ L ∈ [0, 0], L = 0) ∧ twoBytes.CursorLegal ∧ 1 ≤ 1 ∧ 1 ≤ 15 ∧ 15 ≤ 15 ∧
    twoBytes.cursor.consumed + 15 ≤ 8 * twoBytes.inLen.toNat ∧
    (cut.CursorLegal ∧ ¬ cut.cursor.consumed + 15 ≤ 8 * cut.inLen.toNat) := by
  unfold State.CursorLegal; decide

/-- A match, the end of the input before one, and no match: vectors Y5, Y7 and Y6. -/
theorem witness_DecodeTakesTheShortestMatchingCode :
    (twoBytes.CursorLegal ∧ twoBytes.cursor.consumed + 1 ≤ 8 * twoBytes.inLen.toNat ∧
      lookup (build [1, 1, 1]) (twoBytes.codeAt twoBytes.cursor.consumed 1) 1 = some 1 ∧
      ∀ M < 1, 1 ≤ M → lookup (build [1, 1, 1]) (twoBytes.codeAt twoBytes.cursor.consumed M) M = none) ∧
    (let s := running [0xC0] ⟨0, 2⟩ 2 .litlen
     s.CursorLegal ∧ 8 * s.inLen.toNat < s.cursor.consumed + 3 ∧
       ∀ M < 3, 1 ≤ M → lookup (build [0, 2, 0, 2]) (s.codeAt s.cursor.consumed M) M = none) ∧
    (let s := running [0x03, 0x00] ⟨0, 8⟩ 2 .litlen
     s.CursorLegal ∧ ∀ L < 16, 1 ≤ L →
       s.cursor.consumed + L ≤ 8 * s.inLen.toNat ∧ lookup (build [0, 2, 0, 2]) (s.codeAt s.cursor.consumed L) L = none) := by
  unfold State.CursorLegal; decide

theorem witness_FixedTableAlwaysYieldsASymbol : cut.CursorLegal := by unfold State.CursorLegal; decide

/-- Bits of one instruction of each format at the cursor of a stream. -/
theorem witness_InstructionBitsDecodeToTheInstruction :
    (let s := running [0b101] ⟨0, 8⟩ 0 .litlen
     (Instr.blkDynamic true).wellFormed = true ∧ s.CursorLegal ∧ s.holdsBits 0 (streamBits .blockHeader 0b101)) ∧
    (let s := running [0x05, 0x00, 0xFA, 0xFF] ⟨0, 8⟩ 0 .storedHeader
     (Instr.hdrStored 5 0xFFFA).wellFormed = true ∧ s.CursorLegal ∧ s.cursor.left = 8 ∧
       s.holdsBits 0 (streamBits .storedHeader 0xFFFA0005)) ∧
    (let s := running [0b00100010, 0b00000100] ⟨0, 8⟩ 2 .dynamicHeader
     s.CursorLegal ∧ s.holdsBits 0 (streamBits .dynamicHeader 0b00010000100010)) ∧
    (let s := running [0xFF, 0x01] ⟨0, 8⟩ 1 .litlen
     s.CursorLegal ∧ s.btype = 1 ∧ s.holdsBits 0 (streamBits .litlenSymbol 255)) ∧
    (let s := running [0x17] ⟨0, 8⟩ 1 .distance
     s.CursorLegal ∧ s.btype = 1 ∧ s.holdsBits 0 (streamBits .distSymbol 29)) ∧
    (let s := { running [0x09] ⟨0, 8⟩ 2 .codeLength with metaTab := build (List.replicate 19 5) }
     s.CursorLegal ∧ s.metaTab = build (List.replicate 19 5) ∧ s.holdsBits 0 (streamBits .clenSymbol 18)) ∧
    (twoBytes.holdsBits 0 (streamBits .hostWrite 0x100) ∧ twoBytes.holdsBits 0 (streamBits .hostRead 0x04)) := by
  unfold State.CursorLegal State.holdsBits
  refine ⟨?_, ?_, ?_, ?_, ?_, ?_, ?_⟩ <;> decide +kernel

theorem witness_DynamicCodesSelectTheirRows :
    let s := { running [0x00] ⟨0, 8⟩ 2 .litlen with
               litlenTab := [⟨0, 1, 285⟩], distTab := [⟨0, 1, 29⟩], metaTab := [⟨0, 1, 18⟩] }
    s.btype = 2 ∧ decodeSymbol s.litlenTab 1 15 s = .ok (285, ⟨0, 7⟩) ∧ encode .len285 = (.litlenSymbol, 285) ∧
    decodeSymbol s.distTab 1 15 s = .ok (29, ⟨0, 7⟩) ∧ encode .dist29 = (.distSymbol, 29) ∧
    decodeSymbol s.metaTab 1 15 s = .ok (18, ⟨0, 7⟩) ∧ encode .clRepeatZeroLong = (.clenSymbol, 18) := by decide

/-- A block header and a literal read by the block, host accesses while idle and while BUSY, an action that waits. -/
theorem witness_StepRunsTheDecodedInstruction :
    (typing.hostQueue = [] ∧ typing.phase = .readType ∧ fetchBlockHeader typing = .ok (.blkFixed false, ⟨0, 5⟩)) ∧
    (decoding.hostQueue = [] ∧ decoding.phase = .decodeBlock ∧ fetchElement decoding = .ok (.lit 0x41, ⟨1, 5⟩)) ∧
    (decodeHostWrite 0x00 1 = .ok (.hostStart 1) ∧ decodeHostRead 0x04 = .ok .hostReadStatus) ∧
    (let s := { ready with hostQueue := [⟨5, .reg ⟨true, .word, 0x00, 1⟩⟩] }
     s.busy = false ∧ s.hostQueue = { wait := 5, action := .reg ⟨true, .word, 0x00, 1⟩ } :: []) ∧
    (let s := { typing with hostQueue := [⟨0, .reg ⟨false, .word, 0x04, 0⟩⟩] }
     s.busy = true ∧ s.hostQueue = { wait := 0, action := .reg ⟨false, .word, 0x04, 0⟩ } :: []) ∧
    (let s := { typing with hostQueue := [⟨1, .reset⟩] }
     s.busy = true ∧ s.hostQueue = { wait := 0 + 1, action := .reset } :: []) := by decide +kernel

theorem witness_FailedReadEndsTheCall :
    Cause.endOfInput.kind ≠ .internalBug ∧
    (let s := running.inPhase .readFinal [] ⟨0, 8⟩
     s.hostQueue = [] ∧ s.phase = .readFinal ∧ readBits 1 s = .error .endOfInput) ∧
    (let s := running.inPhase .readType [0x01] ⟨0, 1⟩
     s.hostQueue = [] ∧ s.phase = .readType ∧ fetchBlockHeader s = .error .endOfInput) ∧
    (cut.hostQueue = [] ∧ cut.phase = .decodeBlock ∧ fetchElement cut = .error .endOfInput) := by decide +kernel

/-- The last bit, and none. -/
theorem witness_ReadFinalReadsTheFlag :
    (let s := running.inPhase .readFinal [0x80] ⟨0, 1⟩
     s.CursorLegal ∧ s.hostQueue = [] ∧ s.phase = .readFinal ∧ s.cursor.consumed < 8 * s.inLen.toNat) ∧
    (let s := running.inPhase .readFinal [] ⟨0, 8⟩
     s.CursorLegal ∧ s.hostQueue = [] ∧ s.phase = .readFinal ∧ s.cursor.consumed = 8 * s.inLen.toNat) := by
  unfold State.CursorLegal; decide

/-- One bit, and the last two. -/
theorem witness_ReadTypeSelectsTheBlockHeader :
    (let s := running.inPhase .readType [0x01] ⟨0, 1⟩
     s.CursorLegal ∧ s.hostQueue = [] ∧ s.phase = .readType ∧ 8 * s.inLen.toNat < s.cursor.consumed + 2) ∧
    (let s := running.inPhase .readType [0x01] ⟨0, 2⟩
     s.CursorLegal ∧ s.hostQueue = [] ∧ s.phase = .readType ∧ s.cursor.consumed + 2 ≤ 8 * s.inLen.toNat) := by
  unfold State.CursorLegal; decide

/-- A step that answers, in the block and from each kind of host action. -/
theorem witness_PhaseTransitionsAreTheListedOnes :
    (∃ t, step started = .next t) ∧ (∃ t, step { ready with hostQueue := [⟨0, .reg ⟨true, .word, 0x00, 1⟩⟩] } = .next t) ∧
    (∃ t, step { typing with hostQueue := [⟨0, .reset⟩] } = .next t) := ⟨⟨_, rfl⟩, ⟨_, rfl⟩, ⟨_, rfl⟩⟩

/-- A stored block whose bytes are exactly there, with exactly the room; and the empty one at the end of the input. -/
theorem witness_StoredBlockCopiesItsBytesVerbatim :
    (let s := { running [0x48, 0x65] ⟨0, 8⟩ 0 .storedHeader with params := ⟨2, 2⟩ }
     s.cursor.left = 8 ∧ s.cursor.pos.toNat + (2 : BitVec 16).toNat ≤ s.inLen.toNat ∧
       s.outLen.toNat + (2 : BitVec 16).toNat ≤ s.params.outMemSize.toNat) ∧
    (let s := running [] ⟨0, 8⟩ 0 .storedHeader
     s.cursor.left = 8 ∧ s.cursor.pos.toNat + (0 : BitVec 16).toNat ≤ s.inLen.toNat ∧
       s.outLen.toNat + (0 : BitVec 16).toNat ≤ s.params.outMemSize.toNat) := by decide

theorem witness_StoredComplementMismatchFails :
    (0xFFFB : BitVec 16) ≠ ~~~(0x0005 : BitVec 16) ∧ (0xFFFA : BitVec 16) = ~~~(0x0005 : BitVec 16) := by decide

/-- One byte short of input (and no room either); one byte short of room. -/
theorem witness_StoredBlockFailsInOrder :
    (let s := { running [0x48] ⟨0, 8⟩ 0 .storedHeader with params := ⟨1, 1⟩ }
     s.cursor.left = 8 ∧ s.cursor.pos.toNat ≤ s.inLen.toNat ∧
       s.inLen.toNat < s.cursor.pos.toNat + (2 : BitVec 16).toNat) ∧
    (let s := { running [0x48, 0x65] ⟨0, 8⟩ 0 .storedHeader with params := ⟨2, 1⟩ }
     s.cursor.pos.toNat + (2 : BitVec 16).toNat ≤ s.inLen.toNat ∧ s.outLen.toNat ≤ s.params.outMemSize.toNat ∧
       s.params.outMemSize.toNat < s.outLen.toNat + (2 : BitVec 16).toNat) := by decide

/-- Room for one byte, and none. -/
theorem witness_LiteralAppendsItsByte :
    (let s := { running [] ⟨0, 8⟩ 1 .litlen with params := ⟨1, 1⟩ }
     s.outLen.toNat < s.params.outMemSize.toNat) ∧
    (let s := { withOutput [7] (running [] ⟨0, 8⟩ 1 .litlen) with params := ⟨1, 1⟩ }
     s.outLen = s.params.outMemSize) := by decide

theorem witness_EndOfBlockReturnsToTheDispatcher :
    ({ decoding with bfinal := true } : State).bfinal = true ∧ decoding.bfinal = false := by decide

/-- A length row in a fixed block and in a dynamic one, its last extra bits the last bits of the stream. -/
theorem witness_LengthSymbolsGiveBasePlusExtra :
    (Instr.len284, 227, 5) ∈ lengthRows ∧
    (let s := running [0xF8] ⟨0, 5⟩ 1 .litlen
     s.CursorLegal ∧ s.cursor.consumed + 5 ≤ 8 * s.inLen.toNat ∧ (s.btype = 2 → s.distPresent = true)) ∧
    (let s := { running [0xF8] ⟨0, 5⟩ 2 .litlen with distPresent := true }
     s.CursorLegal ∧ s.btype = 2 ∧ s.distPresent = true) := by
  unfold State.CursorLegal; decide

theorem witness_LengthSymbolsFailInOrder :
    (Instr.len284, 227, 5) ∈ lengthRows ∧ (Instr.len257, 3, 0) ∈ lengthRows ∧
    (let s := running [0xF8] ⟨0, 4⟩ 1 .litlen
     s.CursorLegal ∧ 8 * s.inLen.toNat < s.cursor.consumed + 5) ∧
    (let s := running [] ⟨0, 8⟩ 2 .litlen
     s.CursorLegal ∧ s.cursor.consumed + 0 ≤ 8 * s.inLen.toNat ∧ s.btype = 2 ∧ s.distPresent = false) := by
  unfold State.CursorLegal; decide

/-- The distance reaches the first byte of the output, and the copy fills OUT. -/
theorem witness_DistanceSymbolsCopyFromTheOutput :
    (Instr.dist4, 5, 1) ∈ distanceRows ∧
    (let s := { withOutput [1, 2, 3, 4, 5, 6] (running [0x80] ⟨0, 1⟩ 1 .distance) with copyLen := 3, params := ⟨9, 9⟩ }
     s.CursorLegal ∧ s.cursor.consumed + 1 ≤ 8 * s.inLen.toNat ∧ 6 = 5 + s.fieldAt s.cursor.consumed 1 ∧
       6 ≤ s.outLen.toNat ∧ s.outLen.toNat + s.copyLen ≤ s.params.outMemSize.toNat) := by
  unfold State.CursorLegal; decide

/-- No extra bit left; a distance one beyond the output; one byte too little room. -/
theorem witness_DistanceSymbolsFailInOrder :
    (Instr.dist4, 5, 1) ∈ distanceRows ∧
    (let s := running [] ⟨0, 8⟩ 1 .distance
     s.CursorLegal ∧ 8 * s.inLen.toNat < s.cursor.consumed + 1) ∧
    (let s := withOutput [1, 2, 3, 4] (running [0x00] ⟨0, 1⟩ 1 .distance)
     s.CursorLegal ∧ s.cursor.consumed + 1 ≤ 8 * s.inLen.toNat ∧
       s.outLen.toNat < 5 + s.fieldAt s.cursor.consumed 1) ∧
    (let s := { withOutput [1, 2, 3, 4, 5] (running [0x00] ⟨0, 1⟩ 1 .distance) with copyLen := 3, params := ⟨9, 7⟩ }
     s.CursorLegal ∧ s.cursor.consumed + 1 ≤ 8 * s.inLen.toNat ∧
       5 + s.fieldAt s.cursor.consumed 1 ≤ s.outLen.toNat ∧ s.outLen.toNat ≤ s.params.outMemSize.toNat ∧
       s.params.outMemSize.toNat < s.outLen.toNat + s.copyLen) := by
  unfold State.CursorLegal; decide

theorem witness_WrappingCopiesWriteTheSameBytes :
    1 ≤ 1 ∧ 1 ≤ decoding.outLen.toNat ∧ decoding.outLen.toNat ≤ decoding.params.outMemSize.toNat := by decide

/-- The smallest counts out of range, HDIST with HLIT at its maximum. -/
theorem witness_DynamicHeaderCountsAreChecked :
    286 < (30 : BitVec 5).toNat + 257 ∧ ((29 : BitVec 5).toNat + 257 ≤ 286 ∧ 30 < (30 : BitVec 5).toNat + 1) := by decide

/-- Four lengths, exactly there and one bit short, with both counts at their maxima. -/
theorem witness_DynamicHeaderBuildsTheMetaTable :
    ((29 : BitVec 5).toNat + 257 ≤ 286 ∧ (29 : BitVec 5).toNat + 1 ≤ 30) ∧
    (let s := running [0xD1, 0x08] ⟨0, 4⟩ 2 .dynamicHeader
     s.CursorLegal ∧ s.cursor.consumed + 3 * ((0 : BitVec 4).toNat + 4) ≤ 8 * s.inLen.toNat) ∧
    (let s := running [0xD1, 0x08] ⟨0, 3⟩ 2 .dynamicHeader
     s.CursorLegal ∧ 8 * s.inLen.toNat < s.cursor.consumed + 3 * ((0 : BitVec 4).toNat + 4)) := by
  unfold State.CursorLegal; decide

/-- The first length and the last one. -/
theorem witness_CodeLengthSymbolAppendsItsLength :
    (let s := withLengths 257 1 [] twoBytes
     s.lens.length < s.hlit + s.hdist) ∧
    (let s := withLengths 257 1 (List.replicate 257 0) twoBytes
     s.lens.length < s.hlit + s.hdist ∧ ¬ (s.grown 0 1).length < s.hlit + s.hdist) := by decide +kernel

/-- No length before; no extra bits; a run that ends one past the total; one that ends at it. -/
theorem witness_RepeatPreviousAppendsTheLastLength :
    (withLengths 257 1 [] twoBytes).CursorLegal ∧ (withLengths 257 1 [] twoBytes).lens = [] ∧
    (let s := withLengths 257 1 [4] (running [0x80] ⟨0, 1⟩ 2 .codeLength)
     s.CursorLegal ∧ s.lens ≠ [] ∧ 8 * s.inLen.toNat < s.cursor.consumed + 2) ∧
    (let s := withLengths 257 1 (List.replicate 255 4) (running [0x40] ⟨0, 2⟩ 2 .codeLength)
     s.CursorLegal ∧ s.lens.getLast? = some 4 ∧ s.cursor.consumed + 2 ≤ 8 * s.inLen.toNat ∧
       4 = 3 + s.fieldAt s.cursor.consumed 2 ∧ s.hlit + s.hdist < s.lens.length + 4) ∧
    (let s := withLengths 257 1 (List.replicate 255 4) (running [0x00] ⟨0, 2⟩ 2 .codeLength)
     s.CursorLegal ∧ s.lens.getLast? = some 4 ∧ 3 = 3 + s.fieldAt s.cursor.consumed 2 ∧
       s.lens.length + 3 ≤ s.hlit + s.hdist) := by
  unfold State.CursorLegal; decide +kernel

/-- Symbol 17: no extra bits; a run one past the total; one that ends at it. Symbol 18: the same. -/
theorem witness_RepeatZeroAppendsZeros :
    ((Instr.clRepeatZeroShort, 3, 3) ∈ ([(.clRepeatZeroShort, 3, 3), (.clRepeatZeroLong, 11, 7)] : List (Instr × Nat × Nat))) ∧
    (let s := withLengths 257 1 [] (running [0x00] ⟨0, 2⟩ 2 .codeLength)
     s.CursorLegal ∧ 8 * s.inLen.toNat < s.cursor.consumed + 3) ∧
    (let s := withLengths 257 1 (List.replicate 250 0) (running [0xC0] ⟨0, 3⟩ 2 .codeLength)
     s.CursorLegal ∧ s.cursor.consumed + 3 ≤ 8 * s.inLen.toNat ∧ 9 = 3 + s.fieldAt s.cursor.consumed 3 ∧
       s.hlit + s.hdist < s.lens.length + 9) ∧
    (let s := withLengths 257 1 (List.replicate 250 0) (running [0xA0] ⟨0, 3⟩ 2 .codeLength)
     s.CursorLegal ∧ 8 = 3 + s.fieldAt s.cursor.consumed 3 ∧ s.lens.length + 8 ≤ s.hlit + s.hdist) ∧
    ((Instr.clRepeatZeroLong, 11, 7) ∈ ([(.clRepeatZeroShort, 3, 3), (.clRepeatZeroLong, 11, 7)] : List (Instr × Nat × Nat))) ∧
    (let s := withLengths 257 1 [] (running [0x00] ⟨0, 6⟩ 2 .codeLength)
     s.CursorLegal ∧ 8 * s.inLen.toNat < s.cursor.consumed + 7) ∧
    (let s := withLengths 257 1 (List.replicate 120 0) (running [0xFE] ⟨0, 7⟩ 2 .codeLength)
     s.CursorLegal ∧ s.cursor.consumed + 7 ≤ 8 * s.inLen.toNat ∧ 138 = 11 + s.fieldAt s.cursor.consumed 7 ∧
       s.lens.length + 138 ≤ s.hlit + s.hdist) ∧
    (let s := withLengths 257 1 (List.replicate 121 0) (running [0xFE] ⟨0, 7⟩ 2 .codeLength)
     s.CursorLegal ∧ 138 = 11 + s.fieldAt s.cursor.consumed 7 ∧ s.hlit + s.hdist < s.lens.length + 138) := by
  unfold State.CursorLegal; decide +kernel

/-- Bit 0 clear; BUSY; IN_LEN one above IN_MEM_SIZE; IN_LEN equal to it. -/
theorem witness_StartBeginsACall :
    (0xFFFFFFFE : Word).getLsbD 0 = false ∧ typing.busy = true ∧ (1 : Word).getLsbD 0 = true ∧
    (let s := { ready with params := ⟨1, 1⟩ }
     s.busy = false ∧ s.params.inMemSize.toNat < s.inLen.toNat) ∧
    (let s := { ready with params := ⟨2, 1⟩ }
     s.busy = false ∧ s.inLen.toNat ≤ s.params.inMemSize.toNat) := by decide

theorem witness_InLenIsWrittenOnlyWhileIdle : typing.busy = true ∧ ready.busy = false := by decide

theorem witness_StatusReadsTheWordOfThePhase :
    (ready.Inv ∧ ready.phase = .idle) ∧ (typing.Inv ∧ typing.busy = true) ∧ (finished.Inv ∧ finished.phase = .done) ∧
    (failed.Inv ∧ failed.phase = .error) :=
  ⟨⟨ready_inv, rfl⟩, ⟨typing_inv, rfl⟩, ⟨finished_inv, rfl⟩, ⟨failed_inv, rfl⟩⟩

theorem witness_ResultRegistersReadTheFinalCursor :
    finished.phase = .done ∧ failed.phase ≠ .done ∧ ready.phase = .idle ∧ typing.busy = true ∧ failed.phase = .error := by
  decide

theorem witness_ReadOnlyAndReservedOffsets :
    writeIgnoredOffset 0x04 = true ∧ writeIgnoredOffset 0xFC = true ∧ readReservedOffset 0x00 = true ∧
    readReservedOffset 0x20 = true ∧ readReservedOffset 0xFC = true := by decide

/-- A narrow access, a misaligned one, and one of each clause of the map. -/
theorem witness_RegisterWindowFollowsTheMap :
    (⟨true, .half, 0x00, 1⟩ : RegAccess).width ≠ .word ∧ (⟨true, .word, 0x02, 1⟩ : RegAccess).offset.toNat % 4 ≠ 0 ∧
    ((⟨true, .word, 0x08, 1⟩ : RegAccess).width = .word ∧ (⟨true, .word, 0x08, 1⟩ : RegAccess).write = true) ∧
    ((⟨false, .word, 0x1C, 0⟩ : RegAccess).width = .word ∧ (⟨false, .word, 0x1C, 0⟩ : RegAccess).write = false) := by decide

/-- The last byte of each memory, while no call runs and while one does. -/
theorem witness_MemoryAccessesFollowTheHostTable :
    typing.busy = true ∧ (ready.busy = false ∧ 131071 < ready.params.inMemSize.toNat ∧
      131071 < ready.params.outMemSize.toNat ∧ 131071 < typing.params.outMemSize.toNat) := by decide

/-- The first address beyond each memory, while no call runs. -/
theorem witness_HostAccessesBeyondTheMemoriesStop :
    ready.busy = false ∧ ready.params.inMemSize.toNat ≤ 131072 ∧ ready.params.outMemSize.toNat ≤ 131072 := by decide

theorem witness_HostCannotDisturbARunningCall :
    typing.busy = true ∧ HostAction.readIn 0 ≠ .reset ∧ (∃ t, hostStep (.readIn 0) typing = .next t) ∧
    (∃ t, hostStep (.readOut 0) typing = .next t) ∧
    (∃ t, hostStep (.reg ⟨true, .word, 0x00, 1⟩) typing = .next t) :=
  ⟨rfl, by decide, ⟨_, rfl⟩, ⟨_, rfl⟩, ⟨_, rfl⟩⟩

theorem witness_OutsideACallOnlyStartAndResetAct :
    failed.busy = false ∧ failed.hostQueue = [] ∧ HostAction.writeIn 0 1 ≠ .reset ∧
    (HostAction.writeIn 0 1).isStart = false ∧ (∃ t, hostStep (.writeIn 0 1) failed = .next t) :=
  ⟨rfl, rfl, by decide, rfl, ⟨_, rfl⟩⟩

theorem witness_StreamInstructionsLeaveTheHostSideAlone :
    streamInstr (.hdrStored 0 0) = true ∧ (∃ t, exec (.hdrStored 0 0xFFFF) twoBytes = .next t) ∧
    (∃ t, exec .distInvalid31 twoBytes = .next t) := ⟨rfl, ⟨_, rfl⟩, ⟨_, rfl⟩⟩

/-- A cause of each kind. -/
theorem witness_ErrorEntryRecordsKindAndCause :
    (Cause.endOfInput, (1 : BitVec 2), (0x01 : BitVec 8)) ∈ errorRows ∧
    (Cause.internalReadWidth, (2 : BitVec 2), (0x41 : BitVec 8)) ∈ errorRows ∧
    (∃ t, raise .endOfInput typing = .next t) := ⟨by decide, by decide, ⟨_, rfl⟩⟩

/-- Steps of the block and of the host from states that meet the invariant. -/
theorem witness_StepKeepsTheInvariant :
    (started.Inv ∧ ∃ t, step started = .next t) ∧ (failed.Inv ∧ ∃ t, step failed = .next t) :=
  ⟨⟨started_inv, ⟨_, rfl⟩⟩, failed_inv, ⟨_, rfl⟩⟩

theorem witness_NoInternalBugFromTheInvariant : decoding.Inv ∧ decoding.hostQueue = [] := ⟨decoding_inv, rfl⟩

/-- A step into ERROR in a fixed block and in a dynamic one. -/
theorem witness_UnreachableErrorsAreNeverReported :
    (cut.Inv ∧ cut.hostQueue = [] ∧ cut.phase = .decodeBlock ∧ cut.btype = 1 ∧
      ∃ t, step cut = .next t ∧ t.phase = .error) ∧
    (lost.Inv ∧ lost.hostQueue = [] ∧ lost.phase = .decodeBlock ∧ lost.btype = 2 ∧
      ∃ t, step lost = .next t ∧ t.phase = .error) :=
  ⟨⟨cut_inv, rfl, rfl, rfl, ⟨_, rfl, rfl⟩⟩, lost_inv, rfl, rfl, rfl, ⟨_, rfl, rfl⟩⟩

theorem exists_next {α : Type} {f : State → α} {o : Out} {x : α} (h : field f o = some x) : ∃ t, o = .next t ∧ f t = x := by
  cases o with
  | next t => exact ⟨t, rfl, Option.some.inj h⟩
  | fault r => cases h
  | refused r => cases h

/-- A step of a call that does not fail, before any output and with some. -/
theorem witness_steps_of_a_call :
    (typing.Inv ∧ typing.hostQueue = [] ∧ typing.busy = true ∧ ∃ t, step typing = .next t ∧ t.phase = .decodeBlock) ∧
    (decoding.Inv ∧ decoding.hostQueue = [] ∧ decoding.busy = true ∧ 0 < decoding.outLen.toNat ∧
      ∃ t, step decoding = .next t ∧ t.phase = .decodeBlock) :=
  ⟨⟨typing_inv, rfl, rfl, exists_next (f := fun t => t.phase) (by decide)⟩, decoding_inv, rfl, rfl, by decide,
   exists_next (f := fun t => t.phase) (by decide +kernel)⟩

theorem witness_EveryCallEnds : started.Inv ∧ started.hostQueue = [] ∧ started.busy = true := ⟨started_inv, rfl, rfl⟩

theorem ready_startable : ready.startable := ⟨rfl, by decide, rfl⟩
theorem readyOtherwise_startable : readyOtherwise.startable := ⟨rfl, by decide, rfl⟩

theorem witness_OutputIsBoundedByTheInput :
    ready.Inv ∧ ready.startable ∧ ∃ t, runSteps 1 ready.startCall = .next t := ⟨ready_inv, ready_startable, ⟨_, rfl⟩⟩

theorem exists_ok {e : Except Cause State} (h : e.isOk = true) : ∃ u, e = .ok u := by
  cases e with
  | error c => cases h
  | ok u => exact ⟨u, rfl⟩

theorem exists_error {e : Except Cause State} (h : e.isOk = false) : ∃ c, e = .error c := by
  cases e with
  | error c => exact ⟨c, rfl⟩
  | ok u => cases h

/-- A stream that decodes, and one that does not. -/
theorem witness_SmallStepsComputeInflate :
    (ready.Inv ∧ ready.startable ∧ ∃ u, inflate ready.startCall = .ok u) ∧
    (let s := { ready with inLen := 0 }
     s.startable ∧ ∃ c, inflate s.startCall = .error c) :=
  ⟨⟨ready_inv, ready_startable, exists_ok (by decide +kernel)⟩, ⟨rfl, by decide, rfl⟩, exists_error (by decide +kernel)⟩

theorem witness_CallDependsOnlyOnItsStream :
    ready.Inv ∧ readyOtherwise.Inv ∧ ready.startable ∧ readyOtherwise.startable ∧ ready.inLen = readyOtherwise.inLen ∧
    ready.params.outMemSize = readyOtherwise.params.outMemSize ∧
    ∀ a < ready.inLen.toNat, ready.inByte a = readyOtherwise.inByte a :=
  ⟨ready_inv, readyOtherwise_inv, ready_startable, readyOtherwise_startable, rfl, rfl, by
    intro a ha
    have : a < 2 := ha
    interval_cases a <;> rfl⟩

end Sys2Proof.Machine.Tests
end

section
/-! The stream two states share: every read of the parser depends on the cursor, IN_LEN and the bytes below IN_LEN alone
(20_memory.md R99). -/

namespace Sys2Proof.Machine

/-! ### A cursor further on in the stream -/

/-- The cursor `c` is legal and no bit before the cursor of `s`. -/
def State.Reaches (s : State) (c : Cursor) : Prop :=
  ∃ k, s.cursor.consumed + k ≤ 8 * s.inLen.toNat ∧ c = cursorAt (s.cursor.consumed + k)

theorem State.Reaches.legal {s : State} {c : Cursor} (h : s.Reaches c) : (s.setCursor c).CursorLegal := by
  obtain ⟨k, hk, rfl⟩ := h
  exact State.setCursor_legal hk

theorem State.Reaches.consumed_le {s : State} {c : Cursor} (h : s.Reaches c) : s.cursor.consumed ≤ c.consumed := by
  obtain ⟨k, hk, rfl⟩ := h
  have := s.inLen.isLt
  rw [consumed_cursorAt (by omega)]
  omega

theorem readBits_reaches {s : State} (h : s.CursorLegal) {n v : Nat} {c : Cursor} (hr : readBits n s = .ok (v, c)) :
    s.Reaches c := by
  obtain ⟨hk, -, hc⟩ := readBits_ok h hr
  exact ⟨n, hk, hc⟩

/-! ### Two states on one stream -/

/-- Both states stand at the same legal cursor of the same stream. -/
structure SameStream (s u : State) : Prop where
  legal : s.CursorLegal
  cursor : u.cursor = s.cursor
  inLen : u.inLen = s.inLen
  bytes : ∀ a < s.inLen.toNat, u.inByte a = s.inByte a

namespace SameStream

variable {s u : State} (h : SameStream s u)
include h

theorem legal_right : u.CursorLegal := by
  unfold State.CursorLegal
  rw [h.cursor, h.inLen]
  exact h.legal

theorem setCursor {c : Cursor} (hc : (s.setCursor c).CursorLegal) : SameStream (s.setCursor c) (u.setCursor c) :=
  ⟨hc, rfl, h.inLen, h.bytes⟩

theorem streamBit {k : Nat} (hk : k < 8 * s.inLen.toNat) : u.streamBit k = s.streamBit k := by
  unfold State.streamBit
  rw [h.bytes _ (by omega)]

theorem fieldAt {k n : Nat} (hk : k + n ≤ 8 * s.inLen.toNat) : u.fieldAt k n = s.fieldAt k n := by
  unfold State.fieldAt
  congr 1
  refine List.map_congr_left fun i hi => h.streamBit ?_
  have := List.mem_range.1 hi
  omega

theorem readBits {n : Nat} (hn : n ≤ 32) : readBits n u = readBits n s := by
  rw [readBits_legal h.legal n hn, readBits_legal h.legal_right n hn, h.cursor, h.inLen]
  split
  · rename_i hk
    rw [h.fieldAt hk]
  · rfl

theorem readBytes (n : Nat) : readBytes n u = readBytes n s := by
  unfold Machine.readBytes
  rw [h.cursor, h.inLen]
  split
  · rfl
  · split
    · rfl
    · have hb : ∀ k ∈ List.range n, u.inByte (s.cursor.pos.toNat + k) = s.inByte (s.cursor.pos.toNat + k) :=
        fun k hk => h.bytes _ (by have := List.mem_range.1 hk; omega)
      rw [List.map_congr_left hb]

theorem decodeSymbolFrom (t : Table) {n L : Nat} (h1 : 1 ≤ L) (h15 : L + n ≤ 16) :
    decodeSymbolFrom t u n L = decodeSymbolFrom t s n L := by
  induction n generalizing L with
  | zero => rfl
  | succ n ih =>
    rw [decodeSymbolFrom_succ t h.legal n L h1 (by omega), decodeSymbolFrom_succ t h.legal_right n L h1 (by omega),
      h.cursor, h.inLen, ih (by omega) (by omega)]
    split
    · rename_i hk
      rw [h.fieldAt hk]
    · rfl

theorem decodeSymbol (t : Table) {lmin lmax : Nat} (h1 : 1 ≤ lmin) (h15 : lmax ≤ 15) :
    decodeSymbol t lmin lmax u = decodeSymbol t lmin lmax s := by
  unfold Machine.decodeSymbol
  by_cases hl : lmin ≤ lmax
  · exact h.decodeSymbolFrom t h1 (by omega)
  · rw [show lmax + 1 - lmin = 0 by omega]
    rfl

theorem readClens (order : List Nat) (acc : List (BitVec 3)) : readClens order acc u = readClens order acc s := by
  induction order generalizing acc s u with
  | nil => simp only [Machine.readClens, h.cursor]
  | cons slot order ih =>
    simp only [Machine.readClens, h.readBits (show 3 ≤ 32 by omega)]
    cases hr : Machine.readBits 3 s with
    | error c => rfl
    | ok r =>
      exact ih (h.setCursor (readBits_reaches h.legal (v := r.1) (c := r.2) hr).legal) _

theorem resolveLength (sym : Nat) : resolveLength sym u = resolveLength sym s := by
  rw [resolveLength_legal h.legal, resolveLength_legal h.legal_right, h.cursor, h.inLen]
  split
  · rfl
  · split
    · rename_i hk
      rw [h.fieldAt hk]
    · rfl

theorem resolveDistance (ho : u.outLen = s.outLen) (dsym : Nat) : resolveDistance dsym u = resolveDistance dsym s := by
  rw [resolveDistance_legal h.legal, resolveDistance_legal h.legal_right, h.cursor, h.inLen, ho]
  split
  · rfl
  · split
    · rename_i hk
      rw [h.fieldAt hk]
    · rfl

end SameStream

/-! ### The element read next -/

namespace SameStream

variable {s u : State} (h : SameStream s u)
include h

theorem fetchBlockHeader (hb : u.bfinal = s.bfinal) : fetchBlockHeader u = fetchBlockHeader s := by
  simp only [Machine.fetchBlockHeader, h.readBits (show 2 ≤ 32 by omega), hb]

theorem fetchStoredHeader : fetchStoredHeader u = fetchStoredHeader s := by
  simp only [Machine.fetchStoredHeader, h.readBytes]

theorem fetchDynamicHeader : fetchDynamicHeader u = fetchDynamicHeader s := by
  unfold Machine.fetchDynamicHeader
  rw [h.readBits (show 5 ≤ 32 by omega)]
  cases h1 : Machine.readBits 5 s with
  | error c => rfl
  | ok r =>
    have e1 := h.setCursor (readBits_reaches h.legal h1).legal
    simp only [e1.readBits (show 5 ≤ 32 by omega)]
    cases h2 : Machine.readBits 5 (s.setCursor r.2) with
    | error c => rfl
    | ok q =>
      have e2 := e1.setCursor (readBits_reaches e1.legal h2).legal
      simp only [State.setCursor_setCursor] at e2
      simp only [e2.readBits (show 4 ≤ 32 by omega)]

theorem fetchCodeLength (ht : u.metaTab = s.metaTab) : fetchCodeLength u = fetchCodeLength s := by
  have hd := h.decodeSymbol s.metaTab (show 1 ≤ 1 by omega) (show maxCodeLen ≤ 15 by decide)
  simp only [Machine.fetchCodeLength, ht, hd]

theorem fetchLitlen (hb : u.btype = s.btype) (ht : s.btype = 1 ∨ u.litlenTab = s.litlenTab) :
    fetchLitlen u = fetchLitlen s := by
  have hf := h.decodeSymbol fixedLitlen (show 1 ≤ 7 by omega) (show 9 ≤ 15 by omega)
  have hd := h.decodeSymbol s.litlenTab (show 1 ≤ 1 by omega) (show maxCodeLen ≤ 15 by decide)
  unfold Machine.fetchLitlen
  rcases ht with ht | ht
  · simp only [hb, ht, if_true, hf]
  · simp only [hb, ht, hf, hd]

theorem fetchDistance (hb : u.btype = s.btype) (ht : s.btype = 1 ∨ u.distTab = s.distTab) :
    fetchDistance u = fetchDistance s := by
  have hf := h.readBits (show 5 ≤ 32 by omega)
  have hd := h.decodeSymbol s.distTab (show 1 ≤ 1 by omega) (show maxCodeLen ≤ 15 by decide)
  unfold Machine.fetchDistance
  rcases ht with ht | ht
  · simp only [hb, ht, if_true, hf]
  · simp only [hb, ht, hf, hd]

end SameStream

end Sys2Proof.Machine
end

section
/-! The causes a read of the stream can end a call with: none is an InternalBug (60_exceptions.md R402). -/

namespace Sys2Proof.Machine

theorem readBytes_error {s : State} {n : Nat} {e : Cause} (h8 : s.cursor.left = 8) (hr : readBytes n s = .error e) :
    e = .endOfInput := by
  unfold readBytes at hr
  rw [if_neg (fun hne => hne h8)] at hr
  split at hr
  · exact (Except.error.inj hr).symm
  · cases hr

theorem decodeSymbol_error_kind {s : State} {t : Table} (h : s.CursorLegal) {lmin lmax : Nat} {e : Cause}
    (h1 : 1 ≤ lmin) (h15 : lmax ≤ 15) (hr : decodeSymbol t lmin lmax s = .error e) : e.kind ≠ .internalBug := by
  rcases decodeSymbol_error h h1 h15 hr with rfl | rfl <;> decide

theorem readBits_error_kind {s : State} {n : Nat} {e : Cause} (hn : n ≤ 32) (hr : readBits n s = .error e) :
    e.kind ≠ .internalBug := by
  rw [readBits_error hn hr]; decide

theorem fetchBlockHeader_error {s : State} {e : Cause} (hr : fetchBlockHeader s = .error e) :
    e.kind ≠ .internalBug := by
  unfold fetchBlockHeader at hr
  split at hr
  · rename_i hb
    cases hr
    exact readBits_error_kind (by omega) hb
  · cases hr

theorem fetchStoredHeader_error {s : State} {e : Cause} (h8 : s.cursor.left = 8) (hr : fetchStoredHeader s = .error e) :
    e.kind ≠ .internalBug := by
  unfold fetchStoredHeader at hr
  split at hr
  · rename_i hb
    cases hr
    rw [readBytes_error h8 hb]; decide
  · cases hr

theorem fetchDynamicHeader_error {s : State} {e : Cause} (hr : fetchDynamicHeader s = .error e) :
    e.kind ≠ .internalBug := by
  unfold fetchDynamicHeader at hr
  split at hr
  · rename_i hb
    cases hr
    exact readBits_error_kind (by omega) hb
  · split at hr
    · rename_i hb
      cases hr
      exact readBits_error_kind (by omega) hb
    · split at hr
      · rename_i hb
        cases hr
        exact readBits_error_kind (by omega) hb
      · cases hr

theorem fetchCodeLength_error {s : State} {e : Cause} (h : s.CursorLegal) (hr : fetchCodeLength s = .error e) :
    e.kind ≠ .internalBug := by
  unfold fetchCodeLength at hr
  split at hr
  · rename_i hd
    cases hr
    exact decodeSymbol_error_kind h (by omega) (by decide) hd
  · split at hr
    · cases hr
    · cases hr; decide

theorem fetchLitlen_error {s : State} {e : Cause} (h : s.CursorLegal) (hr : fetchLitlen s = .error e) :
    e.kind ≠ .internalBug := by
  unfold fetchLitlen at hr
  split at hr
  · rename_i hd
    cases hr
    split at hd
    · exact decodeSymbol_error_kind h (by omega) (by omega) hd
    · exact decodeSymbol_error_kind h (by omega) (by decide) hd
  · split at hr
    · cases hr
    · cases hr; decide

theorem fetchDistance_error {s : State} {e : Cause} (h : s.CursorLegal) (hr : fetchDistance s = .error e) :
    e.kind ≠ .internalBug := by
  unfold fetchDistance at hr
  simp only [bitrev_legal (show 1 ≤ 5 by omega) (show 5 ≤ 15 by omega)] at hr
  split at hr
  · split at hr
    · rename_i hb
      cases hr
      exact readBits_error_kind (by omega) hb
    · split at hr
      · cases hr
      · cases hr; decide
  · split at hr
    · rename_i hd
      cases hr
      exact decodeSymbol_error_kind h (by omega) (by decide) hd
    · split at hr
      · cases hr
      · cases hr; decide

end Sys2Proof.Machine
end

section
/-! Two runs of a call on the same stream: what they share at each point (00_scope.md R3). On the diagonal, a state with
itself, the relation is the part of the invariant that a call needs: a legal cursor and an output within OUT. -/

namespace Sys2Proof.Machine

/-! ### Reads that answer -/

theorem readBytes_reaches {s : State} {n : Nat} {bs : List Byte} {c : Cursor} (h : s.CursorLegal)
    (hr : readBytes n s = .ok (bs, c)) : s.Reaches c := by
  obtain ⟨h8, hn, -, rfl⟩ := readBytes_ok hr
  have hlt := s.inLen.isLt
  have hp := h.2.2.1
  have e : s.cursor.consumed = 8 * s.cursor.pos.toNat := by simp [Cursor.consumed, h8]
  exact ⟨8 * n, by omega, Cursor.skipBytes_eq h8 (by omega)⟩

theorem readClens_reaches {s : State} {order : List Nat} {acc lens : List (BitVec 3)} {c : Cursor} (h : s.CursorLegal)
    (hr : readClens order acc s = .ok (lens, c)) : s.Reaches c := by
  obtain ⟨-, hk, hc⟩ := readClens_ok h hr
  exact ⟨_, hk, hc⟩

/-- The next byte boundary is still in the stream (40_bit_cursor.md R176). -/
theorem align_reaches {s : State} (h : s.CursorLegal) : s.Reaches s.cursor.align := by
  have hle := h.consumed_le
  have hlt := s.inLen.isLt
  obtain ⟨h1, h8, hp, he⟩ := h
  have hroom : s.cursor.pos.toNat + 1 < 2 ^ 32 ∨ s.cursor.left = 8 := by
    by_cases hq : s.cursor.pos = s.inLen
    · exact .inr (he hq)
    · have : s.cursor.pos.toNat ≠ s.inLen.toNat := fun e => hq (BitVec.eq_of_toNat_eq e)
      omega
  refine ⟨8 * ((s.cursor.consumed + 7) / 8) - s.cursor.consumed, by omega, ?_⟩
  rw [Cursor.align_eq h1 h8 hroom]
  congr 1
  omega

theorem Cursor.align_left (c : Cursor) : c.align.left = 8 := by
  unfold Cursor.align
  split
  · assumption
  · rfl

theorem resolveLength_reaches {s : State} (h : s.CursorLegal) {sym len : Nat} {c : Cursor}
    (hr : resolveLength sym s = .ok (len, c)) : s.Reaches c := by
  rw [resolveLength_legal h] at hr
  split at hr
  · cases hr
  · split at hr
    · rename_i hk
      simp only [Except.ok.injEq, Prod.mk.injEq] at hr
      exact ⟨_, hk, hr.2.symm⟩
    · cases hr

theorem resolveLength_error {s : State} (h : s.CursorLegal) {sym : Nat} {e : Cause}
    (hr : resolveLength sym s = .error e) : e.kind ≠ .internalBug := by
  rw [resolveLength_legal h] at hr
  split at hr
  · cases hr; decide
  · split at hr
    · cases hr
    · cases hr; decide

/-- A distance resolved reaches back into the output and no further (47_length_distance.md R338, R339). -/
theorem resolveDistance_ok {s : State} (h : s.CursorLegal) {dsym d : Nat} {c : Cursor}
    (hr : resolveDistance dsym s = .ok (d, c)) : s.Reaches c ∧ 1 ≤ d ∧ d ≤ s.outLen.toNat := by
  rw [resolveDistance_legal h] at hr
  split at hr
  · cases hr
  · split at hr
    · rename_i hi hk
      split at hr
      · cases hr
      · rename_i ho
        have hd := distance_range dsym _ (by omega) (s.fieldAt_lt s.cursor.consumed (dextra.getD dsym 0))
        cases hr
        exact ⟨⟨_, hk, rfl⟩, hd.1, by omega⟩
    · cases hr

theorem resolveDistance_error {s : State} (h : s.CursorLegal) {dsym : Nat} {e : Cause}
    (hr : resolveDistance dsym s = .error e) : e.kind ≠ .internalBug := by
  rw [resolveDistance_legal h] at hr
  split at hr
  · cases hr; decide
  · split at hr
    · split at hr
      · cases hr; decide
      · cases hr
    · cases hr; decide

/-! ### What two runs share -/

/-- The registers both runs show alike, in every phase; no host action is coming in either. -/
structure SameObs (s u : State) : Prop where
  phase : u.phase = s.phase
  cursor : u.cursor = s.cursor
  outLen : u.outLen = s.outLen
  errKind : u.errKind = s.errKind
  errCause : u.errCause = s.errCause
  queue : s.hostQueue = []
  queue_right : u.hostQueue = []

/-- A call that has not failed: the stream, and the output so far, which fits OUT. -/
structure SameCall (s u : State) : Prop extends SameStream s u, SameObs s u where
  size : u.params.outMemSize = s.params.outMemSize
  fits : s.outLen.toNat ≤ s.params.outMemSize.toNat
  output : ∀ a < s.outLen.toNat, u.outByte a = s.outByte a

/-- The tables of a dynamic block. Without a distance table the register holds what an earlier block left there. -/
def SameTables (s u : State) : Prop :=
  u.litlenTab = s.litlenTab ∧ u.distPresent = s.distPresent ∧ (s.distPresent = true → u.distTab = s.distTab)

/-- The block decodes literal/length and distance symbols: by the fixed tables, or by its own. -/
def SameSymbols (s u : State) : Prop := s.btype = 1 ∨ s.btype = 2 ∧ SameTables s u

/-- The bit lengths of a dynamic block so far, and what the next ones are decoded with. -/
def SameLengths (s u : State) : Prop :=
  s.btype = 2 ∧ u.hlit = s.hlit ∧ u.hdist = s.hdist ∧ u.lens = s.lens ∧ u.metaTab = s.metaTab

/-- The registers the next element of a block reads. -/
def SameElement (s u : State) : Prop :=
  match s.expect with
  | .storedHeader => s.cursor.left = 8
  | .dynamicHeader => s.btype = 2
  | .codeLength => SameLengths s u
  | .litlen => SameSymbols s u
  | .distance => u.copyLen = s.copyLen ∧ SameSymbols s u ∧ (s.btype = 2 → s.distPresent = true)

/-- Both runs are in a block of the same type. -/
structure SameHead (s u : State) : Prop where
  phase : s.phase = .decodeBlock
  bfinal : u.bfinal = s.bfinal
  btype : u.btype = s.btype

/-- Both runs are in a block of the same type, at the same element. -/
structure SameBlock (s u : State) : Prop extends SameHead s u where
  expect : u.expect = s.expect
  element : SameElement s u

/-- The working registers the rest of the call reads before it writes them, by phase. -/
def SameRegs (s u : State) : Prop :=
  match s.phase with
  | .readType => u.bfinal = s.bfinal
  | .decodeBlock => SameBlock s u
  | .idle | .readFinal | .done | .error => True

/-- Two runs at the same point of a call, or after it. -/
structure Alike (s u : State) : Prop where
  obs : SameObs s u
  call : s.phase ≠ .error → SameCall s u
  regs : SameRegs s u

/-- `t` comes after `s` in the same stream, `n` bits or more further on, and if `s` was in a block, in one of its type. -/
def Onward (n : Nat) (s t : State) : Prop :=
  t.inLen = s.inLen ∧ s.cursor.consumed + n ≤ t.cursor.consumed ∧ (s.phase = .decodeBlock → t.btype = s.btype)

theorem Onward.refl (s : State) : Onward 0 s s := ⟨rfl, le_rfl, fun _ => rfl⟩

theorem State.Reaches.onward {s : State} {c : Cursor} (h : s.Reaches c) : Onward 0 s (s.setCursor c) :=
  ⟨rfl, h.consumed_le, fun _ => rfl⟩

/-- Both outcomes are states that are alike, and if the call has not failed they come `n` bits or more after `s`. -/
def Paired (n : Nat) (s : State) (o o' : Out) : Prop :=
  ∃ t v, o = .next t ∧ o' = .next v ∧ Alike t v ∧ (t.phase ≠ .error → Onward n s t)

/-- What follows a read follows the state before the read, by the bits read. -/
theorem Paired.after_read {n : Nat} {s : State} {c : Cursor} {o o' : Out} (h : Paired 0 (s.setCursor c) o o')
    (hn : s.cursor.consumed + n ≤ c.consumed) : Paired n s o o' := by
  obtain ⟨t, v, h1, h2, h3, h4⟩ := h
  refine ⟨t, v, h1, h2, h3, fun hp => ?_⟩
  obtain ⟨hlen, hcons, hbt⟩ := h4 hp
  exact ⟨hlen, Nat.le_trans hn hcons, hbt⟩

theorem SameRegs.of_block {s u : State} (h : SameBlock s u) : SameRegs s u := by
  unfold SameRegs
  rw [h.phase]
  exact h

theorem paired_next {s t v : State} {n : Nat} (hc : SameCall t v) (hr : SameRegs t v) (ho : Onward n s t) :
    Paired n s (.next t) (.next v) :=
  ⟨t, v, rfl, rfl, ⟨hc.toSameObs, fun _ => hc, hr⟩, fun _ => ho⟩

/-- The call fails in both runs, with one cause. -/
theorem raise_paired {b s u : State} {c : Cause} {n : Nat} (h : SameObs s u) (hc : c.kind ≠ .internalBug) :
    Paired n b (raise c s) (raise c u) := by
  refine ⟨_, _, raise_next hc s, raise_next hc u, ⟨?_, fun hp => absurd rfl hp, trivial⟩, fun hp => absurd rfl hp⟩
  exact { h with phase := rfl, errKind := rfl, errCause := rfl }

theorem SameCall.setCursor {s u : State} (h : SameCall s u) {c : Cursor} (hc : s.Reaches c) :
    SameCall (s.setCursor c) (u.setCursor c) :=
  { h with legal := hc.legal, cursor := rfl }

theorem SameHead.setCursor {s u : State} (h : SameHead s u) (c : Cursor) : SameHead (s.setCursor c) (u.setCursor c) :=
  { h with }

/-! ### The output buffer -/

/-- `t` is `s` with an output at least as long. -/
def OutGrown (s t : State) : Prop := ∃ m n, s.outLen.toNat ≤ n.toNat ∧ t = { s with outMem := m, outLen := n }

theorem OutGrown.refl (s : State) : OutGrown s s := ⟨_, _, Nat.le_refl _, rfl⟩

theorem OutGrown.trans {s t u : State} (h1 : OutGrown s t) (h2 : OutGrown t u) : OutGrown s u := by
  obtain ⟨m, n, hn, rfl⟩ := h1
  obtain ⟨m', n', hn', rfl⟩ := h2
  exact ⟨m', n', Nat.le_trans hn hn', rfl⟩

/-- Both runs append as many bytes and have the same output after it, or OUT is too small in both. -/
def SameAppend (s u : State) (r r' : Except Cause State) : Prop :=
  r = .error .outputOverflow ∧ r' = .error .outputOverflow ∨
    ∃ t v, r = .ok t ∧ r' = .ok v ∧ SameCall t v ∧ OutGrown s t ∧ OutGrown u v

/-- An append after one with room. -/
theorem SameAppend.after {s u t v : State} {r r' : Except Cause State} (h : SameAppend t v r r') (h1 : OutGrown s t)
    (h2 : OutGrown u v) : SameAppend s u r r' := by
  obtain h | ⟨t', v', hr, hr', hc, left, right⟩ := h
  · exact .inl h
  · exact .inr ⟨t', v', hr, hr', hc, h1.trans left, h2.trans right⟩

theorem SameCall.append {s u : State} (h : SameCall s u) (b : Byte) : SameAppend s u (append b s) (append b u) := by
  by_cases hf : s.outLen.toNat = s.params.outMemSize.toNat
  · exact .inl ⟨append_full hf, append_full (by rw [h.outLen, h.size, hf])⟩
  · have hs : s.outLen.toNat < s.params.outMemSize.toNat := Nat.lt_of_le_of_ne h.fits hf
    have hu : u.outLen.toNat < u.params.outMemSize.toNat := by rw [h.outLen, h.size]; exact hs
    obtain ⟨t, ht, -, nt, bt, ot⟩ := append_at_end (v := b) hs
    obtain ⟨v, hv, -, nv, bv, ov⟩ := append_at_end (v := b) hu
    have len : v.outLen = t.outLen := BitVec.eq_of_toNat_eq (by rw [nt, nv, h.outLen])
    have out : ∀ a < t.outLen.toNat, v.outByte a = t.outByte a := by
      intro a ha
      by_cases he : a = s.outLen.toNat
      · rw [he, bt, ← h.outLen, bv]
      · rw [ot a he, ov a (by rw [h.outLen]; exact he), h.output a (by omega)]
    obtain ⟨m, n, hn, rfl⟩ : OutGrown s t := ⟨_, _, by omega, (append_appended h.fits ht).frame⟩
    obtain ⟨m', n', hn', rfl⟩ : OutGrown u v := ⟨_, _, by omega, (append_appended hu.le hv).frame⟩
    exact .inr ⟨_, _, ht, hv, { h with outLen := len, fits := nt.trans_le hs, output := out }, ⟨_, _, hn, rfl⟩,
      ⟨_, _, hn', rfl⟩⟩

theorem SameCall.appendAll {s u : State} (h : SameCall s u) (bs : List Byte) :
    SameAppend s u (appendAll bs s) (appendAll bs u) := by
  induction bs generalizing s u with
  | nil => exact .inr ⟨s, u, rfl, rfl, h, .refl s, .refl u⟩
  | cons b bs ih =>
    unfold Machine.appendAll
    obtain ⟨hr, hr'⟩ | ⟨t, v, hr, hr', hc, left, right⟩ := h.append b
    · rw [hr, hr']; exact .inl ⟨rfl, rfl⟩
    · rw [hr, hr']; exact (ih hc).after left right

/-- The bytes a copy reads are the call's own output, alike in both runs (48_lz77_expander.md R364). -/
theorem SameCall.lz77Copy {s u : State} (h : SameCall s u) (n : Nat) {d : Nat} (h1 : 1 ≤ d)
    (hd : d ≤ s.outLen.toNat) : SameAppend s u (lz77Copy n d s) (lz77Copy n d u) := by
  induction n generalizing s u with
  | zero => exact .inr ⟨s, u, rfl, rfl, h, .refl s, .refl u⟩
  | succ n ih =>
    unfold Machine.lz77Copy
    rw [h.outLen, h.output _ (by omega)]
    obtain ⟨hr, hr'⟩ | ⟨t, v, hr, hr', hc, left, right⟩ := h.append (s.outByte (s.outLen.toNat - d))
    · rw [hr, hr']; exact .inl ⟨rfl, rfl⟩
    · rw [hr, hr']
      refine (ih hc ?_).after left right
      obtain ⟨m, k, hk, rfl⟩ := left
      exact Nat.le_trans hd hk

end Sys2Proof.Machine
end

section
/-! One element of the stream in both runs: the meanings of the instructions keep the two runs alike. -/

namespace Sys2Proof.Machine

variable {s u : State}

theorem paired_ite {n : Nat} {p : Prop} [Decidable p] {a b a' b' : Out} (ha : p → Paired n s a a')
    (hb : ¬p → Paired n s b b') : Paired n s (if p then a else b) (if p then a' else b') := by
  by_cases h : p
  · rw [if_pos h, if_pos h]; exact ha h
  · rw [if_neg h, if_neg h]; exact hb h

/-! ### Block ends and block headers -/

theorem endBlock_paired (hc : SameCall s u) (hb : u.bfinal = s.bfinal) :
    Paired 0 s (.next s.endBlock) (.next u.endBlock) := by
  refine paired_next { hc with phase := ?_ } ?_ (.refl s)
  · simp [hb]
  · unfold SameRegs
    cases hf : s.bfinal <;> simp [hf]

/-- A block header, read with the final flag of both runs (43_block_dispatcher.md R233). -/
theorem blockHeader_paired (hc : SameCall s u) (hp : s.phase = .readType) (f : Bool) (t : BitVec 2) :
    Paired 0 s (exec (decodeBlockHeader f t) s) (exec (decodeBlockHeader f t) u) := by
  have enter (bt : BitVec 2) (e : Element) : SameCall (s.enterBlock f bt e) (u.enterBlock f bt e) :=
    { hc with phase := rfl }
  have head (bt : BitVec 2) (e : Element) : SameHead (s.enterBlock f bt e) (u.enterBlock f bt e) := ⟨rfl, rfl, rfl⟩
  have hn {p : Prop} (h : s.phase = .decodeBlock) : p := by rw [hp] at h; cases h
  unfold decodeBlockHeader
  split
  · show Paired 0 s (execBlkStored f s) (execBlkStored f u)
    have ha : s.Reaches s.cursor.align := align_reaches hc.legal
    unfold execBlkStored
    rw [hc.cursor]
    exact paired_next ((enter 0 .storedHeader).setCursor ha)
      (.of_block { (head 0 .storedHeader).setCursor _ with expect := rfl, element := Cursor.align_left _ })
      ⟨rfl, ha.consumed_le, hn⟩
  · split
    · exact paired_next (enter 1 .litlen) (.of_block { head 1 .litlen with expect := rfl, element := .inl rfl })
        ⟨rfl, le_rfl, hn⟩
    · split
      · exact paired_next (enter 2 .dynamicHeader)
          (.of_block { head 2 .dynamicHeader with expect := rfl, element := rfl }) ⟨rfl, le_rfl, hn⟩
      · exact raise_paired (c := .reservedBtype) (enter 3 .storedHeader).toSameObs (by decide)

/-- The body of a stored block (44_stored_block.md R250 to R254). -/
theorem execHdrStored_paired (hc : SameCall s u) (hb : u.bfinal = s.bfinal) (h8 : s.cursor.left = 8)
    (len nlen : BitVec 16) : Paired 0 s (execHdrStored len nlen s) (execHdrStored len nlen u) := by
  have hv : SameCall (s.setStoredHeader len nlen) (u.setStoredHeader len nlen) := { hc with }
  unfold execHdrStored
  simp only [hv.readBytes]
  refine paired_ite (fun _ => raise_paired hv.toSameObs (by decide)) fun _ => ?_
  refine paired_ite (fun _ => endBlock_paired hv hb) fun _ => ?_
  cases hr : readBytes len.toNat (s.setStoredHeader len nlen) with
  | error c => exact raise_paired hv.toSameObs (readBytes_error h8 hr ▸ by decide)
  | ok r =>
    obtain ⟨data, c⟩ := r
    have ha := readBytes_reaches hv.legal hr
    obtain ⟨e, e'⟩ | ⟨t, v, e, e', hw, left, right⟩ := (hv.setCursor ha).appendAll data
    · simp only [e, e']
      exact raise_paired hv.toSameObs (by decide)
    · simp only [e, e']
      obtain ⟨m, n, -, rfl⟩ := left
      obtain ⟨m', n', -, rfl⟩ := right
      exact Paired.after_read (s := s) (c := c) (endBlock_paired hw hb) ha.consumed_le

/-! ### Literal/length and distance symbols -/

theorem execLit_paired (hc : SameCall s u) (hh : SameHead s u) (he : s.expect = .litlen) (he' : u.expect = .litlen)
    (hs : SameSymbols s u) (b : Byte) : Paired 0 s (execLit b s) (execLit b u) := by
  unfold execLit
  obtain ⟨e, e'⟩ | ⟨t, v, e, e', hv, left, right⟩ := hc.append b
  · simp only [e, e']
    exact raise_paired hc.toSameObs (by decide)
  · simp only [e, e']
    obtain ⟨m, n, -, rfl⟩ := left
    obtain ⟨m', n', -, rfl⟩ := right
    have hel : SameElement { s with outMem := m, outLen := n } { u with outMem := m', outLen := n' } := by
      unfold SameElement
      simp only [he]
      exact hs
    exact paired_next hv (.of_block { hh with expect := he'.trans he.symm, element := hel }) (.refl s)

theorem lengthSymbol_paired (hc : SameCall s u) (hh : SameHead s u) (hs : SameSymbols s u) (sym : Nat) :
    Paired 0 s (lengthSymbol sym s) (lengthSymbol sym u) := by
  unfold lengthSymbol
  rw [hc.resolveLength]
  cases hr : resolveLength sym s with
  | error c => exact raise_paired hc.toSameObs (resolveLength_error hc.legal hr)
  | ok r =>
    obtain ⟨len, c⟩ := r
    have ha := resolveLength_reaches hc.legal hr
    have hv : SameCall ((s.setCursor c).setCopyLen len) ((u.setCursor c).setCopyLen len) := { hc.setCursor ha with }
    have hp : s.btype = 2 → u.distPresent = s.distPresent := by
      obtain h1 | ⟨-, -, hp, -⟩ := hs
      · rw [h1]; intro h; cases h
      · exact fun _ => hp
    have hcond : (u.btype = 2 ∧ u.distPresent = false) ↔ (s.btype = 2 ∧ s.distPresent = false) := by
      rw [hh.btype]
      exact and_congr_right fun h => by rw [hp h]
    simp only [State.setCopyLen_btype, State.setCursor_btype, State.setCopyLen_distPresent, State.setCursor_distPresent,
      hcond]
    refine paired_ite (fun _ => raise_paired hv.toSameObs (by decide)) fun hn => ?_
    have hd : s.btype = 2 → s.distPresent = true := fun h2 => by simpa using fun hf => hn ⟨h2, hf⟩
    exact paired_next { hv with } (.of_block { hh with expect := rfl, element := ⟨rfl, hs, hd⟩ }) ha.onward

theorem distanceSymbol_paired (hc : SameCall s u) (hh : SameHead s u) (hs : SameSymbols s u)
    (hn : u.copyLen = s.copyLen) (dsym : Nat) :
    Paired 0 s (distanceSymbol dsym s) (distanceSymbol dsym u) := by
  unfold distanceSymbol
  rw [hc.resolveDistance hc.outLen]
  cases hr : resolveDistance dsym s with
  | error c => exact raise_paired hc.toSameObs (resolveDistance_error hc.legal hr)
  | ok r =>
    obtain ⟨d, c⟩ := r
    obtain ⟨ha, h1, hd⟩ := resolveDistance_ok hc.legal hr
    have hv : SameCall ((s.setCursor c).setCopyDist d) ((u.setCursor c).setCopyDist d) := { hc.setCursor ha with }
    simp only [State.setCopyDist_copyLen, State.setCursor_copyLen, hn]
    obtain ⟨e, e'⟩ | ⟨t, v, e, e', hw, left, right⟩ := hv.lz77Copy s.copyLen h1 hd
    · simp only [e, e']
      exact raise_paired hv.toSameObs (by decide)
    · simp only [e, e']
      obtain ⟨m, n, -, rfl⟩ := left
      obtain ⟨m', n', -, rfl⟩ := right
      exact paired_next { hw with } (.of_block { hh with expect := rfl, element := hs }) ha.onward

theorem litlen_paired (hc : SameCall s u) (hh : SameHead s u) (he : s.expect = .litlen) (he' : u.expect = .litlen)
    (hs : SameSymbols s u) {sym : Nat} {i : Instr} (hi : decodeLitlen sym = some i) :
    Paired 0 s (exec i s) (exec i u) := by
  rw [exec_of_decodeLitlen hi, exec_of_decodeLitlen hi]
  split
  · exact execLit_paired hc hh he he' hs _
  · split
    · exact endBlock_paired hc hh.bfinal
    · exact lengthSymbol_paired hc hh hs sym

/-! ### The dynamic header and the bit lengths -/

/-- The loop test of R290 with the same lengths: another code-length symbol, or the same tables. -/
theorem continueLengths_paired (hc : SameCall s u) (hh : SameHead s u) (hl : SameLengths s u) :
    Paired 0 s (.next s.continueLengths) (.next u.continueLengths) := by
  obtain ⟨h2, h_hlit, h_hdist, h_lens, -⟩ := id hl
  by_cases hlt : s.lens.length < s.hlit + s.hdist
  · rw [s.continueLengths_of_lt hlt, u.continueLengths_of_lt (by rw [h_lens, h_hlit, h_hdist]; exact hlt)]
    exact paired_next { hc with } (.of_block { hh with expect := rfl, element := hl }) (.refl s)
  · rw [s.continueLengths_of_ge (by omega), u.continueLengths_of_ge (by rw [h_lens, h_hlit, h_hdist]; omega)]
    have elit : u.litlenLens = s.litlenLens := by simp only [State.litlenLens, h_lens, h_hlit]
    have edist : u.distLens = s.distLens := by simp only [State.distLens, h_lens, h_hlit, h_hdist]
    unfold State.buildTables
    rw [elit, edist, h_hdist]
    split
    · exact paired_next { hc with }
        (.of_block { hh with expect := rfl, element := .inr ⟨h2, rfl, rfl, fun h => by cases h⟩ }) (.refl s)
    · exact paired_next { hc with }
        (.of_block { hh with expect := rfl, element := .inr ⟨h2, rfl, rfl, fun _ => rfl⟩ }) (.refl s)

theorem putLengths_paired (hc : SameCall s u) (hh : SameHead s u) (hl : SameLengths s u) (v : BitVec 4) (r : Nat) :
    Paired 0 s (.next (s.putLengths v r).continueLengths) (.next (u.putLengths v r).continueLengths) := by
  obtain ⟨h2, h_hlit, h_hdist, h_lens, h_meta⟩ := hl
  refine continueLengths_paired { hc with } { hh with } ⟨h2, h_hlit, h_hdist, ?_, h_meta⟩
  simp only [State.putLengths, h_lens]

theorem repeatLength_paired (hc : SameCall s u) (hh : SameHead s u) (hl : SameLengths s u) (v : BitVec 4) (r : Nat) :
    Paired 0 s (repeatLength v r s) (repeatLength v r u) := by
  obtain ⟨-, h_hlit, h_hdist, h_lens, -⟩ := id hl
  unfold repeatLength
  simp only [State.lensCount, h_hlit, h_hdist, h_lens]
  exact paired_ite (fun _ => raise_paired hc.toSameObs (by decide)) fun _ => putLengths_paired hc hh hl v r

/-- The extra bits of a repeat symbol, then the repeat. -/
theorem readRepeat_paired (hc : SameCall s u) (hh : SameHead s u) (hl : SameLengths s u) (v : BitVec 4) (n base : Nat)
    (hn : n ≤ 32) :
    Paired 0 s
      (match readBits n s with | .error c => raise c s | .ok (x, c) => repeatLength v (base + x) (s.setCursor c))
      (match readBits n u with | .error c => raise c u | .ok (x, c) => repeatLength v (base + x) (u.setCursor c)) := by
  rw [hc.readBits hn]
  cases hr : readBits n s with
  | error c => exact raise_paired hc.toSameObs (readBits_error_kind hn hr)
  | ok r =>
    obtain ⟨x, c⟩ := r
    have ha := readBits_reaches hc.legal hr
    exact (repeatLength_paired (hc.setCursor ha) (hh.setCursor c) hl v _).after_read ha.consumed_le

theorem clen_paired (hc : SameCall s u) (hh : SameHead s u) (hl : SameLengths s u) {sym : Nat} {i : Instr}
    (hi : decodeClen sym = some i) : Paired 0 s (exec i s) (exec i u) := by
  rw [exec_of_decodeClen hi, exec_of_decodeClen hi]
  split
  · exact putLengths_paired hc hh hl _ 1
  · split
    · obtain ⟨-, -, -, h_lens, -⟩ := id hl
      unfold execClRepeatPrev
      rw [h_lens]
      cases s.lens.getLast? with
      | none => exact raise_paired hc.toSameObs (by decide)
      | some prev => exact readRepeat_paired hc hh hl prev 2 3 (by omega)
    · split
      · exact readRepeat_paired hc hh hl 0 3 3 (by omega)
      · exact readRepeat_paired hc hh hl 0 7 11 (by omega)

/-- The dynamic header (46_dynamic_block.md R290 to R296). -/
theorem execHdrDynamic_paired (hc : SameCall s u) (hh : SameHead s u) (h2 : s.btype = 2) (a b : BitVec 5)
    (n : BitVec 4) : Paired 0 s (execHdrDynamic a b n s) (execHdrDynamic a b n u) := by
  have hv : SameCall (s.setCounts (hlitOf a) (hdistOf b) (hclenOf n)) (u.setCounts (hlitOf a) (hdistOf b) (hclenOf n)) :=
    { hc with }
  unfold execHdrDynamic
  simp only [State.setCounts_hlit, State.setCounts_hdist, State.setCounts_hclen, hv.readClens]
  refine paired_ite (fun _ => raise_paired hv.toSameObs (by decide)) fun _ => ?_
  refine paired_ite (fun _ => raise_paired hv.toSameObs (by decide)) fun _ => ?_
  cases hr : readClens (clenOrder.take (hclenOf n)) (List.replicate 19 0)
    (s.setCounts (hlitOf a) (hdistOf b) (hclenOf n)) with
  | error c => exact raise_paired hv.toSameObs (readClens_error hr ▸ by decide)
  | ok r =>
    obtain ⟨clens, c⟩ := r
    have ha := readClens_reaches hv.legal hr
    exact paired_next { hv.setCursor ha with }
      (.of_block { hh with expect := rfl, element := ⟨h2, rfl, rfl, rfl, rfl⟩ }) ha.onward

/-! ### The step of the block -/

theorem State.Fetched.reaches {s : State} {c : Cursor} (h : s.Fetched c) : s.Reaches c := by
  obtain ⟨k, -, hk, hc⟩ := h
  exact ⟨k, hk, hc⟩

/-- The element both runs read, and its meaning in both. -/
theorem runFetched_paired {f : Except Cause (Instr × Cursor)} (hc : SameCall s u)
    (herr : ∀ e, f = .error e → e.kind ≠ .internalBug)
    (hok : ∀ i c, f = .ok (i, c) → s.Fetched c ∧
      (SameCall (s.setCursor c) (u.setCursor c) →
        Paired 0 (s.setCursor c) (exec i (s.setCursor c)) (exec i (u.setCursor c)))) :
    Paired 1 s (runFetched f s) (runFetched f u) := by
  cases f with
  | error e => exact raise_paired hc.toSameObs (herr e rfl)
  | ok r =>
    obtain ⟨i, c⟩ := r
    obtain ⟨hf, hp⟩ := hok i c rfl
    exact (hp (hc.setCursor hf.reaches)).after_read hf.consumed.1

theorem readFinalStep_paired (hc : SameCall s u) : Paired 1 s (readFinalStep s) (readFinalStep u) := by
  unfold readFinalStep
  rw [hc.readBits (show 1 ≤ 32 by omega)]
  cases hr : readBits 1 s with
  | error c => exact raise_paired hc.toSameObs (readBits_error_kind (by omega) hr)
  | ok r =>
    obtain ⟨v, c⟩ := r
    have hf : s.Fetched c := by
      obtain ⟨hk, -, e⟩ := readBits_ok hc.legal hr
      exact ⟨1, le_rfl, hk, e⟩
    exact paired_next { hc.setCursor hf.reaches with phase := rfl } rfl ⟨rfl, hf.consumed.1, fun _ => rfl⟩

theorem element_paired (hc : SameCall s u) (hb : SameBlock s u) :
    Paired 1 s (runFetched (fetchElement s) s) (runFetched (fetchElement u) u) := by
  obtain ⟨hh, he, hel⟩ := hb
  have hl := hc.legal
  unfold SameElement at hel
  unfold fetchElement
  rw [he]
  cases hx : s.expect <;> rw [hx] at hel he <;> dsimp only at hel ⊢
  case storedHeader =>
    rw [hc.fetchStoredHeader]
    refine runFetched_paired hc (fun e => fetchStoredHeader_error hel) fun i c hr => ?_
    obtain ⟨hf, h8, len, nlen, rfl⟩ := fetchStoredHeader_ok hr
    exact ⟨hf, fun hc' => execHdrStored_paired hc' (hh.setCursor c).bfinal h8 len nlen⟩
  case dynamicHeader =>
    rw [hc.fetchDynamicHeader]
    refine runFetched_paired hc (fun e => fetchDynamicHeader_error) fun i c hr => ?_
    obtain ⟨hf, a, b, n, rfl⟩ := fetchDynamicHeader_ok hl hr
    exact ⟨hf, fun hc' => execHdrDynamic_paired hc' (hh.setCursor c) hel a b n⟩
  case codeLength =>
    obtain ⟨-, -, -, -, h_meta⟩ := id hel
    rw [hc.fetchCodeLength h_meta]
    refine runFetched_paired hc (fun e => fetchCodeLength_error hl) fun i c hr => ?_
    obtain ⟨hf, sym, hi, -⟩ := fetchCodeLength_ok hl hr
    exact ⟨hf, fun hc' => clen_paired hc' (hh.setCursor c) hel hi⟩
  case litlen =>
    rw [hc.fetchLitlen hh.btype (hel.imp_right fun h => h.2.1)]
    refine runFetched_paired hc (fun e => fetchLitlen_error hl) fun i c hr => ?_
    obtain ⟨hf, sym, hi⟩ := fetchLitlen_ok hl hr
    exact ⟨hf, fun hc' => litlen_paired hc' (hh.setCursor c) hx he hel hi⟩
  case distance =>
    obtain ⟨hn, hs, hp⟩ := hel
    have ht : s.btype = 1 ∨ u.distTab = s.distTab := by
      obtain h1 | ⟨h2, -, -, hd⟩ := hs
      · exact .inl h1
      · exact .inr (hd (hp h2))
    rw [hc.fetchDistance hh.btype ht]
    refine runFetched_paired hc (fun e => fetchDistance_error hl) fun i c hr => ?_
    obtain ⟨hf, dsym, hi⟩ := fetchDistance_ok hl hr
    refine ⟨hf, fun hc' => ?_⟩
    rw [exec_of_decodeDist hi, exec_of_decodeDist hi]
    exact distanceSymbol_paired hc' (hh.setCursor c) hs hn dsym

theorem phase_ne_error_of_busy {s : State} (hb : s.busy = true) : s.phase ≠ .error := by
  intro e
  rw [State.busy, e] at hb
  cases hb

/-- A step of a running call, in both runs: it answers, it keeps them alike, and if it does not fail it consumes input. -/
theorem blockStep_paired (h : Alike s u) (hb : s.busy = true) :
    Paired 1 s (blockStep s) (blockStep u) := by
  have hc := h.call (phase_ne_error_of_busy hb)
  have hr := h.regs
  unfold SameRegs at hr
  unfold State.busy at hb
  unfold blockStep
  rw [h.obs.phase]
  cases hp : s.phase <;> rw [hp] at hb hr <;> dsimp only at hr ⊢
  case readFinal => exact readFinalStep_paired hc
  case readType =>
    rw [hc.fetchBlockHeader hr]
    refine runFetched_paired hc (fun e => fetchBlockHeader_error) fun i c hr => ?_
    obtain ⟨hf, t, rfl⟩ := fetchBlockHeader_ok hc.legal hr
    exact ⟨hf, fun hc' => blockHeader_paired hc' hp _ t⟩
  case decodeBlock => exact element_paired hc hr
  all_goals cases hb

/-- Outside a call the block waits (70_reset_and_hazards.md R452). -/
theorem blockStep_idle {s : State} (hb : s.busy = false) : blockStep s = .next s := by
  unfold State.busy at hb
  unfold blockStep
  cases hp : s.phase with
  | idle | done | error => rfl
  | readFinal | readType | decodeBlock => rw [hp] at hb; cases hb

theorem step_alike (h : Alike s u) : ∃ t v, step s = .next t ∧ step u = .next v ∧ Alike t v := by
  rw [step_block h.obs.queue, step_block h.obs.queue_right]
  cases hb : s.busy with
  | true =>
    obtain ⟨t, v, h1, h2, h3, -⟩ := blockStep_paired h hb
    exact ⟨t, v, h1, h2, h3⟩
  | false =>
    have hb' : u.busy = false := by rw [← hb]; simp only [State.busy, h.obs.phase]
    exact ⟨s, u, blockStep_idle hb, blockStep_idle hb', h⟩

/-! ### Whole runs -/

theorem runSteps_alike (h : Alike s u) (n : Nat) :
    ∃ t v, runSteps n s = .next t ∧ runSteps n u = .next v ∧ Alike t v := by
  induction n generalizing s u with
  | zero => exact ⟨s, u, rfl, rfl, h⟩
  | succ n ih =>
    obtain ⟨t, v, hs, hu, h'⟩ := step_alike h
    rw [runSteps_succ_next hs, runSteps_succ_next hu]
    exact ih h'

/-- A call begins alike on the same stream, with as much room in OUT (49_host_interface.md R381). -/
theorem startCall_alike (hs : s.startable) (hu : u.startable) (hlen : u.inLen = s.inLen)
    (hsize : u.params.outMemSize = s.params.outMemSize) (hbytes : ∀ a < s.inLen.toNat, u.inByte a = s.inByte a) :
    Alike s.startCall u.startCall := by
  have hc : SameCall s.startCall u.startCall :=
    { legal := .at (Nat.zero_le _) cursorAt_zero.symm, cursor := rfl, inLen := hlen, bytes := hbytes, phase := rfl,
      outLen := rfl, errKind := rfl, errCause := rfl, queue := hs.2.2, queue_right := hu.2.2, size := hsize,
      fits := Nat.zero_le _, output := fun a ha => absurd ha (Nat.not_lt_zero a) }
  exact ⟨hc.toSameObs, fun _ => hc, trivial⟩

/-- Settles O58: two such calls begin alike, and every step keeps them alike. -/
theorem callDependsOnlyOnItsStream : Obligations.CallDependsOnlyOnItsStream := by
  unfold Obligations.CallDependsOnlyOnItsStream
  intro s u n _ _ hs hu hlen hsize hbytes
  have hstart := startCall_alike hs hu hlen.symm hsize.symm fun a ha => (hbytes a ha).symm
  obtain ⟨t, v, ht, hv, h⟩ := runSteps_alike hstart n
  exact ⟨t, v, ht, hv, h.obs.phase.symm, h.obs.cursor.symm, h.obs.outLen.symm, h.obs.errKind.symm, h.obs.errCause.symm,
    fun hp a ha => ((h.call hp).output a ha).symm⟩

end Sys2Proof.Machine
end

section
/-! The parser's place, `phase` and `expect`, is the machine's own (log entry 6): `inflate` does not set it, and no read
of the stream and no append depends on it. -/

namespace Sys2Proof.Machine

/-- `s` with the parser at phase `p` and element `e`. -/
def State.at (p : Phase) (e : Element) (s : State) : State := { s with phase := p, expect := e }

variable (p : Phase) (e : Element) (s : State)

@[simp] theorem State.setCursor_at (c : Cursor) : (s.at p e).setCursor c = (s.setCursor c).at p e := rfl
@[simp] theorem State.at_cursor : (s.at p e).cursor = s.cursor := rfl
@[simp] theorem State.at_inLen : (s.at p e).inLen = s.inLen := rfl
@[simp] theorem State.at_phase : (s.at p e).phase = p := rfl
@[simp] theorem State.at_btype : (s.at p e).btype = s.btype := rfl
@[simp] theorem State.at_outLen : (s.at p e).outLen = s.outLen := rfl
@[simp] theorem State.at_outByte (a : Nat) : (s.at p e).outByte a = s.outByte a := rfl
@[simp] theorem State.at_lens : (s.at p e).lens = s.lens := rfl

theorem State.takeBits_at (n : Nat) (c : Cursor) : (s.at p e).takeBits n c = s.takeBits n c := by
  induction n generalizing c with
  | zero => rfl
  | succ n ih => simp only [State.takeBits, ih]; rfl

@[simp] theorem readBits_at (n : Nat) : readBits n (s.at p e) = readBits n s := by
  unfold readBits
  rw [State.takeBits_at]
  rfl

@[simp] theorem readBytes_at (n : Nat) : readBytes n (s.at p e) = readBytes n s := rfl

theorem decodeSymbolFrom_at (t : Table) (n L : Nat) : decodeSymbolFrom t (s.at p e) n L = decodeSymbolFrom t s n L := by
  induction n generalizing L with
  | zero => rfl
  | succ n ih => simp only [decodeSymbolFrom, peekBits, skipBits, readBits_at, ih]

@[simp] theorem decodeSymbol_at (t : Table) (lmin lmax : Nat) :
    decodeSymbol t lmin lmax (s.at p e) = decodeSymbol t lmin lmax s := decodeSymbolFrom_at p e s t _ _

@[simp] theorem resolveLength_at (sym : Nat) : resolveLength sym (s.at p e) = resolveLength sym s := by
  simp only [resolveLength, readBits_at]

@[simp] theorem resolveDistance_at (dsym : Nat) : resolveDistance dsym (s.at p e) = resolveDistance dsym s := by
  simp only [resolveDistance, readBits_at]
  rfl

theorem readClens_at (order : List Nat) (acc : List (BitVec 3)) :
    readClens order acc (s.at p e) = readClens order acc s := by
  induction order generalizing acc s with
  | nil => rfl
  | cons slot order ih => simp only [readClens, readBits_at, State.setCursor_at, ih]

@[simp] theorem append_at (b : Byte) : append b (s.at p e) = (append b s).map (State.at p e) := by
  unfold append
  show (if s.outLen = s.params.outMemSize then _ else _) = _
  split <;> rfl

@[simp] theorem appendAll_at (bs : List Byte) : appendAll bs (s.at p e) = (appendAll bs s).map (State.at p e) := by
  induction bs generalizing s with
  | nil => rfl
  | cons b bs ih =>
    simp only [appendAll, append_at]
    cases append b s with
    | error c => rfl
    | ok t => exact ih t

@[simp] theorem lz77Copy_at (n d : Nat) : lz77Copy n d (s.at p e) = (lz77Copy n d s).map (State.at p e) := by
  induction n generalizing s with
  | zero => rfl
  | succ n ih =>
    simp only [lz77Copy, append_at, State.at_outLen, State.at_outByte]
    cases append (s.outByte (s.outLen.toNat - d)) s with
    | error c => rfl
    | ok t => exact ih t

end Sys2Proof.Machine
end

section
/-! `inflate` cut into the turns the machine takes in one step each: READ_FINAL, the block header, one element of a block
(log entry 6). -/

namespace Sys2Proof.Machine

/-- The final-block flag is written (10_state.md R32). -/
def State.setBfinal (f : Bool) (s : State) : State := { s with bfinal := f }

/-- The block type is written (R33). -/
def State.setBtype (t : BitVec 2) (s : State) : State := { s with btype := t }

/-- READ_FINAL (43_block_dispatcher.md R231). -/
def finalTurn (s : State) : Except Cause State :=
  match readBits 1 s with
  | .error c => .error c
  | .ok (f, c) => .ok ((s.setCursor c).setBfinal (f.testBit 0))

/-- A block of type `t` begins (R233), a stored one at the next byte boundary (44_stored_block.md R250). -/
def enterTurn (t : BitVec 2) (s : State) : Except Cause State :=
  if t = 0 then .ok ((s.setBtype t).setCursor s.cursor.align)
  else if t = 1 ∨ t = 2 then .ok (s.setBtype t)
  else .error .reservedBtype

/-- READ_TYPE (R232). -/
def headerTurn (s : State) : Except Cause State :=
  match readBits 2 s with
  | .error c => .error c
  | .ok (t, c) => enterTurn (BitVec.ofNat 2 t) (s.setCursor c)

/-- A stored block after its header (R250 to R254). -/
def storedBody (len nlen : BitVec 16) (s : State) : Except Cause State :=
  let s := s.setStoredHeader len nlen
  if nlen ≠ ~~~len then .error .storedLenMismatch
  else if len = 0 then .ok s
  else
    match readBytes len.toNat s with
    | .error c => .error c
    | .ok (data, c) => appendAll data (s.setCursor c)

/-- A stored block, from a byte boundary on (R250, R251). -/
def storedTurn (s : State) : Except Cause State :=
  match readBytes 4 s with
  | .error c => .error c
  | .ok (hdr, c) =>
    let half (lo hi : Nat) : BitVec 16 := (hdr.getD lo 0).setWidth 16 ||| ((hdr.getD hi 0).setWidth 16 <<< 8)
    storedBody (half 0 1) (half 2 3) (s.setCursor c)

/-- The literal/length symbol of a fixed or of a dynamic block (45_fixed_block.md R271, 46_dynamic_block.md R306). -/
def litlenCode (s : State) : Except Cause (Nat × Cursor) :=
  if s.btype = 1 then decodeSymbol fixedLitlen 7 9 s else decodeSymbol s.litlenTab 1 15 s

/-- A length symbol: its length, and the check for a distance table (47_length_distance.md R333 to R336). -/
def lengthTurn (sym : Nat) (s : State) : Except Cause State :=
  match resolveLength sym s with
  | .error c => .error c
  | .ok (len, c) =>
    let s := (s.setCursor c).setCopyLen len
    if s.btype = 2 ∧ s.distPresent = false then .error .noDistanceTable else .ok s

/-- The distance symbol of a fixed or of a dynamic block (R275, R306). -/
def distanceCode (s : State) : Except Cause (Nat × Cursor) :=
  if s.btype = 1 then
    match readBits 5 s with
    | .error c => .error c
    | .ok (v, c) => .ok (revBits 5 v, c)
  else decodeSymbol s.distTab 1 15 s

/-- The distance symbol and the copy (R275, R306, 48_lz77_expander.md R361). -/
def distanceTurn (s : State) : Except Cause State :=
  match distanceCode s with
  | .error c => .error c
  | .ok (dsym, c) => finishBackReference dsym (s.setCursor c)

/-- A turn of the loops of R272 and R306, the further turns being `loop`. -/
def symbolTurn (loop : State → Except Cause State) (s : State) : Except Cause State :=
  match litlenCode s with
  | .error c => .error c
  | .ok (sym, c) =>
    if sym ≤ 255 then append (BitVec.ofNat 8 sym) (s.setCursor c) >>= loop
    else if sym = 256 then .ok (s.setCursor c)
    else lengthTurn sym (s.setCursor c) >>= fun s => distanceTurn s >>= loop

/-- The extra bits of a repeat symbol and the repeat (R299 to R302). -/
def repeatTurn (v : BitVec 4) (n base : Nat) (s : State) : Except Cause State :=
  match readBits n s with
  | .error c => .error c
  | .ok (x, c) => checkedPut v (base + x) (s.setCursor c)

/-- A turn of the loop of R290 over code-length symbols. -/
def codeLengthTurn (s : State) : Except Cause State :=
  match decodeSymbol s.metaTab 1 15 s with
  | .error c => .error c
  | .ok (sym, c) =>
    let s := s.setCursor c
    if sym ≤ 15 then .ok (s.putLengths (BitVec.ofNat 4 sym) 1)
    else if sym = 16 then
      match s.lens.getLast? with
      | none => .error .repeatNoPrevious
      | some prev => repeatTurn prev 2 3 s
    else if sym = 17 then repeatTurn 0 3 3 s
    else if sym = 18 then repeatTurn 0 7 11 s
    else .error .clenSymbolRange

/-- The counts are checked and the meta-table is built (R292 to R295). -/
def metaTurn (s : State) : Except Cause State :=
  if hlitMax < s.hlit then .error .hlitRange
  else if hdistMax < s.hdist then .error .hdistRange
  else
    match readClens (clenOrder.take s.hclen) (List.replicate 19 0) s with
    | .error c => .error c
    | .ok (clens, c) => .ok ((s.setCursor c).setCodeLengths clens)

/-- The three counts of a dynamic header (R291), as they stand in the stream. -/
def countFields (s : State) : Except Cause (Nat × Nat × Nat × Cursor) :=
  match readBits 5 s with
  | .error c => .error c
  | .ok (h, c) =>
    match readBits 5 (s.setCursor c) with
    | .error c => .error c
    | .ok (d, c) =>
      match readBits 4 (s.setCursor c) with
      | .error c => .error c
      | .ok (n, c) => .ok (h, d, n, c)

/-- The dynamic header (R291 to R296). -/
def dynamicHeaderTurn (s : State) : Except Cause State :=
  match countFields s with
  | .error c => .error c
  | .ok (h, d, n, c) => metaTurn ((s.setCursor c).setCounts (h + 257) (d + 1) (n + 4))

/-! ### The procedures of `inflate` run these turns -/

theorem fixedBlock_succ {s : State} (h1 : s.btype = 1) (fuel : Nat) :
    fixedBlock (fuel + 1) s = symbolTurn (fixedBlock fuel) s := by
  have hne : s.btype ≠ 2 := by rw [h1]; decide
  rw [fixedBlock, symbolTurn, litlenCode, if_pos h1]
  cases decodeSymbol fixedLitlen 7 9 s with
  | error c => rfl
  | ok r =>
    obtain ⟨sym, c⟩ := r
    simp only [bind, Except.bind, pure, Except.pure]
    split
    · rfl
    · split
      · rfl
      · unfold lengthTurn
        cases resolveLength sym (s.setCursor c) with
        | error c => rfl
        | ok r =>
          simp only [State.setCopyLen_btype, State.setCursor_btype, hne, false_and, if_false]
          simp only [distanceTurn, distanceCode, State.setCopyLen_btype, State.setCursor_btype, h1, if_true]
          cases readBits 5 (((s.setCursor c).setCursor r.2).setCopyLen r.1) with
          | error c => rfl
          | ok q => simp only [bitrev_legal (show 1 ≤ 5 by omega) (show 5 ≤ 15 by omega)]

theorem dynamicData_succ {s : State} (h2 : s.btype = 2) (fuel : Nat) :
    dynamicData (fuel + 1) s = symbolTurn (dynamicData fuel) s := by
  have hne : s.btype ≠ 1 := by rw [h2]; decide
  rw [dynamicData, symbolTurn, litlenCode, if_neg hne]
  cases decodeSymbol s.litlenTab 1 15 s with
  | error c => rfl
  | ok r =>
    obtain ⟨sym, c⟩ := r
    simp only [bind, Except.bind, pure, Except.pure]
    split
    · rfl
    · split
      · rfl
      · unfold lengthTurn
        cases resolveLength sym (s.setCursor c) with
        | error c => rfl
        | ok r =>
          simp only [State.setCopyLen_btype, State.setCursor_btype, h2, true_and]
          split
          · rfl
          · simp only [distanceTurn, distanceCode, State.setCopyLen_btype, State.setCursor_btype, hne, if_false]
            cases decodeSymbol (((s.setCursor c).setCursor r.2).setCopyLen r.1).distTab 1 15
              (((s.setCursor c).setCursor r.2).setCopyLen r.1) <;> rfl

/-- The extra bits, the check and the repeat of R290, then the further turns. -/
theorem repeatTurn_bind (v : BitVec 4) (n base : Nat) (s : State) (loop : State → Except Cause State) :
    (repeatTurn v n base s >>= loop) =
      (readBits n s >>= fun r => checkedPut v (base + r.1) (s.setCursor r.2) >>= loop) := by
  unfold repeatTurn
  cases readBits n s <;> rfl

theorem codeLengths_succ (fuel : Nat) (s : State) :
    codeLengths (fuel + 1) s =
      if s.hlit + s.hdist ≤ s.lensCount then .ok s else codeLengthTurn s >>= codeLengths fuel := by
  rw [codeLengths, codeLengthTurn]
  split
  · rfl
  · cases decodeSymbol s.metaTab 1 15 s with
    | error c => rfl
    | ok r =>
      obtain ⟨sym, c⟩ := r
      simp only [bind, Except.bind]
      split
      · rfl
      · split
        · cases (s.setCursor c).lens.getLast? with
          | none => rfl
          | some prev => exact (repeatTurn_bind prev 2 3 (s.setCursor c) (codeLengths fuel)).symm
        · split
          · exact (repeatTurn_bind 0 3 3 (s.setCursor c) (codeLengths fuel)).symm
          · split
            · exact (repeatTurn_bind 0 7 11 (s.setCursor c) (codeLengths fuel)).symm
            · rfl

/-- The checks and the meta-table of R292 to R295, then the rest of the block. -/
theorem metaTurn_bind (s : State) (rest : State → Except Cause State) :
    (metaTurn s >>= rest) =
      if s.hlit > 286 then .error .hlitRange
      else if s.hdist > 30 then .error .hdistRange
      else readClens (clenOrder.take s.hclen) (List.replicate 19 0) s >>= fun r =>
        rest ((s.setCursor r.2).setCodeLengths r.1) := by
  unfold metaTurn hlitMax hdistMax
  split
  · rfl
  · split
    · rfl
    · cases readClens (clenOrder.take s.hclen) (List.replicate 19 0) s <;> rfl

theorem dynamicBlock_eq (fuel : Nat) (s : State) :
    dynamicBlock fuel s =
      dynamicHeaderTurn s >>= fun s => codeLengths fuel s >>= fun s => dynamicData fuel s.buildTables := by
  unfold dynamicBlock dynamicHeaderTurn countFields
  cases readBits 5 s with
  | error c => rfl
  | ok h =>
    obtain ⟨h, c1⟩ := h
    simp only [bind, Except.bind, State.setCursor_setCursor]
    cases readBits 5 (s.setCursor c1) with
    | error c => rfl
    | ok d =>
      obtain ⟨d, c2⟩ := d
      dsimp only
      cases readBits 4 (s.setCursor c2) with
      | error c => rfl
      | ok n =>
        obtain ⟨n, c3⟩ := n
        refine Eq.trans ?_ (metaTurn_bind ((s.setCursor c3).setCounts (h + 257) (d + 1) (n + 4)) _).symm
        rfl

theorem Cursor.align_align (c : Cursor) : c.align.align = c.align := by
  have h8 := c.align_left
  generalize c.align = d at h8 ⊢
  unfold Cursor.align
  rw [if_pos h8]

theorem storedBlock_eq (s : State) : storedBlock s = storedTurn (s.setCursor s.cursor.align) := by
  unfold storedBlock storedTurn
  dsimp only
  cases readBytes 4 (s.setCursor s.cursor.align) with
  | error c => rfl
  | ok r =>
    obtain ⟨hdr, c⟩ := r
    simp only [bind, Except.bind]
    generalize (hdr.getD 0 0).setWidth 16 ||| (hdr.getD 1 0).setWidth 16 <<< 8 = len
    generalize (hdr.getD 2 0).setWidth 16 ||| (hdr.getD 3 0).setWidth 16 <<< 8 = nlen
    unfold storedBody
    by_cases hn : nlen ≠ ~~~len
    · rw [if_pos hn, if_pos hn]; rfl
    · rw [if_neg hn, if_neg hn]
      split
      · rfl
      · cases readBytes len.toNat (((s.setCursor s.cursor.align).setCursor c).setStoredHeader len nlen) <;> rfl

/-- READ_TYPE, then the block (R232, R233). -/
theorem headerTurn_bind (fuel : Nat) (s : State) :
    (headerTurn s >>= decodeBlock fuel) =
      (readBits 2 s >>= fun r => decodeBlock fuel ((s.setCursor r.2).setBtype (BitVec.ofNat 2 r.1))) := by
  unfold headerTurn
  cases readBits 2 s with
  | error c => rfl
  | ok r =>
    simp only [bind, Except.bind]
    generalize s.setCursor r.2 = s, BitVec.ofNat 2 r.1 = t
    have hbt : (s.setBtype t).btype = t := rfl
    have hcur (c : Cursor) : ((s.setBtype t).setCursor c).btype = t := rfl
    unfold enterTurn decodeBlock
    by_cases h0 : t = 0
    · simp only [hbt, hcur, if_pos h0, storedBlock_eq]
      simp only [State.setCursor_cursor, Cursor.align_align, State.setCursor_setCursor]
      rfl
    · by_cases h12 : t = 1 ∨ t = 2
      · simp only [if_neg h0, if_pos h12]
      · rw [not_or] at h12
        simp only [hbt, h0, h12, or_self, if_false]
        rfl

theorem inflateBlocks_succ (fuel n : Nat) (s : State) :
    inflateBlocks fuel (n + 1) s =
      finalTurn s >>= fun s => (headerTurn s >>= decodeBlock fuel) >>= fun s =>
        if s.bfinal then .ok s else inflateBlocks fuel n s := by
  simp only [headerTurn_bind, finalTurn]
  rw [inflateBlocks]
  cases readBits 1 s with
  | error c => rfl
  | ok r =>
    simp only [bind, Except.bind, pure, Except.pure]
    rw [show ({ s.setCursor r.2 with bfinal := r.1.testBit 0 } : State) =
      (s.setCursor r.2).setBfinal (r.1.testBit 0) from rfl]
    cases readBits 2 ((s.setCursor r.2).setBfinal (r.1.testBit 0)) <;> rfl

end Sys2Proof.Machine
end

section
/-! What one step of the machine answers where `inflate` makes one turn, and runs of steps where it makes several. -/

namespace Sys2Proof.Machine

/-- The outcome `o` is what the answer of a turn means to the machine: a next state related to the state of the turn, or
the error state of its cause. -/
inductive Answers (o : Out) : Except Cause State → (State → State → Prop) → Prop where
  | next {u : State} {Q : State → State → Prop} (t : State) (ho : o = .next t) (hq : Q u t) : Answers o (.ok u) Q
  | raise {c : Cause} {Q : State → State → Prop} (t : State) (ho : o = raise c t) : Answers o (.error c) Q

/-- The machine is at the element `e` of a block, else as `u`. -/
def AtElement (e : Element) (u t : State) : Prop := t = u.at .decodeBlock e

/-- The machine is past the end of a block, else as `u` (43_block_dispatcher.md R234). -/
def AtBlockEnd (u t : State) : Prop := ∃ e, t = u.at (if u.bfinal then .done else .readFinal) e

/-- The machine is at DONE, else as `u`. -/
def AtDone (u t : State) : Prop := ∃ e, t = u.at .done e

theorem answers_raise (c : Cause) (t : State) (Q : State → State → Prop) : Answers (raise c t) (.error c) Q :=
  .raise t rfl

theorem answers_next {u t : State} {Q : State → State → Prop} (h : Q u t) : Answers (.next t) (.ok u) Q :=
  .next t rfl h

variable (s : State)

/-! ### Outside the blocks -/

/-- The machine is at READ_TYPE, else as `u` (R232). -/
def AtType (e : Element) (u t : State) : Prop := t = u.at .readType e

theorem finalTurn_answers (e : Element) :
    Answers (blockStep (s.at .readFinal e)) (finalTurn s) (AtType e) := by
  show Answers (readFinalStep (s.at .readFinal e)) _ _
  unfold readFinalStep finalTurn
  rw [readBits_at]
  cases readBits 1 s with
  | error c => exact answers_raise ..
  | ok r => exact answers_next rfl

/-- The element a block of each type begins with (R233). -/
def firstElement (btype : BitVec 2) : Element :=
  if btype = 0 then .storedHeader else if btype = 1 then .litlen else .dynamicHeader

/-- The machine is at the first element of a block, else as `u`. -/
def AtBlockStart (u t : State) : Prop := AtElement (firstElement u.btype) u t

theorem headerTurn_answers (e : Element) :
    Answers (blockStep (s.at .readType e)) (headerTurn s) AtBlockStart := by
  show Answers (runFetched (fetchBlockHeader (s.at .readType e)) (s.at .readType e)) _ _
  unfold fetchBlockHeader headerTurn
  rw [readBits_at]
  cases readBits 2 s with
  | error c => exact answers_raise ..
  | ok r =>
    obtain ⟨v, c⟩ := r
    show Answers (exec (decodeBlockHeader s.bfinal (BitVec.ofNat 2 v)) ((s.setCursor c).at .readType e))
      (enterTurn (BitVec.ofNat 2 v) (s.setCursor c)) _
    generalize BitVec.ofNat 2 v = t
    have ht : t = 0 ∨ t = 1 ∨ t = 2 ∨ t = 3 := by
      revert t; decide
    obtain rfl | rfl | rfl | rfl := ht
    · exact .next _ rfl rfl
    · exact .next _ rfl rfl
    · exact .next _ rfl rfl
    · exact .raise _ rfl

/-! ### Stored blocks -/

theorem execHdrStored_answers (len nlen : BitVec 16) :
    Answers (execHdrStored len nlen (s.at .decodeBlock .storedHeader)) (storedBody len nlen s) AtBlockEnd := by
  unfold execHdrStored storedBody
  rw [show (s.at .decodeBlock .storedHeader).setStoredHeader len nlen =
    (s.setStoredHeader len nlen).at .decodeBlock .storedHeader from rfl]
  generalize s.setStoredHeader len nlen = s
  dsimp only
  rw [readBytes_at]
  split
  · exact answers_raise ..
  · split
    · exact answers_next ⟨_, rfl⟩
    · cases readBytes len.toNat s with
      | error c => exact answers_raise ..
      | ok r =>
        dsimp only
        rw [State.setCursor_at, appendAll_at]
        cases appendAll r.1 (s.setCursor r.2) with
        | error c => exact answers_raise ..
        | ok u => exact answers_next ⟨_, rfl⟩

theorem storedTurn_answers :
    Answers (blockStep (s.at .decodeBlock .storedHeader)) (storedTurn s) AtBlockEnd := by
  show Answers (runFetched (fetchStoredHeader (s.at .decodeBlock .storedHeader)) (s.at .decodeBlock .storedHeader)) _ _
  unfold fetchStoredHeader storedTurn
  rw [readBytes_at]
  cases readBytes 4 s with
  | error c => exact answers_raise ..
  | ok r => exact execHdrStored_answers (s.setCursor r.2) _ _

/-! ### Literal/length and distance symbols -/

theorem execLit_answers (b : Byte) :
    Answers (execLit b (s.at .decodeBlock .litlen)) (append b s) (AtElement .litlen) := by
  unfold execLit
  rw [append_at]
  cases append b s with
  | error c => exact answers_raise ..
  | ok u => exact answers_next rfl

theorem lengthSymbol_answers (sym : Nat) :
    Answers (lengthSymbol sym (s.at .decodeBlock .litlen)) (lengthTurn sym s) (AtElement .distance) := by
  unfold lengthSymbol lengthTurn
  rw [resolveLength_at]
  cases resolveLength sym s with
  | error c => exact answers_raise ..
  | ok r =>
    show Answers (if s.btype = 2 ∧ s.distPresent = false then _ else _)
      (if s.btype = 2 ∧ s.distPresent = false then _ else _) _
    split
    · exact answers_raise ..
    · exact answers_next rfl

theorem distanceSymbol_answers (dsym : Nat) :
    Answers (distanceSymbol dsym (s.at .decodeBlock .distance)) (finishBackReference dsym s) (AtElement .litlen) := by
  unfold distanceSymbol finishBackReference
  rw [resolveDistance_at]
  cases resolveDistance dsym s with
  | error c => exact answers_raise ..
  | ok r =>
    obtain ⟨d, c⟩ := r
    simp only [bind, Except.bind]
    rw [show (((s.at .decodeBlock .distance).setCursor c).setCopyDist d) =
      ((s.setCursor c).setCopyDist d).at .decodeBlock .distance from rfl, lz77Copy_at]
    show Answers _ (lz77Copy s.copyLen d ((s.setCursor c).setCopyDist d)) _
    rw [show (((s.setCursor c).setCopyDist d).at .decodeBlock .distance).copyLen = s.copyLen from rfl]
    cases lz77Copy s.copyLen d ((s.setCursor c).setCopyDist d) with
    | error c => exact answers_raise ..
    | ok u => exact answers_next rfl

/-- The literal/length symbols with a row of their own (30_encoding.md R132). -/
theorem decodeLitlen_of_lt {sym : Nat} (h : sym < 288) : ∃ i, decodeLitlen sym = some i := by
  unfold decodeLitlen
  split
  · exact ⟨_, rfl⟩
  · exact ⟨_, List.getElem?_eq_getElem (show sym - 256 < 32 by omega)⟩

theorem decodeLitlen_of_ge {sym : Nat} (h : 288 ≤ sym) : decodeLitlen sym = none := by
  unfold decodeLitlen
  rw [if_neg (by omega)]
  exact List.getElem?_eq_none (show 32 ≤ sym - 256 by omega)

theorem decodeDist_none {dsym : Nat} (h : decodeDist dsym = none) : 32 ≤ dsym := List.getElem?_eq_none_iff.1 h

theorem decodeClen_none_iff (sym : Nat) : decodeClen sym = none ↔ 18 < sym := by
  unfold decodeClen
  split_ifs <;> simp <;> omega

theorem fetchLitlen_at (p : Phase) (e : Element) :
    fetchLitlen (s.at p e) =
      match litlenCode s with
      | .error c => .error c
      | .ok (sym, c) => match decodeLitlen sym with | some i => .ok (i, c) | none => .error .litlenSymbolRange := by
  simp only [fetchLitlen, State.at_btype, decodeSymbol_at] <;> rfl

theorem fetchDistance_at (p : Phase) (e : Element) :
    fetchDistance (s.at p e) =
      match distanceCode s with
      | .error c => .error c
      | .ok (dsym, c) => match decodeDist dsym with | some i => .ok (i, c) | none => .error .distSymbolRange := by
  simp only [fetchDistance, distanceCode, State.at_btype, decodeSymbol_at, readBits_at]
  split
  · cases readBits 5 s with
    | error c => rfl
    | ok r => simp only [bitrev_legal (show 1 ≤ 5 by omega) (show 5 ≤ 15 by omega)] <;> rfl
  · rfl

theorem litlen_error_answers {e : Cause} (hd : litlenCode s = .error e) (Q : State → State → Prop) :
    Answers (blockStep (s.at .decodeBlock .litlen)) (.error e) Q := by
  show Answers (runFetched (fetchLitlen (s.at .decodeBlock .litlen)) _) _ _
  rw [fetchLitlen_at, hd]
  exact answers_raise ..

/-- What the step at a literal/length symbol runs once the symbol is decoded. -/
theorem blockStep_litlen {sym : Nat} {c : Cursor} (hd : litlenCode s = .ok (sym, c)) (hs : sym < 288) :
    blockStep (s.at .decodeBlock .litlen) =
      if sym < 256 then execLit (BitVec.ofNat 8 sym) ((s.setCursor c).at .decodeBlock .litlen)
      else if sym = 256 then execEob ((s.setCursor c).at .decodeBlock .litlen)
      else lengthSymbol sym ((s.setCursor c).at .decodeBlock .litlen) := by
  obtain ⟨i, hi⟩ := decodeLitlen_of_lt hs
  show runFetched (fetchLitlen (s.at .decodeBlock .litlen)) _ = _
  rw [fetchLitlen_at, hd]
  simp only [hi]
  exact exec_of_decodeLitlen hi _

theorem literal_answers {sym : Nat} {c : Cursor} (hd : litlenCode s = .ok (sym, c)) (hs : sym ≤ 255) :
    Answers (blockStep (s.at .decodeBlock .litlen)) (append (BitVec.ofNat 8 sym) (s.setCursor c))
      (AtElement .litlen) := by
  rw [blockStep_litlen s hd (by omega), if_pos (by omega)]
  exact execLit_answers (s.setCursor c) _

theorem eob_answers {c : Cursor} (hd : litlenCode s = .ok (256, c)) :
    Answers (blockStep (s.at .decodeBlock .litlen)) (.ok (s.setCursor c)) AtBlockEnd := by
  rw [blockStep_litlen s hd (by omega), if_neg (by omega), if_pos rfl]
  exact answers_next ⟨_, rfl⟩

theorem length_answers {sym : Nat} {c : Cursor} (hd : litlenCode s = .ok (sym, c)) (hs : 256 < sym) :
    Answers (blockStep (s.at .decodeBlock .litlen)) (lengthTurn sym (s.setCursor c)) (AtElement .distance) := by
  by_cases hlt : sym < 288
  · rw [blockStep_litlen s hd hlt, if_neg (by omega), if_neg (by omega)]
    exact lengthSymbol_answers (s.setCursor c) sym
  · have hr : resolveLength sym (s.setCursor c) = .error .litlenSymbolRange := by
      unfold resolveLength
      exact if_pos (by omega)
    show Answers (runFetched (fetchLitlen (s.at .decodeBlock .litlen)) _) _ _
    unfold lengthTurn
    rw [fetchLitlen_at, hd, hr]
    simp only [decodeLitlen_of_ge (Nat.not_lt.1 hlt)]
    exact answers_raise ..

theorem distanceTurn_answers :
    Answers (blockStep (s.at .decodeBlock .distance)) (distanceTurn s) (AtElement .litlen) := by
  show Answers (runFetched (fetchDistance (s.at .decodeBlock .distance)) _) _ _
  unfold distanceTurn
  rw [fetchDistance_at]
  cases distanceCode s with
  | error c => exact answers_raise ..
  | ok r =>
    obtain ⟨dsym, c⟩ := r
    dsimp only
    cases hi : decodeDist dsym with
    | some i =>
      show Answers (exec i ((s.setCursor c).at .decodeBlock .distance)) _ _
      rw [exec_of_decodeDist hi]
      exact distanceSymbol_answers (s.setCursor c) dsym
    | none =>
      have := decodeDist_none hi
      have hr : resolveDistance dsym (s.setCursor c) = .error .distSymbolRange := if_pos (by omega)
      rw [finishBackReference, hr]
      exact answers_raise ..

/-! ### Dynamic headers and code-length symbols -/

/-- The machine is where the loop test of R290 leads, else as `u`. -/
def AtLengths (u t : State) : Prop := t = (u.at .decodeBlock .codeLength).continueLengths

theorem continueLengths_more (h : ¬s.hlit + s.hdist ≤ s.lensCount) :
    (s.at .decodeBlock .codeLength).continueLengths = s.at .decodeBlock .codeLength :=
  State.continueLengths_of_lt _ (Nat.not_le.1 h)

theorem continueLengths_done (h : s.hlit + s.hdist ≤ s.lensCount) :
    (s.at .decodeBlock .codeLength).continueLengths = s.buildTables.at .decodeBlock .litlen := by
  rw [(s.at .decodeBlock .codeLength).continueLengths_of_ge h]
  unfold State.buildTables
  show (if s.hdist = 1 ∧ s.distLens = [0] then _ else _) = _
  split <;> rfl

theorem repeatLength_answers (v : BitVec 4) (r : Nat) :
    Answers (repeatLength v r (s.at .decodeBlock .codeLength)) (checkedPut v r s) AtLengths := by
  unfold repeatLength checkedPut
  show Answers (if s.hlit + s.hdist < s.lensCount + r then _ else _) _ _
  split
  · exact answers_raise ..
  · exact answers_next rfl

/-- The extra bits of a repeat symbol, then the repeat. -/
theorem repeatTurn_answers (v : BitVec 4) (n base : Nat) :
    Answers
      (match readBits n (s.at .decodeBlock .codeLength) with
        | .error c => raise c (s.at .decodeBlock .codeLength)
        | .ok (x, c) => repeatLength v (base + x) ((s.at .decodeBlock .codeLength).setCursor c))
      (repeatTurn v n base s) AtLengths := by
  unfold repeatTurn
  rw [readBits_at]
  cases readBits n s with
  | error c => exact answers_raise ..
  | ok r => exact repeatLength_answers (s.setCursor r.2) v (base + r.1)

theorem codeLengthTurn_answers :
    Answers (blockStep (s.at .decodeBlock .codeLength)) (codeLengthTurn s) AtLengths := by
  show Answers (runFetched (fetchCodeLength (s.at .decodeBlock .codeLength)) _) _ _
  unfold fetchCodeLength codeLengthTurn
  rw [decodeSymbol_at, show (s.at .decodeBlock .codeLength).metaTab = s.metaTab from rfl, show maxCodeLen = 15 from rfl]
  cases decodeSymbol s.metaTab 1 15 s with
  | error c => exact answers_raise ..
  | ok r =>
    obtain ⟨sym, c⟩ := r
    dsimp only
    cases hi : decodeClen sym with
    | none =>
      have := (decodeClen_none_iff sym).1 hi
      rw [if_neg (by omega), if_neg (by omega), if_neg (by omega), if_neg (by omega)]
      exact answers_raise ..
    | some i =>
      show Answers (exec i ((s.setCursor c).at .decodeBlock .codeLength)) _ _
      have hle : ¬18 < sym := by rw [← decodeClen_none_iff, hi]; nofun
      rw [exec_of_decodeClen hi]
      generalize s.setCursor c = s
      by_cases h15 : sym ≤ 15
      · rw [if_pos (by omega), if_pos h15]
        exact answers_next rfl
      rw [if_neg (by omega), if_neg h15]
      by_cases h16 : sym = 16
      · rw [if_pos h16, if_pos h16, execClRepeatPrev, State.at_lens]
        cases s.lens.getLast? with
        | none => exact answers_raise ..
        | some prev => exact repeatTurn_answers s prev 2 3
      rw [if_neg h16, if_neg h16]
      by_cases h17 : sym = 17
      · rw [if_pos h17, if_pos h17]
        exact repeatTurn_answers s 0 3 3
      rw [if_neg h17, if_neg h17, if_pos (by omega)]
      exact repeatTurn_answers s 0 7 11

theorem metaTurn_answers (h d : BitVec 5) (n : BitVec 4) :
    Answers (execHdrDynamic h d n (s.at .decodeBlock .dynamicHeader))
      (metaTurn (s.setCounts (hlitOf h) (hdistOf d) (hclenOf n))) AtLengths := by
  unfold execHdrDynamic metaTurn
  rw [show (s.at .decodeBlock .dynamicHeader).setCounts (hlitOf h) (hdistOf d) (hclenOf n) =
    (s.setCounts (hlitOf h) (hdistOf d) (hclenOf n)).at .decodeBlock .dynamicHeader from rfl]
  have hpos : 0 < (s.setCounts (hlitOf h) (hdistOf d) (hclenOf n)).hlit := by
    show 0 < h.toNat + 257
    omega
  generalize s.setCounts (hlitOf h) (hdistOf d) (hclenOf n) = s at hpos ⊢
  dsimp only
  rw [readClens_at]
  show Answers (if hlitMax < s.hlit then _ else if hdistMax < s.hdist then _ else
    match readClens (clenOrder.take s.hclen) _ s with | .error c => _ | .ok (clens, c) => _) _ _
  split
  · exact answers_raise ..
  · split
    · exact answers_raise ..
    · cases readClens (clenOrder.take s.hclen) (List.replicate 19 0) s with
      | error c => exact answers_raise ..
      | ok r =>
        refine answers_next (continueLengths_more ((s.setCursor r.2).setCodeLengths r.1) ?_).symm
        show ¬s.hlit + s.hdist ≤ 0
        omega

/-- A field read fits its width. -/
theorem readBits_lt {s : State} {n : Nat} {r : Nat × Cursor} (h : s.CursorLegal) (hr : readBits n s = .ok r) :
    r.1 < 2 ^ n := by
  obtain ⟨-, hv, -⟩ := readBits_ok h (v := r.1) (c := r.2) hr
  rw [hv]
  exact s.fieldAt_lt _ n

theorem dynamicHeaderTurn_answers (hl : s.CursorLegal) :
    Answers (blockStep (s.at .decodeBlock .dynamicHeader)) (dynamicHeaderTurn s) AtLengths := by
  show Answers (runFetched (fetchDynamicHeader (s.at .decodeBlock .dynamicHeader)) _) _ _
  unfold fetchDynamicHeader dynamicHeaderTurn countFields
  simp only [State.setCursor_at, readBits_at]
  cases h1 : readBits 5 s with
  | error c => exact answers_raise ..
  | ok h =>
    dsimp only
    have l1 := (readBits_reaches hl (v := h.1) (c := h.2) h1).legal
    cases h2 : readBits 5 (s.setCursor h.2) with
    | error c => exact answers_raise ..
    | ok d =>
      dsimp only
      have l2 := (readBits_reaches l1 (v := d.1) (c := d.2) h2).legal
      cases h3 : readBits 4 (s.setCursor d.2) with
      | error c => exact answers_raise ..
      | ok n =>
        have ha := metaTurn_answers (s.setCursor n.2) (BitVec.ofNat 5 h.1) (BitVec.ofNat 5 d.1) (BitVec.ofNat 4 n.1)
        rwa [hlitOf, hdistOf, hclenOf, BitVec.toNat_ofNat, BitVec.toNat_ofNat, BitVec.toNat_ofNat,
          Nat.mod_eq_of_lt (readBits_lt hl h1), Nat.mod_eq_of_lt (readBits_lt l1 h2),
          Nat.mod_eq_of_lt (readBits_lt l2 h3)] at ha

end Sys2Proof.Machine
end

section
/-! The simulation: every procedure of `inflate` is run by the machine in steps that each consume input, so its fuel does
not run out (43_block_dispatcher.md R237) and both end alike. -/

namespace Sys2Proof.Machine

/-- A state alike to itself: the part of the invariant a call needs. -/
abbrev State.Sound (s : State) : Prop := Alike s s

/-- From `m` the machine runs what `inflate` answers, in at most as many steps as bits are consumed: to a state related by
`Q` to the state of `inflate`, or to the error state of its cause. -/
inductive Computes (m : State) : Except Cause State → (State → State → Prop) → Prop where
  | ok {u : State} {Q : State → State → Prop} (k : Nat) (t : State) (run : runSteps k m = .next t) (alike : t.Sound)
      (inLen : t.inLen = m.inLen) (consumed : m.cursor.consumed + k ≤ t.cursor.consumed)
      (hq : Q u t) : Computes m (.ok u) Q
  | error {c : Cause} {Q : State → State → Prop} (k : Nat) (t : State) (run : runSteps k m = .next t)
      (bound : m.cursor.consumed + k ≤ 8 * m.inLen.toNat + 1) (phase : t.phase = .error) (queue : t.hostQueue = [])
      (kind : t.errKind = c.kind.code) (cause : t.errCause = c.code) : Computes m (.error c) Q

/-- A run that answers has a first step that does. -/
theorem runSteps_succ_eq_next {n : Nat} {s t : State} (h : runSteps (n + 1) s = .next t) :
    ∃ u, step s = .next u ∧ runSteps n u = .next t := by
  have e := core_run_succ Sys2Proof.core n s
  replace e := (show Sys2Proof.core.run (n + 1) s = .next t from h).symm.trans e
  cases hs : step s with
  | next u =>
    rw [show Sys2Proof.core.step s = .next u from hs] at e
    exact ⟨u, rfl, e.symm⟩
  | fault r => rw [show Sys2Proof.core.step s = .fault r from hs] at e; cases e
  | refused r => rw [show Sys2Proof.core.step s = .refused r from hs] at e; cases e

theorem runSteps_add {j k : Nat} {s t : State} (h : runSteps j s = .next t) : runSteps (j + k) s = runSteps k t := by
  induction j generalizing s with
  | zero =>
    cases h
    rw [Nat.zero_add]
  | succ j ih =>
    obtain ⟨u, hs, hu⟩ := runSteps_succ_eq_next h
    rw [Nat.succ_add, runSteps_succ_next hs, ih hu]

theorem runSteps_one {s t : State} (h : step s = .next t) : runSteps 1 s = .next t := by
  rw [runSteps_succ_next h, runSteps_zero]

variable {m : State} {r : Except Cause State} {Q Q' : State → State → Prop}

/-- What a step that answers a turn adds to `Q`: it consumes input, and within a block it keeps the block type. -/
def AfterStep (m : State) (Q : State → State → Prop) (u t : State) : Prop :=
  Q u t ∧ m.cursor.consumed < t.cursor.consumed ∧ (m.phase = .decodeBlock → t.btype = m.btype)

/-- One turn of `inflate` is one step of the machine. -/
theorem Answers.computes (h : Answers (blockStep m) r Q) (hm : m.Sound) (hb : m.busy = true)
    (hQ : ∀ u t, Q u t → t.phase ≠ .error) :
    Computes m r (AfterStep m Q) := by
  obtain ⟨t, v, ht, hv, ha, ho⟩ := blockStep_paired hm hb
  obtain rfl : t = v := Host.Outcome.next.inj (ht.symm.trans hv)
  have hrun : runSteps 1 m = .next t := runSteps_one (by rw [step_block hm.obs.queue, ht])
  cases h with
  | next t' ho' hq =>
    obtain rfl : t = t' := Host.Outcome.next.inj (ht.symm.trans ho')
    obtain ⟨hlen, hcons, hbt⟩ := ho (hQ _ _ hq)
    exact .ok 1 t hrun ha hlen hcons ⟨hq, hcons, hbt⟩
  | raise t' ho' =>
    obtain ⟨-, rfl⟩ := raise_eq_next (ho'.symm.trans ht)
    have := (hm.call (phase_ne_error_of_busy hb)).legal.consumed_le
    exact .error 1 _ hrun (by omega) rfl ha.obs.queue rfl rfl

theorem Computes.mono (h : Computes m r Q) (hQ : ∀ u t, Q u t → Q' u t) : Computes m r Q' := by
  cases h with
  | ok k t run alike inLen consumed hq => exact .ok k t run alike inLen consumed (hQ _ t hq)
  | error k t run bound phase queue kind cause => exact .error k t run bound phase queue kind cause

/-- What follows runs on from where the machine got to. -/
theorem Computes.from {t : State} {k : Nat} (h : Computes t r Q) (run : runSteps k m = .next t)
    (inLen : t.inLen = m.inLen) (consumed : m.cursor.consumed + k ≤ t.cursor.consumed) : Computes m r Q := by
  cases h with
  | ok j v run' alike inLen' consumed' hq =>
    exact .ok (k + j) v ((runSteps_add run).trans run') alike (inLen'.trans inLen) (by omega) hq
  | error j v run' bound phase queue kind cause =>
    rw [inLen] at bound
    exact .error (k + j) v ((runSteps_add run).trans run') (by omega) phase queue kind cause

theorem Computes.bind {f : State → Except Cause State} (h : Computes m r Q)
    (hf : ∀ u t, r = .ok u → Q u t → t.Sound → t.inLen = m.inLen → m.cursor.consumed ≤ t.cursor.consumed →
      Computes t (f u) Q') : Computes m (r >>= f) Q' := by
  cases h with
  | ok k t run alike inLen consumed hq => exact (hf _ t rfl hq alike inLen (by omega)).from run inLen consumed
  | error k t run bound phase queue kind cause => exact .error k t run bound phase queue kind cause

/-! ### The procedures -/

/-- The fuel exceeds the bits left of the stream (log entry 26). -/
def State.Fuelled (s : State) (fuel : Nat) : Prop := 8 * s.inLen.toNat < s.cursor.consumed + fuel

/-- Enough fuel for the rest of the stream is enough, less one, after a bit of it. -/
theorem State.Fuelled.pred {s t : State} {fuel : Nat} (h : s.Fuelled (fuel + 1)) (hlen : t.inLen = s.inLen)
    (hcons : s.cursor.consumed < t.cursor.consumed) : t.Fuelled fuel := by
  unfold State.Fuelled at *
  rw [hlen]
  omega

/-- Fuel is no less enough further on in the stream. -/
theorem State.Fuelled.mono {s t : State} {fuel : Nat} (h : s.Fuelled fuel) (hlen : t.inLen = s.inLen)
    (hcons : s.cursor.consumed < t.cursor.consumed) : t.Fuelled fuel :=
  State.Fuelled.pred (Nat.lt_succ_of_lt h) hlen hcons

/-- A call that has not run out of its stream needs fuel. -/
theorem State.Fuelled.ne_zero {s : State} (h : s.Fuelled 0) (hl : s.cursor.consumed ≤ 8 * s.inLen.toNat) : False := by
  unfold State.Fuelled at h
  omega

theorem State.Sound.legal {s : State} (h : s.Sound) (hp : s.phase ≠ .error) : s.CursorLegal := (h.call hp).legal

theorem AtElement.phase_ne {e : Element} {u t : State} (h : AtElement e u t) : t.phase ≠ .error := by
  rw [h]; nofun

theorem AtType.phase_ne {e : Element} {u t : State} (h : AtType e u t) : t.phase ≠ .error := by
  rw [h]; nofun

theorem AtBlockEnd.phase_ne {u t : State} (h : AtBlockEnd u t) : t.phase ≠ .error := by
  obtain ⟨e, rfl⟩ := h
  rw [State.at_phase]
  split <;> nofun

theorem AtLengths.phase_ne {u t : State} (h : AtLengths u t) : t.phase ≠ .error := by
  rw [h, State.continueLengths_phase]; nofun

theorem AtLengths.btype {u t : State} (h : AtLengths u t) : t.btype = u.btype := by
  rw [h, State.continueLengths_btype, State.at_btype]

theorem AtLengths.inLen {u t : State} (h : AtLengths u t) : t.inLen = u.inLen := by
  rw [h, State.continueLengths_inLen, State.at_inLen]

theorem AtLengths.cursor {u t : State} (h : AtLengths u t) : t.cursor = u.cursor := by
  rw [h, State.continueLengths_cursor, State.at_cursor]

/-- A turn of the symbol loops, if the machine runs the further turns. -/
theorem symbolTurn_computes {s : State} {loop : State → Except Cause State} (hm : (s.at .decodeBlock .litlen).Sound)
    (hloop : ∀ u, (u.at .decodeBlock .litlen).Sound → u.btype = s.btype → u.inLen = s.inLen →
      s.cursor.consumed < u.cursor.consumed → Computes (u.at .decodeBlock .litlen) (loop u) AtBlockEnd) :
    Computes (s.at .decodeBlock .litlen) (symbolTurn loop s) AtBlockEnd := by
  unfold symbolTurn
  cases hd : litlenCode s with
  | error c =>
    exact ((litlen_error_answers s hd AtBlockEnd).computes hm rfl fun _ _ h => h.phase_ne).mono fun _ _ h => h.1
  | ok r =>
    obtain ⟨sym, c⟩ := r
    dsimp only
    split
    · rename_i hs
      refine ((literal_answers s hd hs).computes hm rfl fun _ _ h => h.phase_ne).bind ?_
      rintro u t - ⟨rfl, hcons, hbt⟩ ha hlen -
      exact hloop u ha (hbt rfl) hlen hcons
    · split
      · rename_i h256
        subst h256
        exact ((eob_answers s hd).computes hm rfl fun _ _ h => h.phase_ne).mono fun _ _ h => h.1
      · refine ((length_answers s hd (by omega)).computes hm rfl fun _ _ h => h.phase_ne).bind ?_
        rintro u t - ⟨rfl, hcons, hbt⟩ ha hlen -
        refine ((distanceTurn_answers u).computes ha rfl fun _ _ h => h.phase_ne).bind ?_
        rintro w t - ⟨rfl, hcons', hbt'⟩ ha' hlen' -
        exact hloop w ha' ((hbt' rfl).trans (hbt rfl)) (hlen'.trans hlen) (hcons.trans hcons')

/-- A symbol loop of `inflate`, by its turns (R272, R306). -/
theorem symbols_computes {loop : Nat → State → Except Cause State} {bt : BitVec 2}
    (hsucc : ∀ fuel s, s.btype = bt → loop (fuel + 1) s = symbolTurn (loop fuel) s) (fuel : Nat) (s : State)
    (hm : (s.at .decodeBlock .litlen).Sound) (hbt : s.btype = bt) (hf : s.Fuelled fuel) :
    Computes (s.at .decodeBlock .litlen) (loop fuel s) AtBlockEnd := by
  induction fuel generalizing s with
  | zero => exact (hf.ne_zero (hm.legal nofun).consumed_le).elim
  | succ fuel ih =>
    rw [hsucc fuel s hbt]
    exact symbolTurn_computes hm fun u ha hb hlen hcons => ih u ha (hb.trans hbt) (hf.pred hlen hcons)

theorem fixedBlock_computes {fuel : Nat} {s : State} (hm : (s.at .decodeBlock .litlen).Sound)
    (hbt : s.btype = 1) (hf : s.Fuelled fuel) : Computes (s.at .decodeBlock .litlen) (fixedBlock fuel s) AtBlockEnd :=
  symbols_computes (fun fuel _ h => fixedBlock_succ h fuel) fuel s hm hbt hf

theorem dynamicData_computes {fuel : Nat} {s : State} (hm : (s.at .decodeBlock .litlen).Sound)
    (hbt : s.btype = 2) (hf : s.Fuelled fuel) : Computes (s.at .decodeBlock .litlen) (dynamicData fuel s) AtBlockEnd :=
  symbols_computes (fun fuel _ h => dynamicData_succ h fuel) fuel s hm hbt hf

/-- The bit lengths of a dynamic block, then its data, from the loop test of R290 on. -/
theorem codeLengths_computes {n fuel : Nat} {s t : State} (ht : AtLengths s t) (hm : t.Sound) (hbt : s.btype = 2)
    (hn : s.Fuelled n) (hf : s.Fuelled fuel) :
    Computes t (codeLengths n s >>= fun s => dynamicData fuel s.buildTables) AtBlockEnd := by
  induction n generalizing s t with
  | zero =>
    have hl := (hm.legal ht.phase_ne).consumed_le
    rw [ht.cursor, ht.inLen] at hl
    exact (hn.ne_zero hl).elim
  | succ n ih =>
    rw [codeLengths_succ]
    by_cases hd : s.hlit + s.hdist ≤ s.lensCount
    · rw [if_pos hd]
      obtain rfl := ht.trans (continueLengths_done s hd)
      refine dynamicData_computes hm (s.buildTables_btype.trans hbt) ?_
      unfold State.Fuelled
      rw [s.buildTables_inLen, s.buildTables_cursor]
      exact hf
    · rw [if_neg hd]
      obtain rfl := ht.trans (continueLengths_more s hd)
      rw [bind_assoc]
      refine ((codeLengthTurn_answers s).computes hm rfl fun _ _ h => h.phase_ne).bind ?_
      rintro u t - ⟨hu, hcons, hbt'⟩ ha hlen -
      rw [hu.inLen] at hlen
      rw [hu.cursor] at hcons
      exact ih hu ha (hu.btype.symm.trans ((hbt' rfl).trans hbt)) (hn.pred hlen hcons) (hf.mono hlen hcons)

theorem dynamicBlock_computes {fuel : Nat} {s : State} (hm : (s.at .decodeBlock .dynamicHeader).Sound)
    (hbt : s.btype = 2) (hf : s.Fuelled fuel) :
    Computes (s.at .decodeBlock .dynamicHeader) (dynamicBlock fuel s) AtBlockEnd := by
  rw [dynamicBlock_eq]
  have hl : s.CursorLegal := hm.legal nofun
  refine ((dynamicHeaderTurn_answers s hl).computes hm rfl fun _ _ h => h.phase_ne).bind ?_
  rintro u t - ⟨hu, hcons, hbt'⟩ ha hlen -
  rw [hu.inLen] at hlen
  rw [hu.cursor] at hcons
  exact codeLengths_computes hu ha (hu.btype.symm.trans ((hbt' rfl).trans hbt)) (hf.mono hlen hcons) (hf.mono hlen hcons)

theorem storedBlock_computes {s : State} (hm : (s.at .decodeBlock .storedHeader).Sound) :
    Computes (s.at .decodeBlock .storedHeader) (storedBlock s) AtBlockEnd := by
  have hb : SameBlock (s.at .decodeBlock .storedHeader) (s.at .decodeBlock .storedHeader) := hm.regs
  have h8 : s.cursor.left = 8 := hb.element
  rw [storedBlock_eq, show s.cursor.align = s.cursor from if_pos h8]
  exact ((storedTurn_answers s).computes hm rfl fun _ _ h => h.phase_ne).mono fun _ _ h => h.1

/-- One block, from its first element on (R233). -/
theorem decodeBlock_computes {fuel : Nat} {s t : State} (ht : AtBlockStart s t) (hm : t.Sound) (hf : s.Fuelled fuel) :
    Computes t (decodeBlock fuel s) AtBlockEnd := by
  obtain rfl := ht
  unfold firstElement at hm ⊢
  unfold decodeBlock
  by_cases h0 : s.btype = 0
  · simp only [if_pos h0] at hm ⊢
    exact storedBlock_computes hm
  by_cases h1 : s.btype = 1
  · simp only [if_neg h0, if_pos h1] at hm ⊢
    exact fixedBlock_computes hm h1 hf
  simp only [if_neg h0, if_neg h1] at hm ⊢
  have hb : SameBlock (s.at .decodeBlock .dynamicHeader) (s.at .decodeBlock .dynamicHeader) := hm.regs
  have h2 : s.btype = 2 := hb.element
  rw [if_pos h2]
  exact dynamicBlock_computes hm h2 hf

/-- The loop over blocks (R230). -/
theorem inflateBlocks_computes {fuel n : Nat} {s : State} {e : Element} (hm : (s.at .readFinal e).Sound)
    (hf : s.Fuelled fuel) (hn : s.Fuelled n) :
    Computes (s.at .readFinal e) (inflateBlocks fuel n s) AtDone := by
  induction n generalizing s e with
  | zero => exact (hn.ne_zero (hm.legal nofun).consumed_le).elim
  | succ n ih =>
    rw [inflateBlocks_succ]
    refine ((finalTurn_answers s e).computes hm rfl fun _ _ h => h.phase_ne).bind ?_
    rintro u t - ⟨rfl, hcons, -⟩ ha hlen -
    refine Computes.bind (Q := AtBlockEnd) ?_ ?_
    · refine ((headerTurn_answers u e).computes ha rfl fun _ _ h => h.phase_ne).bind ?_
      rintro w t - ⟨ht, hcons', -⟩ hw hlen' -
      obtain rfl : t = w.at .decodeBlock (firstElement w.btype) := ht
      exact decodeBlock_computes rfl hw (hf.mono (hlen'.trans hlen) (hcons.trans hcons'))
    · rintro w t - ⟨e', rfl⟩ hw hlen' hcons'
      have hlen'' : w.inLen = s.inLen := hlen'.trans hlen
      have hcons'' : s.cursor.consumed < w.cursor.consumed := hcons.trans_le hcons'
      cases hfin : w.bfinal with
      | true => exact .ok 0 _ rfl (by rw [hfin] at hw; exact hw) rfl le_rfl ⟨e', rfl⟩
      | false =>
        rw [hfin] at hw
        exact ih hw (hf.mono hlen'' hcons'') (hn.pred hlen'' hcons'')

/-- A run that has come to its end stays there (43_block_dispatcher.md R235). -/
theorem runSteps_ended {k n : Nat} {s t : State} (h : runSteps k s = .next t) (hk : k ≤ n) (hq : t.hostQueue = [])
    (hb : t.busy = false) : runSteps n s = .next t := by
  obtain ⟨j, rfl⟩ := Nat.exists_eq_add_of_le hk
  rw [runSteps_add h, runSteps_idle hq hb]

/-- The call of `inflate` and the call of the machine begin in one state (49_host_interface.md R381, R230). -/
theorem inflate_startCall (s : State) :
    inflate s.startCall = inflateBlocks s.startCall.streamFuel s.startCall.streamFuel s.startCall := rfl

theorem startCall_computes {s : State} (hs : s.startable) :
    Computes s.startCall (inflate s.startCall) AtDone := by
  have hm : s.startCall.Sound := startCall_alike hs hs rfl rfl fun _ _ => rfl
  have hf : s.startCall.Fuelled s.startCall.streamFuel := by
    unfold State.Fuelled State.streamFuel
    omega
  rw [inflate_startCall]
  exact inflateBlocks_computes (s := s.startCall) (e := s.startCall.expect) hm hf hf

/-- Settles O57: the machine runs the procedures of `inflate` turn by turn and has then come to the end of the call. -/
theorem smallStepsComputeInflate : Obligations.SmallStepsComputeInflate := by
  unfold Obligations.SmallStepsComputeInflate
  intro s _ hs
  have hstart : s.startCall.cursor.consumed = 0 := Cursor.start_consumed
  refine ⟨fun u hu => ?_, fun c hc => ?_⟩
  · have h := startCall_computes hs
    rw [hu] at h
    cases h with
    | ok k t run alike inLen consumed hq =>
      obtain ⟨e, rfl⟩ := hq
      have hle := (alike.legal nofun).consumed_le
      rw [inLen] at hle
      have hk : k ≤ 8 * s.inLen.toNat + 1 := by
        change _ ≤ 8 * s.inLen.toNat at hle
        omega
      exact ⟨_, runSteps_ended run hk alike.obs.queue rfl, rfl, rfl, rfl, fun _ _ => rfl⟩
  · have h := startCall_computes hs
    rw [hc] at h
    cases h with
    | error k t run bound phase queue kind cause =>
      have hk : k ≤ 8 * s.inLen.toNat + 1 := by
        change _ ≤ 8 * s.inLen.toNat + 1 at bound
        omega
      have hb : t.busy = false := by rw [State.busy, phase]; rfl
      exact ⟨t, runSteps_ended run hk queue hb, phase, kind, cause⟩

end Sys2Proof.Machine
end

section
/-! The register window (10_state.md R50, 20_memory.md R97) and the STATUS word of each phase (10_state.md R52). -/

namespace Sys2Proof.Machine

/-! ### Register accesses -/

theorem hostAccess_narrow {a : RegAccess} (h : a.width ≠ .word) (s : State) :
    hostAccess a s = .refused .narrowOrMisalignedAccess := if_pos h

theorem decodeHostWrite_misaligned {o : BitVec 8} (h : o.toNat % 4 ≠ 0) (x : Word) :
    decodeHostWrite o x = .error .misalignedOffset := by
  simp [decodeHostWrite, offsetAligned, h]

theorem decodeHostRead_misaligned {o : BitVec 8} (h : o.toNat % 4 ≠ 0) :
    decodeHostRead o = .error .misalignedOffset := by
  simp [decodeHostRead, offsetAligned, h]

theorem hostAccess_misaligned {a : RegAccess} (h : a.offset.toNat % 4 ≠ 0) (s : State) :
    hostAccess a s = .refused .narrowOrMisalignedAccess := by
  simp [hostAccess, decodeHostWrite_misaligned h, decodeHostRead_misaligned h]

theorem hostAccess_write {a : RegAccess} {i : Instr} (hw : a.width = .word) (hwr : a.write = true)
    (hd : decodeHostWrite a.offset a.data = .ok i) (s : State) : hostAccess a s = exec i s := by
  simp [hostAccess, hw, hwr, hd]

theorem hostAccess_read {a : RegAccess} {i : Instr} (hw : a.width = .word) (hwr : a.write = false)
    (hd : decodeHostRead a.offset = .ok i) (s : State) : hostAccess a s = exec i s := by
  simp [hostAccess, hw, hwr, hd]

/-- Settles O42: an access runs the instruction its offset decodes to. -/
theorem registerWindowFollowsTheMap : Obligations.RegisterWindowFollowsTheMap := by
  unfold Obligations.RegisterWindowFollowsTheMap
  intro s a
  refine ⟨?_, fun hw hwr => ?_, fun hw hwr => ?_⟩
  · rintro (h | h)
    · exact hostAccess_narrow h s
    · exact hostAccess_misaligned h s
  · exact ⟨fun ho => hostAccess_write hw hwr (ho ▸ rfl) s, fun ho => hostAccess_write hw hwr (ho ▸ rfl) s⟩
  · have read {o : BitVec 8} {i : Instr} (hd : decodeHostRead o = .ok i) (ho : a.offset = o) :
        hostStep (.reg a) s = exec i s := hostAccess_read hw hwr (ho ▸ hd) s
    exact ⟨read rfl, read rfl, read rfl, read rfl, read rfl, read rfl⟩

/-! ### The STATUS word -/

theorem statusWord_idle {s : State} (hp : s.phase = .idle) (hk : s.errKind = 0) (hc : s.errCause = 0) :
    s.statusWord = 0 := by
  simp [State.statusWord, State.busy, Phase.busy, hp, hk, hc]

theorem statusWord_done {s : State} (hp : s.phase = .done) (hk : s.errKind = 0) (hc : s.errCause = 0) :
    s.statusWord = 2 := by
  simp [State.statusWord, State.busy, Phase.busy, hp, hk, hc]

theorem phase_ne_done_of_busy {s : State} (hb : s.busy = true) : s.phase ≠ .done := by
  intro e
  rw [State.busy, e] at hb
  cases hb

theorem statusWord_busy {s : State} (hb : s.busy = true) (hk : s.errKind = 0) (hc : s.errCause = 0) :
    s.statusWord = 1 := by
  simp [State.statusWord, hb, phase_ne_done_of_busy hb, phase_ne_error_of_busy hb, hk, hc]

/-- The error part of STATUS for each row of the error table (60_exceptions.md R401). -/
theorem Cause.statusWord_eq (c : Cause) :
    4#32 ||| (c.kind.code.setWidth 32 <<< 4) ||| (c.code.setWidth 32 <<< 8) =
      BitVec.ofNat 32 (4 + 2 ^ 4 * c.kind.code.toNat + 2 ^ 8 * c.code.toNat) := by
  cases c <;> rfl

theorem Cause.code_ne_zero (c : Cause) : c.kind.code ≠ 0 ∧ c.code ≠ 0 := by
  cases c <;> decide

theorem statusWord_error {s : State} {c : Cause} (hp : s.phase = .error) (hk : s.errKind = c.kind.code)
    (hc : s.errCause = c.code) :
    s.statusWord = BitVec.ofNat 32 (4 + 2 ^ 4 * s.errKind.toNat + 2 ^ 8 * s.errCause.toNat) := by
  rw [hk, hc, ← c.statusWord_eq]
  simp [State.statusWord, State.busy, Phase.busy, hp, hk, hc]

theorem exec_hostReadStatus {s : State} {w : Word} (h : s.statusWord = w) :
    exec .hostReadStatus s = .next { s with hostWord := w } := h ▸ rfl

/-- Settles O39: the invariant gives the two error registers of each phase, and they give the word. -/
theorem statusReadsTheWordOfThePhase : Obligations.StatusReadsTheWordOfThePhase := by
  unfold Obligations.StatusReadsTheWordOfThePhase
  intro s h
  refine ⟨fun hp => ?_, fun hb => ?_, fun hp => ?_, fun hp => ?_⟩
  · obtain ⟨hk, hc⟩ := h.noError (by rw [hp]; nofun)
    exact exec_hostReadStatus (statusWord_idle hp hk hc)
  · obtain ⟨hk, hc⟩ := h.noError (phase_ne_error_of_busy hb)
    exact exec_hostReadStatus (statusWord_busy hb hk hc)
  · obtain ⟨hk, hc⟩ := h.noError (by rw [hp]; nofun)
    exact exec_hostReadStatus (statusWord_done hp hk hc)
  · obtain ⟨c, -, hk, hc⟩ := h.error hp
    refine ⟨exec_hostReadStatus (statusWord_error hp hk hc), ?_⟩
    rw [hk, hc]
    exact c.code_ne_zero

end Sys2Proof.Machine
end

section
/-! What the stream instructions leave of the host's side, from any state (10_state.md R46, R60). -/

namespace Sys2Proof.Machine

/-- IN, IN_LEN, the sizes, the host's coming actions and what the host last read are in `t` as in `s`. -/
structure HostKept (s t : State) : Prop where
  inMem : t.inMem = s.inMem
  inDraw : t.inDraw = s.inDraw
  inLen : t.inLen = s.inLen
  params : t.params = s.params
  hostQueue : t.hostQueue = s.hostQueue
  hostWord : t.hostWord = s.hostWord
  hostByte : t.hostByte = s.hostByte

theorem HostKept.refl (s : State) : HostKept s s := ⟨rfl, rfl, rfl, rfl, rfl, rfl, rfl⟩

theorem HostKept.trans {s t u : State} (h : HostKept s t) (k : HostKept t u) : HostKept s u :=
  ⟨k.inMem.trans h.inMem, k.inDraw.trans h.inDraw, k.inLen.trans h.inLen, k.params.trans h.params,
    k.hostQueue.trans h.hostQueue, k.hostWord.trans h.hostWord, k.hostByte.trans h.hostByte⟩

/-- A next state, an error included, has the host's side of `s`. -/
def LeavesHost (s : State) (o : Out) : Prop := ∀ t, o = .next t → HostKept s t

theorem next_leavesHost {s t : State} (h : HostKept s t) : LeavesHost s (.next t) := by
  rintro _ ⟨⟩
  exact h

theorem raise_leavesHost {s u : State} (h : HostKept s u) (c : Cause) : LeavesHost s (raise c u) := by
  intro t ht
  obtain ⟨-, rfl⟩ := raise_eq_next ht
  exact { h with }

theorem LeavesHost.trans {s u : State} {o : Out} (h : HostKept s u) (k : LeavesHost u o) : LeavesHost s o :=
  fun t ht => h.trans (k t ht)

theorem leavesHost_ite {s : State} {p : Prop} [Decidable p] {a b : Out} (ha : LeavesHost s a) (hb : LeavesHost s b) :
    LeavesHost s (if p then a else b) := by
  split
  · exact ha
  · exact hb

/-! ### The output buffer -/

theorem append_hostKept {v : Byte} {s t : State} (h : append v s = .ok t) : HostKept s t := by
  obtain ⟨-, rfl⟩ := append_ok h
  exact { HostKept.refl _ with }

theorem appendAll_hostKept {vs : List Byte} {s t : State} (h : appendAll vs s = .ok t) : HostKept s t := by
  induction vs generalizing s with
  | nil => cases h; exact .refl _
  | cons v vs ih =>
    unfold appendAll at h
    cases ha : append v s with
    | error c => rw [ha] at h; cases h
    | ok u => rw [ha] at h; exact (append_hostKept ha).trans (ih h)

theorem lz77Copy_hostKept {n d : Nat} {s t : State} (h : lz77Copy n d s = .ok t) : HostKept s t := by
  induction n generalizing s with
  | zero => cases h; exact .refl _
  | succ n ih =>
    unfold lz77Copy at h
    cases ha : append (s.outByte (s.outLen.toNat - d)) s with
    | error c => rw [ha] at h; cases h
    | ok u => rw [ha] at h; exact (append_hostKept ha).trans (ih h)

/-! ### The meanings -/

variable (s : State)

theorem execHdrStored_leavesHost (len nlen : BitVec 16) : LeavesHost s (execHdrStored len nlen s) := by
  refine LeavesHost.trans (u := s.setStoredHeader len nlen) { HostKept.refl s with } ?_
  unfold execHdrStored
  generalize s.setStoredHeader len nlen = s
  refine leavesHost_ite (raise_leavesHost (.refl s) _) (leavesHost_ite (next_leavesHost { HostKept.refl s with }) ?_)
  cases readBytes len.toNat s with
  | error c => exact raise_leavesHost (.refl s) c
  | ok r =>
    dsimp only
    cases ha : appendAll r.1 (s.setCursor r.2) with
    | error c => exact raise_leavesHost (.refl s) c
    | ok t => exact next_leavesHost { appendAll_hostKept ha with }

theorem execHdrDynamic_leavesHost (a b : BitVec 5) (n : BitVec 4) : LeavesHost s (execHdrDynamic a b n s) := by
  refine LeavesHost.trans (u := s.setCounts (hlitOf a) (hdistOf b) (hclenOf n)) { HostKept.refl s with } ?_
  unfold execHdrDynamic
  generalize s.setCounts (hlitOf a) (hdistOf b) (hclenOf n) = s
  refine leavesHost_ite (raise_leavesHost (.refl s) _) (leavesHost_ite (raise_leavesHost (.refl s) _) ?_)
  cases readClens (clenOrder.take s.hclen) (List.replicate 19 0) s with
  | error c => exact raise_leavesHost (.refl s) c
  | ok r => exact next_leavesHost { HostKept.refl s with }

theorem execLit_leavesHost (b : Byte) : LeavesHost s (execLit b s) := by
  unfold execLit
  cases ha : append b s with
  | error c => exact raise_leavesHost (.refl s) c
  | ok t => exact next_leavesHost (append_hostKept ha)

theorem lengthSymbol_leavesHost (sym : Nat) : LeavesHost s (lengthSymbol sym s) := by
  unfold lengthSymbol
  cases resolveLength sym s with
  | error c => exact raise_leavesHost (.refl s) c
  | ok r =>
    have hk : HostKept s ((s.setCursor r.2).setCopyLen r.1) := { HostKept.refl s with }
    exact leavesHost_ite (raise_leavesHost hk _) (next_leavesHost { hk with })

theorem distanceSymbol_leavesHost (dsym : Nat) : LeavesHost s (distanceSymbol dsym s) := by
  unfold distanceSymbol
  cases resolveDistance dsym s with
  | error c => exact raise_leavesHost (.refl s) c
  | ok r =>
    have hk : HostKept s ((s.setCursor r.2).setCopyDist r.1) := { HostKept.refl s with }
    dsimp only
    cases ha : lz77Copy ((s.setCursor r.2).setCopyDist r.1).copyLen r.1 ((s.setCursor r.2).setCopyDist r.1) with
    | error c => exact raise_leavesHost hk c
    | ok t => exact next_leavesHost { hk.trans (lz77Copy_hostKept ha) with }

theorem putLengths_leavesHost (v : BitVec 4) (r : Nat) :
    LeavesHost s (.next (s.putLengths v r).continueLengths) := by
  refine next_leavesHost ?_
  constructor <;> simp

theorem repeatLength_leavesHost (v : BitVec 4) (r : Nat) : LeavesHost s (repeatLength v r s) :=
  leavesHost_ite (raise_leavesHost (.refl s) _) (putLengths_leavesHost s v r)

/-- A repeat after its extra bits were read. -/
theorem repeatLength_setCursor_leavesHost (c : Cursor) (v : BitVec 4) (r : Nat) :
    LeavesHost s (repeatLength v r (s.setCursor c)) :=
  .trans (u := s.setCursor c) { HostKept.refl s with } (repeatLength_leavesHost _ v r)

theorem execClRepeatPrev_leavesHost : LeavesHost s (execClRepeatPrev s) := by
  unfold execClRepeatPrev
  cases s.lens.getLast? with
  | none => exact raise_leavesHost (.refl s) _
  | some prev =>
    dsimp only
    cases readBits 2 s with
    | error c => exact raise_leavesHost (.refl s) c
    | ok r => exact repeatLength_setCursor_leavesHost s r.2 _ _

theorem execClRepeatZeroShort_leavesHost : LeavesHost s (execClRepeatZeroShort s) := by
  unfold execClRepeatZeroShort
  cases readBits 3 s with
  | error c => exact raise_leavesHost (.refl s) c
  | ok r => exact repeatLength_setCursor_leavesHost s r.2 _ _

theorem execClRepeatZeroLong_leavesHost : LeavesHost s (execClRepeatZeroLong s) := by
  unfold execClRepeatZeroLong
  cases readBits 7 s with
  | error c => exact raise_leavesHost (.refl s) c
  | ok r => exact repeatLength_setCursor_leavesHost s r.2 _ _

theorem litlen_leavesHost {i : Instr} (hi : decodeLitlen (encode i).2 = some i) : LeavesHost s (exec i s) := by
  rw [exec_of_decodeLitlen hi]
  exact leavesHost_ite (execLit_leavesHost s _)
    (leavesHost_ite (next_leavesHost { HostKept.refl s with }) (lengthSymbol_leavesHost s _))

theorem dist_leavesHost {i : Instr} (hi : decodeDist (encode i).2 = some i) : LeavesHost s (exec i s) := by
  rw [exec_of_decodeDist hi]
  exact distanceSymbol_leavesHost s _

/-- Each stream instruction, by the meaning its family shares (30_encoding.md R131 to R135). -/
theorem exec_leavesHost {i : Instr} (hi : streamInstr i = true) : LeavesHost s (exec i s) := by
  cases i with
  | blkStored f | blkFixed f | blkDynamic f => exact next_leavesHost { HostKept.refl s with }
  | blkReserved f =>
    exact raise_leavesHost (u := s.enterBlock f 3 .storedHeader) { HostKept.refl s with } .reservedBtype
  | hdrStored len nlen => exact execHdrStored_leavesHost s len nlen
  | hdrDynamic a b n => exact execHdrDynamic_leavesHost s a b n
  | lit b => exact execLit_leavesHost s b
  | eob | len257 | len258 | len259 | len260 | len261 | len262 | len263 | len264 | len265 | len266 | len267 | len268 | len269
  | len270 | len271 | len272 | len273 | len274 | len275 | len276 | len277 | len278 | len279 | len280 | len281 | len282
  | len283 | len284 | len285 | litlenInvalid286 | litlenInvalid287 => exact litlen_leavesHost s rfl
  | dist0 | dist1 | dist2 | dist3 | dist4 | dist5 | dist6 | dist7 | dist8 | dist9 | dist10 | dist11 | dist12 | dist13
  | dist14 | dist15 | dist16 | dist17 | dist18 | dist19 | dist20 | dist21 | dist22 | dist23 | dist24 | dist25 | dist26
  | dist27 | dist28 | dist29 | distInvalid30 | distInvalid31 => exact dist_leavesHost s rfl
  | clLen n => exact putLengths_leavesHost s n 1
  | clRepeatPrev => exact execClRepeatPrev_leavesHost s
  | clRepeatZeroShort => exact execClRepeatZeroShort_leavesHost s
  | clRepeatZeroLong => exact execClRepeatZeroLong_leavesHost s
  | hostStart | hostWriteInLen | hostReadStatus | hostReadOutLen | hostReadInPos | hostReadInBits | hostReadInSize
  | hostReadOutSize | hostWriteIgnored | hostReadReserved => cases hi

/-- Settles O46: every meaning of a stream instruction leaves the host's side alone. -/
theorem streamInstructionsLeaveTheHostSideAlone : Obligations.StreamInstructionsLeaveTheHostSideAlone := by
  unfold Obligations.StreamInstructionsLeaveTheHostSideAlone
  intro i s t hi ht
  obtain ⟨h1, h2, h3, h4, h5, h6, h7⟩ := exec_leavesHost s hi t ht
  exact ⟨h1, h2, h3, h4, h5, h6, h7⟩

end Sys2Proof.Machine
end

section
/-! The invariant through a step of the block. `Standing` is its part about every phase, `InCall` what a running call adds
but for the parser's place; each meaning keeps both and only appends to the output (10_state.md R37). -/

namespace Sys2Proof.Machine

/-! ### The parts of the invariant -/

/-- What the invariant says in every phase. -/
structure State.Standing (s : State) : Prop where
  sizes : s.params.legal = true
  inMem : s.inMem.within s.params.inMemSize
  outMem : s.outMem.within s.params.outMemSize
  left : 1 ≤ s.cursor.left.toNat ∧ s.cursor.left.toNat ≤ 8
  clens : s.clenLens.length = 19
  lens : s.lens.length ≤ 316
  metaTab : Table.symbolsBelow s.metaTab 19
  litlenTab : Table.symbolsBelow s.litlenTab 286
  distTab : Table.symbolsBelow s.distTab 30
  draws : s.inDraw < s.freeDraw ∧ s.outDraw < s.freeDraw ∧ s.inDraw ≠ s.outDraw

/-- What it says in a running call, but for the parser's place. -/
structure State.InCall (s : State) : Prop extends State.Standing s where
  legal : s.CursorLegal
  stream : s.inLen.toNat ≤ s.params.inMemSize.toNat
  cells : ∀ c ∈ s.outMem, c.1 < s.outLen.toNat
  fits : s.outLen.toNat ≤ s.params.outMemSize.toNat
  listed : ∀ a < s.outLen.toNat, (Memory.read s.outMem a).isSome = true
  kind : s.errKind = 0
  cause : s.errCause = 0

theorem State.Inv.standing {s : State} (h : s.Inv) : s.Standing := { h with }

theorem State.Inv.inCall {s : State} (h : s.Inv) (hb : s.busy = true) : s.InCall := by
  obtain ⟨legal, stream, cells, -⟩ := h.call hb
  obtain ⟨fits, listed⟩ := h.output (.inl hb)
  obtain ⟨kind, cause⟩ := h.noError (phase_ne_error_of_busy hb)
  exact { h with legal, stream, cells, fits, listed, kind, cause }

theorem State.InCall.inv {s : State} (h : s.InCall) (hne : s.phase ≠ .error)
    (hp : s.phase = .decodeBlock → s.ParserInv) : s.Inv :=
  { h with
    output := fun _ => ⟨h.fits, h.listed⟩
    call := fun _ => ⟨h.legal, h.stream, h.cells, hp⟩
    noError := fun _ => ⟨h.kind, h.cause⟩
    error := fun he => absurd he hne }

/-- In a block the parser's place is all that is left to show. -/
theorem State.InCall.inv_of_parser {s : State} (h : s.InCall) (hd : s.phase = .decodeBlock) (hp : s.ParserInv) : s.Inv :=
  h.inv (by rw [hd]; nofun) fun _ => hp

/-- Entry into the error state needs no more than the standing part (60_exceptions.md R403). -/
theorem State.Standing.enterError {s : State} (h : s.Standing) {c : Cause} (hc : c.kind ≠ .internalBug) :
    (s.enterError c).Inv :=
  { h with
    outMem := Memory.within_nil _
    output := by rintro (hb | hp) <;> contradiction
    call := fun hb => absurd hb nofun
    noError := fun hne => absurd rfl hne
    error := fun _ => ⟨c, hc, rfl, rfl⟩
    draws := ⟨Nat.lt_succ_of_lt h.draws.1, Nat.lt_succ_self _, Nat.ne_of_lt h.draws.1⟩ }

theorem State.InCall.setCursor {s : State} (h : s.InCall) {c : Cursor} (hc : s.Reaches c) : (s.setCursor c).InCall :=
  { h with left := ⟨hc.legal.1, hc.legal.2.1⟩, legal := hc.legal }

theorem Appended.eq {s t : State} {n : Nat} (h : Appended s t n) : ∃ m k, t = { s with outMem := m, outLen := k } :=
  ⟨_, _, h.frame⟩

theorem State.InCall.appended {s t : State} {n : Nat} (h : s.InCall) (ha : Appended s t n) : t.InCall := by
  have cells : ∀ c ∈ t.outMem, c.1 < t.outLen.toNat := by
    intro c hc
    rcases ha.cells c hc with hold | hnew
    · have := h.cells c hold
      have := ha.outLen
      omega
    · exact hnew.2
  have listed : ∀ a < t.outLen.toNat, (Memory.read t.outMem a).isSome = true := by
    intro a hlt
    by_cases hold : a < s.outLen.toNat
    · rw [ha.below a hold]
      exact h.listed a hold
    · exact ha.listed a (by omega) hlt
  have fits := ha.fits
  have within : t.outMem.within s.params.outMemSize :=
    ⟨ha.wf h.outMem.1, fun c hc => Nat.lt_of_lt_of_le (cells c hc) fits⟩
  obtain ⟨m, k, rfl⟩ := ha.eq
  exact { h with outMem := within, cells, fits, listed }

/-! ### What a step of a call keeps -/

/-- Every byte produced so far stays, and so does IN. -/
structure OutputKept (s t : State) : Prop where
  grows : s.outLen.toNat ≤ t.outLen.toNat
  bytes : ∀ a < s.outLen.toNat, t.outByte a = s.outByte a
  inMem : t.inMem = s.inMem

theorem OutputKept.refl (s : State) : OutputKept s s := ⟨Nat.le_refl _, fun _ _ => rfl, rfl⟩

theorem OutputKept.trans {s t u : State} (h : OutputKept s t) (k : OutputKept t u) : OutputKept s u :=
  ⟨h.grows.trans k.grows, fun a ha => (k.bytes a (ha.trans_le h.grows)).trans (h.bytes a ha), k.inMem.trans h.inMem⟩

theorem Appended.outputKept {s t : State} {n : Nat} (h : Appended s t n) : OutputKept s t := by
  have grows : s.outLen.toNat ≤ t.outLen.toNat := by rw [h.outLen]; exact Nat.le_add_right ..
  have below := h.below
  obtain ⟨m, k, rfl⟩ := h.eq
  exact ⟨grows, fun a ha => congrArg (·.getD (Config.freeContents s.outDraw a)) (below a ha), rfl⟩

/-- A next state meets the invariant, and if the call has not failed the output of `s` is kept. -/
def KeepsCall (s : State) (o : Out) : Prop := ∀ t, o = .next t → t.Inv ∧ (t.phase ≠ .error → OutputKept s t)

theorem next_keepsCall {s t : State} (h : t.Inv) (ho : OutputKept s t) : KeepsCall s (.next t) := by
  rintro _ ⟨⟩
  exact ⟨h, fun _ => ho⟩

theorem raise_keepsCall {s u : State} (h : u.Standing) (c : Cause) : KeepsCall s (raise c u) := by
  intro t ht
  obtain ⟨hc, rfl⟩ := raise_eq_next ht
  exact ⟨h.enterError hc, fun hne => absurd rfl hne⟩

/-- What follows an update that keeps the output. -/
theorem KeepsCall.after {s u : State} {o : Out} (h : KeepsCall u o) (ho : OutputKept s u) : KeepsCall s o :=
  fun t ht => ⟨(h t ht).1, fun hne => ho.trans ((h t ht).2 hne)⟩

variable {s : State}

theorem KeepsCall.after_read {c : Cursor} {o : Out} (h : KeepsCall (s.setCursor c) o) : KeepsCall s o :=
  h.after { OutputKept.refl s with }

/-! ### Block ends and block headers -/

theorem endBlock_keepsCall (h : s.InCall) : KeepsCall s (.next s.endBlock) := by
  refine next_keepsCall (State.InCall.inv { h with } ?_ ?_) { OutputKept.refl s with } <;>
    (rw [State.endBlock_phase]; split <;> nofun)

theorem blockHeader_keepsCall (h : s.InCall) (f : Bool) (t : BitVec 2) :
    KeepsCall s (exec (decodeBlockHeader f t) s) := by
  have ho (bt : BitVec 2) (e : Element) : OutputKept s (s.enterBlock f bt e) := { OutputKept.refl s with }
  have enter (bt : BitVec 2) (e : Element) : (s.enterBlock f bt e).InCall := { h with }
  unfold decodeBlockHeader
  split
  · exact next_keepsCall (((enter 0 .storedHeader).setCursor (align_reaches h.legal)).inv_of_parser rfl
      ⟨rfl, Cursor.align_left _⟩) { ho 0 .storedHeader with }
  · split
    · exact next_keepsCall ((enter 1 .litlen).inv_of_parser rfl (Or.inl rfl)) (ho 1 .litlen)
    · split
      · exact next_keepsCall ((enter 2 .dynamicHeader).inv_of_parser rfl (Eq.refl (2 : BitVec 2))) (ho 2 .dynamicHeader)
      · exact raise_keepsCall (enter 3 .storedHeader).toStanding .reservedBtype

/-- The body of a stored block (44_stored_block.md R250 to R254). -/
theorem execHdrStored_keepsCall (h : s.InCall) (len nlen : BitVec 16) : KeepsCall s (execHdrStored len nlen s) := by
  refine KeepsCall.after (u := s.setStoredHeader len nlen) ?_ { OutputKept.refl s with }
  replace h : (s.setStoredHeader len nlen).InCall := { h with }
  unfold execHdrStored
  generalize s.setStoredHeader len nlen = s at h ⊢
  dsimp only
  split
  · exact raise_keepsCall h.toStanding _
  split
  · exact endBlock_keepsCall h
  cases hr : readBytes len.toNat s with
  | error c => exact raise_keepsCall h.toStanding c
  | ok r =>
    have hc := h.setCursor (readBytes_reaches h.legal (bs := r.1) (c := r.2) hr)
    dsimp only
    cases ha : appendAll r.1 (s.setCursor r.2) with
    | error c => exact raise_keepsCall h.toStanding c
    | ok t =>
      have happ := appendAll_appended hc.fits ha
      exact ((endBlock_keepsCall (hc.appended happ)).after happ.outputKept).after_read

/-! ### Literal/length and distance symbols -/

theorem execLit_keepsCall (h : s.InCall) (hd : s.phase = .decodeBlock) (hp : s.ParserInv) (b : Byte) :
    KeepsCall s (execLit b s) := by
  unfold execLit
  cases ha : append b s with
  | error c => exact raise_keepsCall h.toStanding c
  | ok t =>
    have happ := append_appended h.fits ha
    have hc := h.appended happ
    have ho := happ.outputKept
    obtain ⟨m, k, rfl⟩ := happ.eq
    exact next_keepsCall (hc.inv_of_parser hd hp) ho

theorem cursorAt_left_range (k : Nat) : 1 ≤ (cursorAt k).left.toNat ∧ (cursorAt k).left.toNat ≤ 8 := by
  rw [cursorAt_left]
  omega

theorem lengthSymbol_keepsCall (h : s.InCall) (hd : s.phase = .decodeBlock) (hbt : s.btype = 1 ∨ s.btype = 2)
    (sym : Nat) : KeepsCall s (lengthSymbol sym s) := by
  intro t ht
  rcases lengthSymbol_next h.legal ht with ⟨c, u, hc, rfl, hu, -⟩ | ⟨len, k, rfl, hk, h3, h258, hdist⟩
  · have hst : u.Standing := by
      rcases hu with rfl | ⟨k, hu⟩
      · exact h.toStanding
      · rw [hu]
        exact { h with left := cursorAt_left_range k }
    exact ⟨hst.enterError (by rw [hc]; nofun), fun hne => absurd rfl hne⟩
  · have hcur := h.setCursor ⟨k, hk, rfl⟩
    exact ⟨State.InCall.inv_of_parser { hcur with } hd ⟨hbt.imp_right fun h2 => ⟨h2, hdist h2⟩, h3, h258⟩,
      fun _ => { OutputKept.refl s with }⟩

theorem distanceSymbol_keepsCall (h : s.InCall) (hd : s.phase = .decodeBlock) (hbt : s.btype = 1 ∨ s.btype = 2)
    (dsym : Nat) : KeepsCall s (distanceSymbol dsym s) := by
  intro t ht
  rcases distanceSymbol_next h.legal h.fits ht with ⟨c, u, rfl, hu, hc⟩ | ⟨k, d, u, rfl, hk, -, -, -, happ⟩
  · have hst : u.Standing := by
      rcases hu with rfl | ⟨k, d, rfl⟩
      · exact h.toStanding
      · exact { h with left := cursorAt_left_range k }
    refine ⟨hst.enterError ?_, fun hne => absurd rfl hne⟩
    rcases hc with ⟨rfl, -⟩ | rfl | rfl | rfl <;> nofun
  · have hcur : ((s.setCursor (cursorAt (s.cursor.consumed + k))).setCopyDist d).InCall :=
      { h.setCursor ⟨k, hk, rfl⟩ with }
    have hout := hcur.appended happ
    have ho : OutputKept s u := { happ.outputKept with }
    obtain ⟨m, n, rfl⟩ := happ.eq
    exact ⟨State.InCall.inv_of_parser { hout with } hd hbt, fun _ => { ho with }⟩

theorem litlen_keepsCall (h : s.InCall) (hd : s.phase = .decodeBlock) (hx : s.expect = .litlen)
    (hbt : s.btype = 1 ∨ s.btype = 2) {sym : Nat} {i : Instr} (hi : decodeLitlen sym = some i) :
    KeepsCall s (exec i s) := by
  have hp : s.ParserInv := by
    unfold State.ParserInv
    rw [hx]
    exact hbt
  rw [exec_of_decodeLitlen hi]
  split
  · exact execLit_keepsCall h hd hp _
  split
  · exact endBlock_keepsCall h
  · exact lengthSymbol_keepsCall h hd hbt sym

/-! ### The dynamic header and the bit lengths -/

/-- A dynamic block whose counts are accepted (46_dynamic_block.md R292). -/
structure State.Counted (s : State) : Prop where
  phase : s.phase = .decodeBlock
  btype : s.btype = 2
  hlit_ge : 257 ≤ s.hlit
  hlit_le : s.hlit ≤ 286
  hdist_ge : 1 ≤ s.hdist
  hdist_le : s.hdist ≤ 30

/-- The table of at most `n` bit lengths of at most four bits each. -/
theorem build_bitLengths_symbolsBelow {w n : Nat} {l : List (BitVec w)} (hw : w ≤ 4) (hn : l.length ≤ n) :
    Table.symbolsBelow (build (l.map BitVec.toNat)) n := by
  refine build_symbolsBelow (by rwa [List.length_map]) fun L hL => ?_
  obtain ⟨b, -, rfl⟩ := List.mem_map.1 hL
  have hb : 2 ^ w ≤ 2 ^ 4 := Nat.pow_le_pow_right (by decide) hw
  have := b.isLt
  omega

theorem litlenLens_symbolsBelow (h : s.Counted) : Table.symbolsBelow (build s.litlenLens) 286 :=
  build_bitLengths_symbolsBelow (Nat.le_refl 4) ((List.length_take_le ..).trans h.hlit_le)

theorem distLens_symbolsBelow (h : s.Counted) : Table.symbolsBelow (build s.distLens) 30 :=
  build_bitLengths_symbolsBelow (Nat.le_refl 4) ((List.length_take_le ..).trans h.hdist_le)

/-- The loop test of R290: another code-length symbol, or the tables and the data. -/
theorem continueLengths_keepsCall (h : s.InCall) (hc : s.Counted) : KeepsCall s (.next s.continueLengths) := by
  have hlitlen := litlenLens_symbolsBelow hc
  have hdists := distLens_symbolsBelow hc
  by_cases hlt : s.lens.length < s.hlit + s.hdist
  · rw [s.continueLengths_of_lt hlt]
    exact next_keepsCall (State.InCall.inv_of_parser { h with } hc.phase
      ⟨hc.btype, hc.hlit_ge, hc.hlit_le, hc.hdist_ge, hc.hdist_le, hlt⟩) { OutputKept.refl s with }
  · rw [s.continueLengths_of_ge (Nat.not_lt.1 hlt)]
    unfold State.buildTables
    split
    · exact next_keepsCall (State.InCall.inv_of_parser { h with litlenTab := hlitlen } hc.phase (Or.inr hc.btype))
        { OutputKept.refl s with }
    · exact next_keepsCall
        (State.InCall.inv_of_parser { h with litlenTab := hlitlen, distTab := hdists } hc.phase (Or.inr hc.btype))
        { OutputKept.refl s with }

theorem putLengths_keepsCall (h : s.InCall) (hc : s.Counted) (v : BitVec 4) {r : Nat}
    (hr : s.lens.length + r ≤ s.hlit + s.hdist) : KeepsCall s (.next (s.putLengths v r).continueLengths) := by
  have hlens : (s.putLengths v r).lens.length ≤ 316 := by
    have := hc.hlit_le
    have := hc.hdist_le
    simp only [State.putLengths_lens, List.length_append, List.length_replicate]
    omega
  exact (continueLengths_keepsCall (s := s.putLengths v r) { h with lens := hlens } { hc with }).after
    { OutputKept.refl s with }

theorem repeatLength_keepsCall (h : s.InCall) (hc : s.Counted) (v : BitVec 4) (r : Nat) :
    KeepsCall s (repeatLength v r s) := by
  unfold repeatLength
  split
  · exact raise_keepsCall h.toStanding _
  · rename_i hr
    exact putLengths_keepsCall h hc v (Nat.not_lt.1 hr)

/-- A repeat after its extra bits were read. -/
theorem repeatLength_read_keepsCall (h : s.InCall) (hc : s.Counted) {n : Nat} {q : Nat × Cursor}
    (hr : readBits n s = .ok q) (v : BitVec 4) (r : Nat) : KeepsCall s (repeatLength v r (s.setCursor q.2)) :=
  (repeatLength_keepsCall (h.setCursor (readBits_reaches h.legal (v := q.1) hr)) { hc with } v r).after_read

theorem clen_keepsCall (h : s.InCall) (hc : s.Counted) (hlt : s.lens.length < s.hlit + s.hdist) {sym : Nat}
    {i : Instr} (hi : decodeClen sym = some i) : KeepsCall s (exec i s) := by
  rw [exec_of_decodeClen hi]
  split
  · exact putLengths_keepsCall h hc _ hlt
  split
  · unfold execClRepeatPrev
    cases s.lens.getLast? with
    | none => exact raise_keepsCall h.toStanding _
    | some prev =>
      dsimp only
      cases hr : readBits 2 s with
      | error c => exact raise_keepsCall h.toStanding c
      | ok q => exact repeatLength_read_keepsCall h hc hr prev _
  split
  · unfold execClRepeatZeroShort
    cases hr : readBits 3 s with
    | error c => exact raise_keepsCall h.toStanding c
    | ok q => exact repeatLength_read_keepsCall h hc hr 0 _
  · unfold execClRepeatZeroLong
    cases hr : readBits 7 s with
    | error c => exact raise_keepsCall h.toStanding c
    | ok q => exact repeatLength_read_keepsCall h hc hr 0 _

/-- The dynamic header (46_dynamic_block.md R290 to R296). -/
theorem execHdrDynamic_keepsCall (h : s.InCall) (hd : s.phase = .decodeBlock) (hbt : s.btype = 2) (a b : BitVec 5)
    (n : BitVec 4) : KeepsCall s (execHdrDynamic a b n s) := by
  refine KeepsCall.after (u := s.setCounts (hlitOf a) (hdistOf b) (hclenOf n)) ?_ { OutputKept.refl s with }
  replace h : (s.setCounts (hlitOf a) (hdistOf b) (hclenOf n)).InCall := { h with }
  have hlit : 257 ≤ hlitOf a := Nat.le_add_left ..
  have hdist : 1 ≤ hdistOf b := Nat.le_add_left ..
  unfold execHdrDynamic
  dsimp only
  split
  · exact raise_keepsCall h.toStanding _
  split
  · exact raise_keepsCall h.toStanding _
  rename_i hlit' hdist'
  cases hr : readClens (clenOrder.take (s.setCounts (hlitOf a) (hdistOf b) (hclenOf n)).hclen) (List.replicate 19 0)
    (s.setCounts (hlitOf a) (hdistOf b) (hclenOf n)) with
  | error c => exact raise_keepsCall h.toStanding c
  | ok r =>
    have hlen : r.1.length = 19 := (readClens_ok h.legal (lens := r.1) (c := r.2) hr).1
    have hcur := h.setCursor (readClens_reaches h.legal (lens := r.1) (c := r.2) hr)
    exact next_keepsCall
      (State.InCall.inv_of_parser
        { hcur with clens := hlen, lens := Nat.zero_le _, metaTab := build_bitLengths_symbolsBelow (by decide) hlen.le } hd
        ⟨hbt, hlit, Nat.not_lt.1 hlit', hdist, Nat.not_lt.1 hdist', by show 0 < hlitOf a + hdistOf b; omega⟩)
      { OutputKept.refl s with }

/-! ### The step of the block -/

/-- The element read, and its meaning. -/
theorem runFetched_keepsCall {f : Except Cause (Instr × Cursor)} (h : s.InCall)
    (hok : ∀ i c, f = .ok (i, c) → s.Fetched c ∧
      ((s.setCursor c).InCall → KeepsCall (s.setCursor c) (exec i (s.setCursor c)))) :
    KeepsCall s (runFetched f s) := by
  cases f with
  | error e => exact raise_keepsCall h.toStanding e
  | ok r =>
    obtain ⟨hf, hk⟩ := hok r.1 r.2 rfl
    exact (hk (h.setCursor hf.reaches)).after_read

theorem readFinalStep_keepsCall (h : s.InCall) : KeepsCall s (readFinalStep s) := by
  unfold readFinalStep
  cases hr : readBits 1 s with
  | error c => exact raise_keepsCall h.toStanding c
  | ok r =>
    have hcur := h.setCursor (readBits_reaches h.legal (v := r.1) (c := r.2) hr)
    exact next_keepsCall (State.InCall.inv { hcur with } nofun nofun) { OutputKept.refl s with }

theorem element_keepsCall (h : s.InCall) (hd : s.phase = .decodeBlock) (hp : s.ParserInv) :
    KeepsCall s (runFetched (fetchElement s) s) := by
  have hl := h.legal
  unfold State.ParserInv at hp
  unfold fetchElement
  cases hx : s.expect <;> rw [hx] at hp <;> dsimp only at hp ⊢
  case storedHeader =>
    refine runFetched_keepsCall h fun i c hr => ?_
    obtain ⟨hf, -, len, nlen, rfl⟩ := fetchStoredHeader_ok hr
    exact ⟨hf, fun hc => execHdrStored_keepsCall hc len nlen⟩
  case dynamicHeader =>
    refine runFetched_keepsCall h fun i c hr => ?_
    obtain ⟨hf, a, b, n, rfl⟩ := fetchDynamicHeader_ok hl hr
    exact ⟨hf, fun hc => execHdrDynamic_keepsCall hc hd hp a b n⟩
  case codeLength =>
    obtain ⟨btype, hlit_ge, hlit_le, hdist_ge, hdist_le, hlt⟩ := hp
    refine runFetched_keepsCall h fun i c hr => ?_
    obtain ⟨hf, sym, hi, -⟩ := fetchCodeLength_ok hl hr
    exact ⟨hf, fun hc => clen_keepsCall hc ⟨hd, btype, hlit_ge, hlit_le, hdist_ge, hdist_le⟩ hlt hi⟩
  case litlen =>
    refine runFetched_keepsCall h fun i c hr => ?_
    obtain ⟨hf, sym, hi⟩ := fetchLitlen_ok hl hr
    exact ⟨hf, fun hc => litlen_keepsCall hc hd hx hp hi⟩
  case distance =>
    obtain ⟨hbt, -, -⟩ := hp
    refine runFetched_keepsCall h fun i c hr => ?_
    obtain ⟨hf, dsym, hi⟩ := fetchDistance_ok hl hr
    refine ⟨hf, fun hc => ?_⟩
    rw [exec_of_decodeDist hi]
    exact distanceSymbol_keepsCall hc hd (hbt.imp_right And.left) dsym

theorem blockStep_keepsCall (h : s.Inv) (hb : s.busy = true) : KeepsCall s (blockStep s) := by
  have hc := h.inCall hb
  obtain ⟨-, -, -, hparser⟩ := h.call hb
  unfold State.busy at hb
  unfold blockStep
  cases hp : s.phase with
  | readFinal => exact readFinalStep_keepsCall hc
  | readType =>
    refine runFetched_keepsCall hc fun i c hr => ?_
    obtain ⟨hf, t, rfl⟩ := fetchBlockHeader_ok hc.legal hr
    exact ⟨hf, fun hc' => blockHeader_keepsCall hc' _ t⟩
  | decodeBlock => exact element_keepsCall hc hp (hparser hp)
  | idle | done | error => rw [hp] at hb; cases hb

/-- Settles O54: a step of a call keeps the output it has. -/
theorem outputIsAppendOnlyDuringACall : Obligations.OutputIsAppendOnlyDuringACall := by
  unfold Obligations.OutputIsAppendOnlyDuringACall
  intro s t h hq hb ht hne
  rw [step_block hq] at ht
  obtain ⟨-, ho⟩ := blockStep_keepsCall h hb t ht
  exact ⟨(ho hne).grows, (ho hne).bytes, (ho hne).inMem⟩

end Sys2Proof.Machine
end

section
/-! The invariant through a step of the host, and through every step of the machine. -/

namespace Sys2Proof.Machine

variable {s t : State}

/-! ### Register accesses -/

theorem State.Inv.giveWord (h : s.Inv) (w : Word) : (s.giveWord w).Inv := { h with }

theorem State.Inv.giveByte (h : s.Inv) (b : Byte) : (s.giveByte b).Inv := { h with }

theorem State.Inv.drawFree (h : s.Inv) : s.drawFree.Inv :=
  { h with draws := ⟨Nat.lt_succ_of_lt h.draws.1, Nat.lt_succ_of_lt h.draws.2.1, h.draws.2.2⟩ }

/-- A call begins with an empty output in a stream that fits IN (49_host_interface.md R381). -/
theorem State.Inv.startCall (h : s.Inv) (hlen : s.inLen.toNat ≤ s.params.inMemSize.toNat) : s.startCall.Inv := by
  have none_below {p : Nat → Prop} : ∀ a < s.startCall.outLen.toNat, p a := fun a ha => absurd ha (Nat.not_lt_zero a)
  exact
    { h with
      outMem := Memory.within_nil _
      left := cursorAt_left_range 0
      output := fun _ => ⟨Nat.zero_le _, none_below⟩
      call := fun _ => ⟨.at (Nat.zero_le _) cursorAt_zero.symm, hlen, nofun, nofun⟩
      noError := fun _ => ⟨rfl, rfl⟩
      error := nofun
      draws := ⟨Nat.lt_succ_of_lt h.draws.1, Nat.lt_succ_self _, Nat.ne_of_lt h.draws.1⟩ }

theorem execHostStart_inv {x : Word} (h : s.Inv) (ht : execHostStart x s = .next t) : t.Inv := by
  unfold execHostStart at ht
  split at ht
  · cases ht; exact h
  split at ht
  · cases ht; exact h
  split at ht
  · obtain ⟨hc, rfl⟩ := raise_eq_next ht
    exact h.standing.enterError hc
  · rename_i hlen
    cases ht
    exact h.startCall (Nat.not_lt.1 hlen)

theorem execHostWriteInLen_inv {x : Word} (h : s.Inv) (ht : execHostWriteInLen x s = .next t) : t.Inv := by
  unfold execHostWriteInLen at ht
  split at ht
  · cases ht; exact h
  · rename_i hb
    cases ht
    exact { h with call := fun hb' => absurd hb' hb }

theorem decodeHostWrite_ok {o : BitVec 8} {x : Word} {i : Instr} (h : decodeHostWrite o x = .ok i) :
    i = .hostStart x ∨ i = .hostWriteInLen x ∨ i = .hostWriteIgnored o x := by
  unfold decodeHostWrite at h
  split_ifs at h <;> cases h
  · exact .inl rfl
  · exact .inr (.inl rfl)
  · exact .inr (.inr rfl)

theorem hostWrite_inv {o : BitVec 8} {x : Word} {i : Instr} (hi : decodeHostWrite o x = .ok i) (h : s.Inv)
    (ht : exec i s = .next t) : t.Inv := by
  rcases decodeHostWrite_ok hi with rfl | rfl | rfl
  · exact execHostStart_inv h ht
  · exact execHostWriteInLen_inv h ht
  · cases ht; exact h

/-- A register read gives a word, and may draw a free value for it (10_state.md R55, R56). -/
def GivesWord (s : State) (o : Out) : Prop := ∃ w, o = .next (s.giveWord w) ∨ o = .next (s.drawFree.giveWord w)

theorem execHostReadInPos_gives (s : State) : GivesWord s (execHostReadInPos s) := by
  unfold execHostReadInPos
  cases s.phase with
  | done | idle => exact ⟨_, .inl rfl⟩
  | readFinal | readType | decodeBlock | error => exact ⟨_, .inr rfl⟩

theorem execHostReadInBits_gives (s : State) : GivesWord s (execHostReadInBits s) := by
  unfold execHostReadInBits
  cases s.phase with
  | done | idle => exact ⟨_, .inl rfl⟩
  | readFinal | readType | decodeBlock | error => exact ⟨_, .inr rfl⟩

theorem exec_of_decodeHostRead {o : BitVec 8} {i : Instr} (hi : decodeHostRead o = .ok i) (s : State) :
    GivesWord s (exec i s) := by
  unfold decodeHostRead at hi
  split_ifs at hi <;> cases hi
  · exact ⟨_, .inl rfl⟩
  · exact ⟨_, .inl rfl⟩
  · exact execHostReadInPos_gives s
  · exact execHostReadInBits_gives s
  · exact ⟨_, .inl rfl⟩
  · exact ⟨_, .inl rfl⟩
  · exact ⟨_, .inl rfl⟩

theorem hostRead_inv {o : BitVec 8} {i : Instr} (hi : decodeHostRead o = .ok i) (h : s.Inv)
    (ht : exec i s = .next t) : t.Inv := by
  obtain ⟨w, he | he⟩ := exec_of_decodeHostRead hi s
  · cases he.symm.trans ht
    exact h.giveWord w
  · cases he.symm.trans ht
    exact h.drawFree.giveWord w

theorem hostAccess_inv {a : RegAccess} (h : s.Inv) (ht : hostAccess a s = .next t) : t.Inv := by
  unfold hostAccess at ht
  split at ht
  · cases ht
  split at ht
  · rename_i i hd
    split at hd
    · exact hostWrite_inv hd h ht
    · exact hostRead_inv hd h ht
  · cases ht
    exact h.giveWord _
  · cases ht

/-! ### Accesses to the memories, and reset -/

theorem Memory.read_write_isSome {m : Memory} {a x : Nat} (b : Byte) (h : (Memory.read m x).isSome = true) :
    (Memory.read (Memory.write m a b) x).isSome = true := by
  rw [Memory.read_write]
  split
  · rfl
  · exact h

theorem hostWriteIn_inv {a : Nat} {b : Byte} (h : s.Inv) (ht : hostWriteIn a b s = .next t) : t.Inv := by
  unfold hostWriteIn at ht
  split at ht
  · cases ht
  split at ht
  · rename_i ha
    cases ht
    exact { h with inMem := Memory.write_within b h.inMem ha }
  · cases ht

theorem hostReadIn_inv {a : Nat} (h : s.Inv) (ht : hostReadIn a s = .next t) : t.Inv := by
  unfold hostReadIn at ht
  split at ht
  · cases ht
    exact h.giveByte _
  · cases ht

theorem hostWriteOut_inv {a : Nat} {b : Byte} (h : s.Inv) (ht : hostWriteOut a b s = .next t) : t.Inv := by
  unfold hostWriteOut at ht
  split at ht
  · cases ht
  rename_i hb
  split at ht
  · rename_i ha
    cases ht
    exact
      { h with
        outMem := Memory.write_within b h.outMem ha
        output := fun hp => ⟨(h.output hp).1, fun x hx => Memory.read_write_isSome b ((h.output hp).2 x hx)⟩
        call := fun hb' => absurd hb' hb }
  · cases ht

theorem hostReadOut_inv {a : Nat} (h : s.Inv) (ht : hostReadOut a s = .next t) : t.Inv := by
  unfold hostReadOut at ht
  split at ht
  · split at ht
    · cases ht
      exact h.drawFree.giveByte _
    · cases ht
      exact h.giveByte _
  · cases ht

/-- Reset, from any state whose memories have a size (70_reset_and_hazards.md R450). -/
theorem assertReset_inv (h : s.params.legal = true) : s.assertReset.Inv where
  sizes := h
  inMem := Memory.within_nil _
  outMem := Memory.within_nil _
  left := cursorAt_left_range 0
  clens := rfl
  lens := Nat.zero_le _
  metaTab := nofun
  litlenTab := nofun
  distTab := nofun
  output := by rintro (hb | hp) <;> contradiction
  call := nofun
  noError := fun _ => ⟨rfl, rfl⟩
  error := nofun
  draws := ⟨Nat.lt_add_of_pos_right (by decide), Nat.lt_succ_self _, Nat.ne_of_lt (Nat.lt_succ_self _)⟩

theorem hostStep_inv {a : HostAction} (h : s.Inv) (ht : hostStep a s = .next t) : t.Inv := by
  cases a with
  | reg a => exact hostAccess_inv h ht
  | writeIn a b => exact hostWriteIn_inv h ht
  | readIn a => exact hostReadIn_inv h ht
  | writeOut a b => exact hostWriteOut_inv h ht
  | readOut a => exact hostReadOut_inv h ht
  | reset => cases ht; exact assertReset_inv h.sizes

/-! ### Every step -/

theorem blockStep_inv (h : s.Inv) (ht : blockStep s = .next t) : t.Inv := by
  cases hb : s.busy with
  | true => exact (blockStep_keepsCall h hb t ht).1
  | false =>
    rw [blockStep_idle hb] at ht
    cases ht
    exact h

/-- Settles O50: the step is the block's or the host's, and the invariant does not look at the host's queue. -/
theorem stepKeepsTheInvariant : Obligations.StepKeepsTheInvariant := by
  unfold Obligations.StepKeepsTheInvariant
  intro s t h ht
  have queued (q : List HostStep) : State.Inv { s with hostQueue := q } := { h with }
  cases hq : s.hostQueue with
  | nil =>
    rw [step_block hq] at ht
    exact blockStep_inv h ht
  | cons a rest =>
    by_cases hw : s.busy = true → a.wait = 0
    · rw [step_host_now hq hw] at ht
      exact hostStep_inv (queued rest) ht
    · obtain ⟨hb, hne⟩ := Classical.not_imp.1 hw
      rw [step_host_later hq hb hne] at ht
      exact blockStep_inv (queued _) ht

end Sys2Proof.Machine
end

section
/-! The host's byte accesses at an address beyond IN or OUT (20_memory.md R90; log entry 19). -/

namespace Sys2Proof.Machine

variable {s : State} {a : Nat}

theorem hostReadIn_beyond (ha : s.params.inMemSize.toNat ≤ a) : hostReadIn a s = .fault (.noInAddress a) :=
  if_neg ha.not_gt

theorem hostReadOut_beyond (ha : s.params.outMemSize.toNat ≤ a) : hostReadOut a s = .fault (.noOutAddress a) :=
  if_neg ha.not_gt

theorem hostWriteIn_beyond (b : Byte) (hb : s.busy = false) (ha : s.params.inMemSize.toNat ≤ a) :
    hostWriteIn a b s = .fault (.noInAddress a) := by
  simp [hostWriteIn, hb, ha.not_gt]

theorem hostWriteOut_beyond (b : Byte) (hb : s.busy = false) (ha : s.params.outMemSize.toNat ≤ a) :
    hostWriteOut a b s = .fault (.noOutAddress a) := by
  simp [hostWriteOut, hb, ha.not_gt]

/-- Settles O59: each of the four accesses checks its address against the size of its memory. -/
theorem hostAccessesBeyondTheMemoriesStop : Obligations.HostAccessesBeyondTheMemoriesStop := by
  unfold Obligations.HostAccessesBeyondTheMemoriesStop
  intro s a b
  constructor
  · intro ha
    exact ⟨hostReadIn_beyond ha, fun hb => hostWriteIn_beyond b hb ha⟩
  · intro ha
    exact ⟨hostReadOut_beyond ha, fun hb => hostWriteOut_beyond b hb ha⟩

end Sys2Proof.Machine
end

section
/-! What decoding an instruction's word says about the word, and the instructions whose operands are bounded by their
types alone (30_encoding.md section 2). -/

namespace Sys2Proof.Laws.RoundTrip

/-- The word of every well-formed instruction decodes to it. -/
theorem decode_encode : ∀ i : Instr, Statement i
  | .blkStored f => blkStored f | .blkFixed f => blkFixed f | .blkDynamic f => blkDynamic f
  | .blkReserved f => blkReserved f | .hdrStored l n => hdrStored l n | .hdrDynamic h d c => hdrDynamic h d c
  | .lit b => lit b | .eob => eob
  | .len257 => len257 | .len258 => len258 | .len259 => len259 | .len260 => len260 | .len261 => len261
  | .len262 => len262 | .len263 => len263 | .len264 => len264 | .len265 => len265 | .len266 => len266
  | .len267 => len267 | .len268 => len268 | .len269 => len269 | .len270 => len270 | .len271 => len271
  | .len272 => len272 | .len273 => len273 | .len274 => len274 | .len275 => len275 | .len276 => len276
  | .len277 => len277 | .len278 => len278 | .len279 => len279 | .len280 => len280 | .len281 => len281
  | .len282 => len282 | .len283 => len283 | .len284 => len284 | .len285 => len285
  | .litlenInvalid286 => litlenInvalid286 | .litlenInvalid287 => litlenInvalid287
  | .dist0 => dist0 | .dist1 => dist1 | .dist2 => dist2 | .dist3 => dist3 | .dist4 => dist4 | .dist5 => dist5
  | .dist6 => dist6 | .dist7 => dist7 | .dist8 => dist8 | .dist9 => dist9 | .dist10 => dist10 | .dist11 => dist11
  | .dist12 => dist12 | .dist13 => dist13 | .dist14 => dist14 | .dist15 => dist15 | .dist16 => dist16
  | .dist17 => dist17 | .dist18 => dist18 | .dist19 => dist19 | .dist20 => dist20 | .dist21 => dist21
  | .dist22 => dist22 | .dist23 => dist23 | .dist24 => dist24 | .dist25 => dist25 | .dist26 => dist26
  | .dist27 => dist27 | .dist28 => dist28 | .dist29 => dist29
  | .distInvalid30 => distInvalid30 | .distInvalid31 => distInvalid31
  | .clLen n => clLen n | .clRepeatPrev => clRepeatPrev | .clRepeatZeroShort => clRepeatZeroShort
  | .clRepeatZeroLong => clRepeatZeroLong
  | .hostStart x => hostStart x | .hostWriteInLen x => hostWriteInLen x | .hostReadStatus => hostReadStatus
  | .hostReadOutLen => hostReadOutLen | .hostReadInPos => hostReadInPos | .hostReadInBits => hostReadInBits
  | .hostReadInSize => hostReadInSize | .hostReadOutSize => hostReadOutSize
  | .hostWriteIgnored o x => hostWriteIgnored o x | .hostReadReserved o => hostReadReserved o

/-- Only the two host rows that stand for many registers have an operand their type does not bound. -/
theorem wellFormed_of_not_host {i : Instr} (hw : (encode i).1 ≠ .hostWrite) (hr : (encode i).1 ≠ .hostRead) :
    i.wellFormed = true := by
  cases i with
  | hostWriteIgnored o x => exact absurd rfl hw
  | hostReadReserved o => exact absurd rfl hr
  | _ => rfl

/-- The word of a stream instruction decodes to it, whatever its operands. -/
theorem decode_encode_stream {i : Instr} {f : Format} (hf : (encode i).1 = f) (hw : f ≠ .hostWrite)
    (hr : f ≠ .hostRead) :
    decode f (encode i).2 = .ok i := by
  subst hf
  exact decode_encode i (wellFormed_of_not_host hw hr)

section
variable {w : Nat} {i : Instr}

theorem lt_of_decode {f : Format} (h : decode f w = .ok i) : w < 2 ^ f.width := by
  by_contra hw
  unfold decode at h
  rw [if_pos (Nat.not_lt.1 hw)] at h
  cases h

theorem blockHeader_of_decode (h : decode .blockHeader w = .ok i) :
    i = decodeBlockHeader (w.testBit 0) (BitVec.ofNat 2 (w / 2)) := by
  rw [decode, if_neg (lt_of_decode h).not_ge] at h
  exact (Except.ok.inj h).symm

theorem storedHeader_of_decode (h : decode .storedHeader w = .ok i) :
    i = .hdrStored (BitVec.ofNat 16 w) (BitVec.ofNat 16 (w / 2 ^ 16)) := by
  rw [decode, if_neg (lt_of_decode h).not_ge] at h
  exact (Except.ok.inj h).symm

theorem dynamicHeader_of_decode (h : decode .dynamicHeader w = .ok i) :
    i = .hdrDynamic (BitVec.ofNat 5 w) (BitVec.ofNat 5 (w / 2 ^ 5)) (BitVec.ofNat 4 (w / 2 ^ 10)) := by
  rw [decode, if_neg (lt_of_decode h).not_ge] at h
  exact (Except.ok.inj h).symm

/-- The three symbol formats answer the row of the symbol, or an error where there is none. -/
theorem eq_some_of_answer {o : Option Instr} {e : DecodeError}
    (h : (match o with | some j => .ok j | none => .error e : Except DecodeError Instr) = .ok i) : o = some i := by
  cases o with
  | none => cases h
  | some j => exact congrArg some (Except.ok.inj h)

theorem decodeLitlen_of_decode (h : decode .litlenSymbol w = .ok i) : decodeLitlen w = some i := by
  rw [decode, if_neg (lt_of_decode h).not_ge] at h
  exact eq_some_of_answer h

theorem decodeDist_of_decode (h : decode .distSymbol w = .ok i) : decodeDist w = some i := by
  rw [decode, if_neg (lt_of_decode h).not_ge] at h
  exact eq_some_of_answer h

theorem decodeClen_of_decode (h : decode .clenSymbol w = .ok i) : decodeClen w = some i := by
  rw [decode, if_neg (lt_of_decode h).not_ge] at h
  exact eq_some_of_answer h

theorem decodeHostWrite_of_decode (h : decode .hostWrite w = .ok i) :
    decodeHostWrite (BitVec.ofNat 8 w) (BitVec.ofNat 32 (w / 2 ^ 8)) = .ok i := by
  rwa [decode, if_neg (lt_of_decode h).not_ge] at h

theorem decodeHostRead_of_decode (h : decode .hostRead w = .ok i) : decodeHostRead (BitVec.ofNat 8 w) = .ok i := by
  rwa [decode, if_neg (lt_of_decode h).not_ge] at h

end
end Sys2Proof.Laws.RoundTrip
end

section
/-! Bits held by the stream, as the value of a field (30_encoding.md R121) and as a Huffman code (R122). -/

namespace Sys2Proof.Machine

/-! ### Lists of bits and their values -/

@[simp] theorem length_lsbFirst (n v : Nat) : (lsbFirst n v).length = n := by
  induction n generalizing v with
  | zero => rfl
  | succ n ih => simp [lsbFirst, ih]

@[simp] theorem length_msbFirst (n v : Nat) : (msbFirst n v).length = n := by simp [msbFirst]

theorem lsbFirst_eq_map_testBit (n v : Nat) : lsbFirst n v = (List.range n).map v.testBit := by
  induction n generalizing v with
  | zero => rfl
  | succ n ih =>
    rw [lsbFirst, ih, List.range_succ_eq_map, List.map_cons, List.map_map]
    congr 1
    exact List.map_congr_left fun i _ => (Nat.testBit_succ v i).symm

theorem drop_lsbFirst (j n v : Nat) : (lsbFirst (n + j) v).drop j = lsbFirst n (v / 2 ^ j) := by
  induction j generalizing v with
  | zero => simp
  | succ j ih =>
    rw [← Nat.add_assoc, lsbFirst, List.drop_succ_cons, ih, Nat.div_div_eq_div_mul, Nat.pow_succ']

/-- The first `n` bits of a longer code are its `n` high bits. -/
theorem take_msbFirst (j n v : Nat) : (msbFirst (n + j) v).take n = msbFirst n (v / 2 ^ j) := by
  rw [msbFirst, List.take_reverse, length_lsbFirst, Nat.add_sub_cancel_left, drop_lsbFirst, msbFirst]

theorem bitsValue_lsbFirst (n v : Nat) : bitsValue (lsbFirst n v) = v % 2 ^ n := by
  induction n generalizing v with
  | zero => simp [lsbFirst, bitsValue, Nat.mod_one]
  | succ n ih =>
    rw [lsbFirst, bitsValue, ih, Nat.testBit_zero, Nat.pow_succ', Nat.mod_mul]
    rcases Nat.mod_two_eq_zero_or_one v with h | h <;> simp [h]

theorem bitsValue_append (as bs : List Bool) : bitsValue (as ++ bs) = bitsValue as + 2 ^ as.length * bitsValue bs := by
  induction as with
  | nil => simp [bitsValue]
  | cons a as ih => rw [List.cons_append, bitsValue, bitsValue, ih, List.length_cons, Nat.pow_succ']; ring

/-- Bit reversal (00_scope.md R13) reverses the list of bits. -/
theorem revBits_bitsValue (bs : List Bool) : revBits bs.length (bitsValue bs) = bitsValue bs.reverse := by
  induction bs with
  | nil => rfl
  | cons b bs ih =>
    have hb := Bool.toNat_lt b
    rw [List.length_cons, revBits, bitsValue, show (b.toNat + 2 * bitsValue bs) / 2 = bitsValue bs by omega,
      show (b.toNat + 2 * bitsValue bs) % 2 = b.toNat by omega, ih, List.reverse_cons, bitsValue_append,
      List.length_reverse]
    simp only [bitsValue]
    ring

/-- A code read first bit lowest and then reversed has its own value. -/
theorem revBits_bitsValue_msbFirst (n v : Nat) : revBits n (bitsValue (msbFirst n v)) = v % 2 ^ n := by
  have h := revBits_bitsValue (msbFirst n v)
  rwa [length_msbFirst, msbFirst, List.reverse_reverse, bitsValue_lsbFirst] at h

/-! ### The stream's bits -/

theorem State.fieldAt_add (s : State) (k m n : Nat) :
    s.fieldAt k (m + n) = s.fieldAt k m + 2 ^ m * s.fieldAt (k + m) n := by
  rw [State.fieldAt, List.range_add, List.map_append, bitsValue_append, List.map_map, List.length_map,
    List.length_range]
  simp only [State.fieldAt, Function.comp_def, Nat.add_assoc]

/-- The eight stream bits of a byte of IN are its value (20_memory.md R91). -/
theorem State.fieldAt_byte (s : State) (a : Nat) : s.fieldAt (8 * a) 8 = (s.inByte a).toNat := by
  have hbits : (List.range 8).map (fun i => s.streamBit (8 * a + i)) = lsbFirst 8 (s.inByte a).toNat := by
    rw [lsbFirst_eq_map_testBit]
    refine List.map_congr_left fun i hi => ?_
    have hi := List.mem_range.1 hi
    rw [State.streamBit, show (8 * a + i) / 8 = a by omega, show (8 * a + i) % 8 = i by omega, BitVec.testBit_toNat]
  rw [State.fieldAt, hbits, bitsValue_lsbFirst, Nat.mod_eq_of_lt (s.inByte a).isLt]

/-- A field that begins with a whole byte. -/
theorem State.fieldAt_byte_add (s : State) (a n : Nat) :
    s.fieldAt (8 * a) (8 + n) = (s.inByte a).toNat + 2 ^ 8 * s.fieldAt (8 * (a + 1)) n := by
  rw [s.fieldAt_add, s.fieldAt_byte, Nat.mul_add]

/-- The field over the first `m` bits the stream holds. -/
theorem State.holdsBits.fieldAt_take {s : State} {k m : Nat} {bits : List Bool} (h : s.holdsBits k bits)
    (hm : m ≤ bits.length) : s.fieldAt k m = bitsValue (bits.take m) := by
  have hbits : (List.range m).map (fun i => s.streamBit (k + i)) = bits.take m := by
    apply List.ext_getElem?
    intro i
    by_cases hi : i < m
    · simp [hi, h.2 i (by omega)]
    · simp [hi]
  rw [State.fieldAt, hbits]

/-- A field in the stream has its own value. -/
theorem State.holdsBits.field {s : State} {k n w : Nat} (h : s.holdsBits k (lsbFirst n w)) (hw : w < 2 ^ n) :
    k + n ≤ 8 * s.inLen.toNat ∧ s.fieldAt k n = w := by
  refine ⟨by simpa using h.1, ?_⟩
  rw [h.fieldAt_take (by simp), List.take_of_length_le (by simp), bitsValue_lsbFirst, Nat.mod_eq_of_lt hw]

/-- The first `n` bits of a code in the stream spell its `n` high bits. -/
theorem State.holdsBits.code {s : State} {k n j w : Nat} (h : s.holdsBits k (msbFirst (n + j) w))
    (hw : w < 2 ^ (n + j)) :
    k + n ≤ 8 * s.inLen.toNat ∧ revBits n (s.fieldAt k n) = w / 2 ^ j := by
  have hle := h.1
  rw [length_msbFirst] at hle
  refine ⟨by omega, ?_⟩
  rw [h.fieldAt_take (by simp), take_msbFirst, revBits_bitsValue_msbFirst]
  exact Nat.mod_eq_of_lt (Nat.div_lt_of_lt_mul (by rwa [← Nat.pow_add, Nat.add_comm]))

/-- A read of bits that are there. -/
theorem readBits_at_cursorAt {s : State} {k n : Nat} (hc : s.cursor = cursorAt k) (hk : k + n ≤ 8 * s.inLen.toNat)
    (hn : n ≤ 32) : readBits n s = .ok (s.fieldAt k n, cursorAt (k + n)) := by
  have hlt := s.inLen.isLt
  rw [readBits_legal (.at (k := k) (by omega) hc) n hn, hc, consumed_cursorAt (by omega), if_pos hk]

theorem readBits_setCursor {s : State} {k n : Nat} (hk : k + n ≤ 8 * s.inLen.toNat) (hn : n ≤ 32) :
    readBits n (s.setCursor (cursorAt k)) = .ok (s.fieldAt k n, cursorAt (k + n)) :=
  readBits_at_cursorAt (s := s.setCursor (cursorAt k)) rfl hk hn

end Sys2Proof.Machine
end

section
/-! A table whose codes are given by a formula, the fixed table as one (30_encoding.md R136), and the decoding of a code
the stream spells (42_symbol_decoder.md R211). -/

namespace Sys2Proof.Machine

/-! ### Tables given by a formula -/

/-- The table of the first `n` symbols whose codes and lengths are those of `code`. -/
def codedTable (code : Nat → Nat × Nat) (n : Nat) : Table :=
  (List.range n).map fun sym => { code := (code sym).1, len := (code sym).2, sym := sym }

theorem mem_codedTable {code : Nat → Nat × Nat} {n : Nat} {e : Entry} :
    e ∈ codedTable code n ↔ e.sym < n ∧ code e.sym = (e.code, e.len) := by
  obtain ⟨c, L, sym⟩ := e
  simp only [codedTable, List.mem_map, List.mem_range, Entry.mk.injEq]
  constructor
  · rintro ⟨k, hk, rfl, rfl, rfl⟩
    exact ⟨hk, rfl⟩
  · rintro ⟨hs, he⟩
    exact ⟨sym, hs, by rw [he], by rw [he], rfl⟩

/-- A code that stands in a table is found, for one symbol or another. -/
theorem lookup_ne_none {t : Table} {e : Entry} (h : e ∈ t) : lookup t e.code e.len ≠ none := by
  induction t with
  | nil => cases h
  | cons d t ih =>
    rw [lookup]
    split
    · exact Option.some_ne_none _
    · rename_i hd
      rcases List.mem_cons.1 h with rfl | h
      · exact absurd ⟨rfl, rfl⟩ hd
      · exact ih h

/-- Where no two symbols share a code, each is found by its own. -/
theorem lookup_codedTable_iff {code : Nat → Nat × Nat} {n : Nat}
    (hinj : ∀ a < n, ∀ b < n, code a = code b → a = b) (c L sym : Nat) :
    lookup (codedTable code n) c L = some sym ↔ sym < n ∧ code sym = (c, L) := by
  constructor
  · intro h
    exact mem_codedTable.1 (lookup_some h)
  · rintro ⟨hs, hc⟩
    have hne := lookup_ne_none (mem_codedTable.2 ⟨hs, hc⟩ : (⟨c, L, sym⟩ : Entry) ∈ codedTable code n)
    obtain ⟨sym', h'⟩ := Option.ne_none_iff_exists'.1 hne
    obtain ⟨hs', hc'⟩ := mem_codedTable.1 (lookup_some h')
    rw [h', hinj sym' hs' sym hs (hc'.trans hc.symm)]

/-! ### The fixed table -/

/-- The canonical builder gives the codes of R136 to the fixed lengths. -/
theorem fixedLitlen_eq_codedTable : fixedLitlen = codedTable fixedCode 288 := by decide +kernel

theorem fixedCode_injective {a b : Nat} (ha : a < 288) (hb : b < 288) (h : fixedCode a = fixedCode b) : a = b := by
  unfold fixedCode at h
  split_ifs at h <;> simp only [Prod.mk.injEq] at h <;> omega

theorem lookup_fixedLitlen_iff (c L sym : Nat) :
    lookup fixedLitlen c L = some sym ↔ sym < 288 ∧ fixedCode sym = (c, L) := by
  rw [fixedLitlen_eq_codedTable]
  exact lookup_codedTable_iff (fun a ha b hb => fixedCode_injective ha hb) c L sym

theorem fixedCode_range {sym : Nat} (h : sym < 288) :
    7 ≤ (fixedCode sym).2 ∧ (fixedCode sym).2 ≤ 9 ∧ (fixedCode sym).1 < 2 ^ (fixedCode sym).2 := by
  unfold fixedCode
  split_ifs <;> simp <;> omega

/-- No fixed code begins with a shorter one. -/
theorem fixedCode_not_begun_by_shorter {a b j : Nat} (ha : a < 288) (hb : b < 288) (hj : 1 ≤ j)
    (hlen : (fixedCode b).2 + j = (fixedCode a).2) : (fixedCode b).1 ≠ (fixedCode a).1 / 2 ^ j := by
  have hj2 : j = 1 ∨ j = 2 := by
    have := fixedCode_range ha
    have := fixedCode_range hb
    omega
  unfold fixedCode at *
  rcases hj2 with rfl | rfl <;> split_ifs at * <;> simp only at * <;> omega

/-! ### Decoding a code the stream spells -/

variable {s : State} {t : Table}

/-- The symbol decoder answers the first length of those tried whose bits stand in the table (R211). -/
theorem decodeSymbolFrom_shortest (h : s.CursorLegal) {n L₀ L sym : Nat} (h1 : 1 ≤ L₀) (h15 : L₀ + n ≤ 16)
    (hL₀ : L₀ ≤ L) (hL : L < L₀ + n) (hk : s.cursor.consumed + L ≤ 8 * s.inLen.toNat)
    (hfound : lookup t (revBits L (s.fieldAt s.cursor.consumed L)) L = some sym)
    (hnone : ∀ M, L₀ ≤ M → M < L → lookup t (revBits M (s.fieldAt s.cursor.consumed M)) M = none) :
    decodeSymbolFrom t s n L₀ = .ok (sym, cursorAt (s.cursor.consumed + L)) := by
  induction n generalizing L₀ with
  | zero => omega
  | succ n ih =>
    rw [decodeSymbolFrom_succ t h n L₀ h1 (by omega), if_pos (by omega)]
    rcases Nat.eq_or_lt_of_le hL₀ with rfl | hlt
    · rw [hfound]
    · rw [hnone L₀ (Nat.le_refl _) hlt]
      exact ih (by omega) (by omega) hlt (by omega) fun M hM => hnone M (by omega)

/-- A code spelled at the cursor is decoded to its symbol, where no shorter code of the table begins it. -/
theorem decodeSymbol_of_holdsBits (h : s.CursorLegal) {lmin lmax L c sym : Nat} (h1 : 1 ≤ lmin) (h15 : lmax ≤ 15)
    (hmin : lmin ≤ L) (hmax : L ≤ lmax) (hc : c < 2 ^ L) (hbits : s.holdsBits s.cursor.consumed (msbFirst L c))
    (hfound : lookup t c L = some sym)
    (hnone : ∀ M j, lmin ≤ M → 1 ≤ j → M + j = L → lookup t (c / 2 ^ j) M = none) :
    decodeSymbol t lmin lmax s = .ok (sym, cursorAt (s.cursor.consumed + L)) := by
  obtain ⟨hk, hcode⟩ := State.holdsBits.code (j := 0) hbits hc
  rw [Nat.pow_zero, Nat.div_one] at hcode
  refine decodeSymbolFrom_shortest h h1 (by omega) hmin (by omega) hk (hcode ▸ hfound) fun M hM hlt => ?_
  obtain ⟨j, rfl⟩ := Nat.exists_eq_add_of_lt hlt
  rw [(State.holdsBits.code (n := M) (j := j + 1) hbits hc).2]
  exact hnone M (j + 1) hM (by omega) rfl

/-- The symbol decoder of a fixed block reads the code of R136 as its symbol. -/
theorem decodeSymbol_fixedLitlen (h : s.CursorLegal) {sym : Nat} (hs : sym < 288)
    (hbits : s.holdsBits s.cursor.consumed (streamBits .litlenSymbol sym)) :
    decodeSymbol fixedLitlen 7 9 s = .ok (sym, cursorAt (s.cursor.consumed + (fixedCode sym).2)) := by
  obtain ⟨h7, h9, hc⟩ := fixedCode_range hs
  refine decodeSymbol_of_holdsBits h (by omega) (by omega) h7 h9 hc hbits
    ((lookup_fixedLitlen_iff _ _ _).2 ⟨hs, rfl⟩) fun M j _ hj hM => ?_
  refine Option.eq_none_iff_forall_ne_some.2 fun sym' hsome => ?_
  obtain ⟨hs', hcode⟩ := (lookup_fixedLitlen_iff _ _ _).1 hsome
  exact fixedCode_not_begun_by_shorter hs hs' hj (by rw [hcode]; exact hM) (by rw [hcode])

/-- In the meta-table of nineteen lengths 5 each symbol is its own code. -/
theorem build_replicate_eq_codedTable : build (List.replicate 19 5) = codedTable (fun sym => (sym, 5)) 19 := by decide

theorem lookup_metaTable_iff (c L sym : Nat) :
    lookup (build (List.replicate 19 5)) c L = some sym ↔ sym < 19 ∧ sym = c ∧ 5 = L := by
  rw [build_replicate_eq_codedTable, lookup_codedTable_iff (fun a _ b _ hab => (Prod.mk.inj hab).1), Prod.mk.injEq]

/-- The symbol decoder reads the five bits of a code-length symbol from that table. -/
theorem decodeSymbol_metaTable (h : s.CursorLegal) {sym : Nat} (hs : sym < 19)
    (hbits : s.holdsBits s.cursor.consumed (streamBits .clenSymbol sym)) :
    decodeSymbol (build (List.replicate 19 5)) 1 15 s = .ok (sym, cursorAt (s.cursor.consumed + 5)) := by
  refine decodeSymbol_of_holdsBits h (by omega) (by omega) (by omega) (by omega) (show sym < 2 ^ 5 by omega) hbits
    ((lookup_metaTable_iff _ _ _).2 ⟨hs, rfl, rfl⟩) fun M j _ hj hM => ?_
  refine Option.eq_none_iff_forall_ne_some.2 fun sym' hsome => ?_
  obtain ⟨-, -, h5⟩ := (lookup_metaTable_iff _ _ _).1 hsome
  omega

/-- The distance field of a fixed block (R122, R275), bit-reversed, is the symbol it spells. -/
theorem bitrev_bitsValue_msbFirst {d : Nat} (h : d < 2 ^ 5) : bitrev (bitsValue (msbFirst 5 d)) 5 = .ok d := by
  rw [bitrev_legal (by omega) (by omega), revBits_bitsValue_msbFirst, Nat.mod_eq_of_lt h]

/-- Settles O9: the builder's table is that of the formula, in which each symbol is found by its own code. -/
theorem fixedCodesAreTheListedOnes : Obligations.FixedCodesAreTheListedOnes := by
  unfold Obligations.FixedCodesAreTheListedOnes
  refine ⟨by rw [fixedLitlen_eq_codedTable, codedTable, List.length_map, List.length_range], fun sym hs => ?_,
    fun k hk => ?_, fun k hk => ?_, fun k hk => ?_, fun d hd => bitrev_bitsValue_msbFirst hd⟩
  · exact (lookup_fixedLitlen_iff _ _ _).2 ⟨by omega, if_pos hs⟩
  · refine (lookup_fixedLitlen_iff _ _ _).2 ⟨by omega, ?_⟩
    rw [fixedCode, if_neg (by omega), if_pos (by omega), Nat.add_sub_cancel_left]
  · refine (lookup_fixedLitlen_iff _ _ _).2 ⟨by omega, ?_⟩
    rw [fixedCode, if_neg (by omega), if_neg (by omega), if_pos (by omega), Nat.add_sub_cancel_left]
  · refine (lookup_fixedLitlen_iff _ _ _).2 ⟨by omega, ?_⟩
    rw [fixedCode, if_neg (by omega), if_neg (by omega), if_neg (by omega), Nat.add_sub_cancel_left]

end Sys2Proof.Machine
end

section
/-! The bits of an instruction in the stream are read back as that instruction (30_encoding.md section 2). -/

namespace Sys2Proof.Machine

open Sys2Proof.Laws.RoundTrip

variable {s : State} {i : Instr} {c : Cursor} {w : Nat}

/-! ### A symbol decoded is run as its row -/

theorem fetchLitlen_of_code (hd : litlenCode s = .ok (w, c)) (hi : decodeLitlen w = some i) :
    fetchLitlen s = .ok (i, c) := by
  refine (fetchLitlen_at s s.phase s.expect).trans ?_
  rw [hd]
  simp only [hi]

theorem fetchDistance_of_code (hd : distanceCode s = .ok (w, c)) (hi : decodeDist w = some i) :
    fetchDistance s = .ok (i, c) := by
  refine (fetchDistance_at s s.phase s.expect).trans ?_
  rw [hd]
  simp only [hi]

theorem fetchCodeLength_of_code (hd : decodeSymbol s.metaTab 1 15 s = .ok (w, c)) (hi : decodeClen w = some i) :
    fetchCodeLength s = .ok (i, c) := by
  rw [fetchCodeLength, show maxCodeLen = 15 from rfl, hd]
  simp only [hi]

/-! ### The headers -/

/-- The type follows the flag already read (43_block_dispatcher.md R232). -/
theorem fetchBlockHeader_after_flag {k : Nat} (f : Bool) (hk : k + 2 ≤ 8 * s.inLen.toNat) :
    fetchBlockHeader { s with cursor := cursorAt k, bfinal := f } =
      .ok (decodeBlockHeader f (BitVec.ofNat 2 (s.fieldAt k 2)), cursorAt (k + 2)) := by
  have hread : readBits 2 { s with cursor := cursorAt k, bfinal := f } = .ok (s.fieldAt k 2, cursorAt (k + 2)) :=
    readBits_at_cursorAt (s := { s with cursor := cursorAt k, bfinal := f }) rfl hk (by omega)
  rw [fetchBlockHeader, hread]

/-- The flag and the type, read one after the other (R124, R131). -/
theorem fetchBlockHeader_of_holdsBits (hl : s.CursorLegal)
    (hb : s.holdsBits s.cursor.consumed (streamBits .blockHeader w)) (hd : decode .blockHeader w = .ok i) :
    ∃ v, readBits 1 s = .ok (v, cursorAt (s.cursor.consumed + 1)) ∧
      fetchBlockHeader { s with cursor := cursorAt (s.cursor.consumed + 1), bfinal := v.testBit 0 }
        = .ok (i, cursorAt (s.cursor.consumed + 3)) := by
  obtain ⟨hk, hw⟩ := hb.field (lt_of_decode hd)
  rw [s.fieldAt_add _ 1 2] at hw
  have hflag := s.fieldAt_lt s.cursor.consumed 1
  refine ⟨_, readBits_at_cursorAt hl.cursor_eq (by omega) (by omega), ?_⟩
  have hv : (s.fieldAt s.cursor.consumed 1).testBit 0 = w.testBit 0 := by
    rw [Nat.testBit_zero, Nat.testBit_zero]
    congr 2
    omega
  have ht : s.fieldAt (s.cursor.consumed + 1) 2 = w / 2 := by omega
  rw [fetchBlockHeader_after_flag _ (by omega), blockHeader_of_decode hd, hv, ht]

/-- Two bytes of the stored header as one half of it (R123). -/
theorem half_eq_ofNat (lo hi : Byte) :
    lo.setWidth 16 ||| (hi.setWidth 16 <<< 8) = BitVec.ofNat 16 (lo.toNat + 2 ^ 8 * hi.toNat) := by
  have hlo := lo.isLt
  have hhi := hi.isLt
  apply BitVec.eq_of_toNat_eq
  rw [BitVec.toNat_or, BitVec.toNat_shiftLeft, BitVec.toNat_setWidth, BitVec.toNat_setWidth, BitVec.toNat_ofNat,
    Nat.mod_eq_of_lt (show lo.toNat < 2 ^ 16 by omega), Nat.mod_eq_of_lt (show hi.toNat < 2 ^ 16 by omega),
    Nat.mod_eq_of_lt (show hi.toNat <<< 8 < 2 ^ 16 by rw [Nat.shiftLeft_eq]; omega), Nat.lor_comm,
    ← Nat.shiftLeft_add_eq_or_of_lt hlo, Nat.shiftLeft_eq]
  omega

/-- The four bytes of a stored header (44_stored_block.md R251). -/
theorem fetchStoredHeader_eq {p : Nat} (h8 : s.cursor.left = 8) (hp : s.cursor.pos.toNat = p)
    (hk : p + 4 ≤ s.inLen.toNat) :
    fetchStoredHeader s = .ok (.hdrStored
      (BitVec.ofNat 16 ((s.inByte p).toNat + 2 ^ 8 * (s.inByte (p + 1)).toNat))
      (BitVec.ofNat 16 ((s.inByte (p + 2)).toNat + 2 ^ 8 * (s.inByte (p + 3)).toNat)),
      cursorAt (s.cursor.consumed + 32)) := by
  have hlt := s.inLen.isLt
  have hread : readBytes 4 s = .ok ([s.inByte p, s.inByte (p + 1), s.inByte (p + 2), s.inByte (p + 3)],
      cursorAt (s.cursor.consumed + 32)) := by
    rw [readBytes, if_neg (by simp [h8]), if_neg (by omega), Cursor.skipBytes_eq h8 (by omega), hp]
    rfl
  rw [fetchStoredHeader, hread, ← half_eq_ofNat, ← half_eq_ofNat]
  rfl

theorem fetchStoredHeader_of_holdsBits (h8 : s.cursor.left = 8)
    (hb : s.holdsBits s.cursor.consumed (streamBits .storedHeader w)) (hd : decode .storedHeader w = .ok i) :
    fetchStoredHeader s = .ok (i, cursorAt (s.cursor.consumed + 32)) := by
  obtain ⟨hk, hw⟩ := hb.field (lt_of_decode hd)
  obtain ⟨p, hp⟩ : ∃ p, s.cursor.pos.toNat = p := ⟨_, rfl⟩
  have hcons : s.cursor.consumed = 8 * p := by simp [Cursor.consumed, h8, hp]
  rw [hcons] at hw hk
  have hw0 : s.fieldAt (8 * p) 32 = (s.inByte p).toNat + 2 ^ 8 * s.fieldAt (8 * (p + 1)) 24 := s.fieldAt_byte_add p 24
  have hw1 : s.fieldAt (8 * (p + 1)) 24 = (s.inByte (p + 1)).toNat + 2 ^ 8 * s.fieldAt (8 * (p + 2)) 16 :=
    s.fieldAt_byte_add (p + 1) 16
  have hw2 : s.fieldAt (8 * (p + 2)) 16 = (s.inByte (p + 2)).toNat + 2 ^ 8 * s.fieldAt (8 * (p + 3)) 8 :=
    s.fieldAt_byte_add (p + 2) 8
  have hw3 := s.fieldAt_byte (p + 3)
  have h0 := (s.inByte p).isLt
  have h1 := (s.inByte (p + 1)).isLt
  have hlow : BitVec.ofNat 16 ((s.inByte p).toNat + 2 ^ 8 * (s.inByte (p + 1)).toNat) = BitVec.ofNat 16 w := by
    apply BitVec.eq_of_toNat_eq
    rw [BitVec.toNat_ofNat, BitVec.toNat_ofNat]
    omega
  have hhigh : (s.inByte (p + 2)).toNat + 2 ^ 8 * (s.inByte (p + 3)).toNat = w / 2 ^ 16 := by omega
  rw [fetchStoredHeader_eq h8 hp (by omega), storedHeader_of_decode hd, hlow, hhigh]

/-- The three fields of a dynamic header (46_dynamic_block.md R291). -/
theorem fetchDynamicHeader_eq {k : Nat} (hc : s.cursor = cursorAt k) (hk : k + 14 ≤ 8 * s.inLen.toNat) :
    fetchDynamicHeader s = .ok (.hdrDynamic (BitVec.ofNat 5 (s.fieldAt k 5)) (BitVec.ofNat 5 (s.fieldAt (k + 5) 5))
      (BitVec.ofNat 4 (s.fieldAt (k + 10) 4)), cursorAt (k + 14)) := by
  rw [fetchDynamicHeader, readBits_at_cursorAt hc (by omega) (by omega)]
  dsimp only
  rw [readBits_setCursor (by omega) (by omega)]
  dsimp only
  rw [readBits_setCursor (by omega) (by omega)]

theorem fetchDynamicHeader_of_holdsBits (hl : s.CursorLegal)
    (hb : s.holdsBits s.cursor.consumed (streamBits .dynamicHeader w)) (hd : decode .dynamicHeader w = .ok i) :
    fetchDynamicHeader s = .ok (i, cursorAt (s.cursor.consumed + 14)) := by
  obtain ⟨hk, hw⟩ := hb.field (lt_of_decode hd)
  have hw0 : s.fieldAt s.cursor.consumed 14 =
      s.fieldAt s.cursor.consumed 5 + 2 ^ 5 * s.fieldAt (s.cursor.consumed + 5) 9 := s.fieldAt_add _ 5 9
  have hw1 : s.fieldAt (s.cursor.consumed + 5) 9 =
      s.fieldAt (s.cursor.consumed + 5) 5 + 2 ^ 5 * s.fieldAt (s.cursor.consumed + 10) 4 := s.fieldAt_add _ 5 4
  have h0 := s.fieldAt_lt s.cursor.consumed 5
  have h1 := s.fieldAt_lt (s.cursor.consumed + 5) 5
  have hlit : BitVec.ofNat 5 (s.fieldAt s.cursor.consumed 5) = BitVec.ofNat 5 w := by
    apply BitVec.eq_of_toNat_eq
    rw [BitVec.toNat_ofNat, BitVec.toNat_ofNat]
    omega
  have hdist : BitVec.ofNat 5 (s.fieldAt (s.cursor.consumed + 5) 5) = BitVec.ofNat 5 (w / 2 ^ 5) := by
    apply BitVec.eq_of_toNat_eq
    rw [BitVec.toNat_ofNat, BitVec.toNat_ofNat]
    omega
  have hclen : s.fieldAt (s.cursor.consumed + 10) 4 = w / 2 ^ 10 := by omega
  rw [fetchDynamicHeader_eq hl.cursor_eq hk, dynamicHeader_of_decode hd, hlit, hdist, hclen]

/-! ### Every instruction -/

theorem lt_of_decodeLitlen (hi : decodeLitlen w = some i) : w < 288 := by
  by_contra hw
  rw [decodeLitlen_of_ge (Nat.not_lt.1 hw)] at hi
  cases hi

theorem lt_of_decodeClen (hi : decodeClen w = some i) : w < 19 := by
  by_contra hw
  rw [(decodeClen_none_iff w).2 (by omega)] at hi
  cases hi

/-- The five bits of a distance field of a fixed block spell its symbol (R122, R275). -/
theorem distanceCode_of_holdsBits (hl : s.CursorLegal) (h1 : s.btype = 1)
    (hb : s.holdsBits s.cursor.consumed (streamBits .distSymbol w)) (hw : w < 2 ^ 5) :
    distanceCode s = .ok (w, cursorAt (s.cursor.consumed + 5)) := by
  obtain ⟨hk, hcode⟩ := State.holdsBits.code (n := 5) (j := 0) hb hw
  rw [distanceCode, if_pos h1, readBits_at_cursorAt hl.cursor_eq hk (by omega)]
  simp only [hcode, Nat.pow_zero, Nat.div_one]

/-- Settles O13, format by format: the word of the instruction decodes to it, and each read answers what its word
decodes to. -/
theorem instructionBitsDecodeToTheInstruction : Obligations.InstructionBitsDecodeToTheInstruction := by
  unfold Obligations.InstructionBitsDecodeToTheInstruction
  intro i s hwf hl hb
  have hd := decode_encode i hwf
  generalize (encode i).1 = f, (encode i).2 = w at hb hd
  cases f with
  | blockHeader => exact fetchBlockHeader_of_holdsBits hl hb hd
  | storedHeader => exact fun h8 => fetchStoredHeader_of_holdsBits h8 hb hd
  | dynamicHeader => exact fetchDynamicHeader_of_holdsBits hl hb hd
  | litlenSymbol =>
    intro h1
    have hi := decodeLitlen_of_decode hd
    exact fetchLitlen_of_code ((if_pos h1).trans (decodeSymbol_fixedLitlen hl (lt_of_decodeLitlen hi) hb)) hi
  | distSymbol =>
    intro h1
    exact fetchDistance_of_code (distanceCode_of_holdsBits hl h1 hb (lt_of_decode hd)) (decodeDist_of_decode hd)
  | clenSymbol =>
    intro hm
    have hi := decodeClen_of_decode hd
    exact fetchCodeLength_of_code (hm ▸ decodeSymbol_metaTable hl (lt_of_decodeClen hi) hb) hi
  | hostWrite => exact decodeHostWrite_of_decode hd
  | hostRead => exact decodeHostRead_of_decode hd

/-- Settles O14: the row of a decoded symbol is the one whose word it is, whatever the table. -/
theorem dynamicCodesSelectTheirRows : Obligations.DynamicCodesSelectTheirRows := by
  unfold Obligations.DynamicCodesSelectTheirRows
  intro s sym c h2
  have h1 : s.btype ≠ 1 := by rw [h2]; decide
  refine ⟨fun hd i hf hs => ?_, fun hd i hf hs => ?_, fun hd i hf hs => ?_⟩ <;> subst hs
  · exact fetchLitlen_of_code ((if_neg h1).trans hd)
      (decodeLitlen_of_decode (decode_encode_stream hf (by decide) (by decide)))
  · exact fetchDistance_of_code ((if_neg h1).trans hd)
      (decodeDist_of_decode (decode_encode_stream hf (by decide) (by decide)))
  · exact fetchCodeLength_of_code hd (decodeClen_of_decode (decode_encode_stream hf (by decide) (by decide)))

/-- Settles O12: each word's bits are those of its row in the table (R123 to R139). -/
theorem tableWordsDecodeToTheirRows : Obligations.TableWordsDecodeToTheirRows := by
  unfold Obligations.TableWordsDecodeToTheirRows
  decide

end Sys2Proof.Machine
end

section
/-! Length symbols at a legal cursor, in the order of the rows of 47_length_distance.md R331. -/

namespace Sys2Proof.Machine

variable {s : State}

/-- A length symbol whose extra bits are there: the length is taken, and the distance comes next (R334 to R336). -/
theorem lengthSymbol_complete (hl : s.CursorLegal) {k : Nat} (hk : k ≤ 28)
    (hbits : s.cursor.consumed + lextra.getD k 0 ≤ 8 * s.inLen.toNat) (hdist : s.btype = 2 → s.distPresent = true) :
    lengthSymbol (257 + k) s =
      .next { s with cursor := cursorAt (s.cursor.consumed + lextra.getD k 0),
                     copyLen := lbase.getD k 0 + s.fieldAt s.cursor.consumed (lextra.getD k 0), expect := .distance } := by
  have htable : ¬(s.btype = 2 ∧ s.distPresent = false) := fun ⟨h2, hp⟩ => by simp [hdist h2] at hp
  have hlength := resolveLength_legal hl (257 + k)
  rw [Nat.add_sub_cancel_left, if_neg (by omega), if_pos hbits] at hlength
  unfold lengthSymbol
  rw [hlength]
  exact if_neg htable

/-- Settles O26: the row's values are those of the tables of R331, and the extra bits cannot reach beyond 258. -/
theorem lengthSymbolsGiveBasePlusExtra : Obligations.LengthSymbolsGiveBasePlusExtra := by
  unfold Obligations.LengthSymbolsGiveBasePlusExtra
  intro i base extra hi s hl hbits hdist
  obtain ⟨k, hk⟩ := List.mem_iff_getElem?.1 hi
  have hlt : k < 29 := (List.getElem?_eq_some_iff.1 hk).1
  obtain ⟨hexec, rfl, rfl⟩ := exec_lengthRow hk s
  rw [hexec]
  exact ⟨lengthSymbol_complete hl (by omega) hbits hdist, length_range k _ (by omega) (s.fieldAt_lt _ _)⟩

end Sys2Proof.Machine
end

section
/-! The operations of the bit cursor from any state or legal cursor, and the progress of a call (40_bit_cursor.md R170
to R177). -/

namespace Sys2Proof.Machine

variable {s : State} {n : Nat}

/-! ### `read_bits`, `peek_bits` and `skip_bits` -/

theorem readBits_tooWide (h : 32 < n) : readBits n s = .error .internalReadWidth := if_pos h

/-- The first bit of a field is its lowest (30_encoding.md R121). -/
theorem State.testBit_fieldAt (s : State) {k n i : Nat} (h : i < n) :
    (s.fieldAt k n).testBit i = s.streamBit (k + i) := by
  induction n generalizing k i with
  | zero => omega
  | succ n ih =>
    rw [State.fieldAt_succ]
    cases i with
    | zero => rw [Nat.add_zero]; cases s.streamBit k <;> simp [Nat.testBit_zero]
    | succ i =>
      have hbit := Bool.toNat_lt (s.streamBit k)
      rw [Nat.testBit_succ, show ((s.streamBit k).toNat + 2 * s.fieldAt (k + 1) n) / 2 = s.fieldAt (k + 1) n by omega,
        ih (by omega), show k + 1 + i = k + (i + 1) by omega]

/-- Settles O1: at a legal cursor a read is the field of the stream there. -/
theorem readBitsPacksEarliestBitLowest : Obligations.ReadBitsPacksEarliestBitLowest := by
  unfold Obligations.ReadBitsPacksEarliestBitLowest
  intro s n hl
  refine ⟨readBits_tooWide, fun hn hlt => ?_, fun hn hle => ?_⟩
  · rw [readBits_legal hl n hn, if_neg (by omega)]
  · rw [readBits_legal hl n hn, if_pos hle]
    exact ⟨_, rfl, s.fieldAt_lt _ _, fun i hi => s.testBit_fieldAt hi⟩

/-- Settles O2: both are one read, of which they keep the value or the cursor. -/
theorem peekAndSkipSplitARead : Obligations.PeekAndSkipSplitARead := by
  unfold Obligations.PeekAndSkipSplitARead
  intro s n
  rw [peekBits_eq, skipBits_eq]
  cases readBits n s with
  | error e =>
    refine ⟨nofun, ?_, nofun⟩
    rintro _ ⟨⟩
    exact ⟨rfl, rfl⟩
  | ok r =>
    refine ⟨?_, nofun, ?_⟩
    · rintro _ _ ⟨⟩
      exact ⟨rfl, rfl⟩
    · rintro _ ⟨⟩
      exact ⟨r.2, rfl, rfl⟩

/-! ### `read_bytes` and `skip_to_byte_boundary` -/

/-- Everything `read_bytes` can do at a byte boundary in the stream. -/
theorem readBytes_aligned (h8 : s.cursor.left = 8) (hp : s.cursor.pos.toNat ≤ s.inLen.toNat) (n : Nat) :
    readBytes n s =
      if s.cursor.pos.toNat + n ≤ s.inLen.toNat then
        .ok ((List.range n).map fun k => s.inByte (s.cursor.pos.toNat + k),
          { pos := BitVec.ofNat 32 (s.cursor.pos.toNat + n), left := 8 })
      else .error .endOfInput := by
  unfold readBytes
  rw [if_neg (not_not_intro h8)]
  by_cases hn : s.cursor.pos.toNat + n ≤ s.inLen.toNat
  · rw [if_neg (by omega), if_pos hn, BitVec.ofNat_add, BitVec.ofNat_toNat, BitVec.setWidth_eq, ← h8]
  · rw [if_pos (by omega), if_neg hn]

/-- Settles O3: at a byte boundary in the stream, whether `n` bytes are left decides. -/
theorem readBytesTakesWholeBytes : Obligations.ReadBytesTakesWholeBytes := by
  unfold Obligations.ReadBytesTakesWholeBytes
  intro s n
  refine ⟨fun h8 => if_pos h8, fun h8 hp hlt => ?_, fun h8 hle => ?_⟩
  · rw [readBytes_aligned h8 hp, if_neg (by omega)]
  · rw [readBytes_aligned h8 (by omega), if_pos hle]
    exact ⟨_, rfl, by simp, fun k hk => by simp [hk]⟩

/-- Inside a byte the cursor is not at the end of the stream (10_state.md R31). -/
theorem State.CursorLegal.pos_lt (h : s.CursorLegal) (h8 : s.cursor.left ≠ 8) :
    s.cursor.pos.toNat < s.inLen.toNat := by
  obtain ⟨-, -, hp, hend⟩ := h
  exact Nat.lt_of_le_of_ne hp fun e => h8 (hend (BitVec.eq_of_toNat_eq e))

theorem Cursor.align_of_aligned {c : Cursor} (h8 : c.left = 8) : c.align = c := if_pos h8

theorem Cursor.align_of_not_aligned {c : Cursor} (h8 : c.left ≠ 8) : c.align = { pos := c.pos + 1, left := 8 } :=
  if_neg h8

/-- Settles O4: inside a byte the byte is one of the stream, so the next byte does not begin beyond its end. -/
theorem alignmentGoesToTheNextByte : Obligations.AlignmentGoesToTheNextByte := by
  unfold Obligations.AlignmentGoesToTheNextByte
  intro s hl
  refine ⟨Cursor.align_of_aligned, fun h8 => ?_⟩
  have hlt := hl.pos_lt h8
  have hnext : (s.cursor.pos + 1).toNat = s.cursor.pos.toNat + 1 := by
    have := s.inLen.isLt
    exact BitVec.toNat_add_of_lt (show s.cursor.pos.toNat + 1 < 2 ^ 32 by omega)
  rw [Cursor.align_of_not_aligned h8]
  exact ⟨hnext, rfl, hnext.trans_le hlt⟩

/-! ### The cursor in a call -/

/-- The parser's place in the invariant is what a run shares with itself. -/
theorem State.ParserInv.sameElement (h : s.ParserInv) : SameElement s s := by
  have tables : SameTables s s := ⟨rfl, rfl, fun _ => rfl⟩
  unfold State.ParserInv at h
  unfold SameElement
  cases hx : s.expect <;> rw [hx] at h <;> dsimp only at h ⊢
  case storedHeader => exact h.2
  case dynamicHeader => exact h
  case codeLength => exact ⟨h.1, rfl, rfl, rfl, rfl⟩
  case litlen => exact h.imp_right fun h2 => ⟨h2, tables⟩
  case distance =>
    obtain ⟨hbt, -, -⟩ := h
    refine ⟨rfl, hbt.imp_right fun h2 => ⟨h2.1, tables⟩, fun h2 => ?_⟩
    rcases hbt with h1 | ⟨-, hp⟩
    · rw [h1] at h2; cases h2
    · exact hp

/-- In a running call the invariant gives what a run shares with itself. -/
theorem State.Inv.sound (h : s.Inv) (hq : s.hostQueue = []) (hb : s.busy = true) : s.Sound := by
  obtain ⟨hl, -, -, hparser⟩ := h.call hb
  obtain ⟨fits, -⟩ := h.output (.inl hb)
  have obs : SameObs s s := ⟨rfl, rfl, rfl, rfl, rfl, hq, hq⟩
  have stream : SameStream s s := ⟨hl, rfl, rfl, fun _ _ => rfl⟩
  refine ⟨obs, fun _ => { obs, stream with size := rfl, fits, output := fun _ _ => rfl }, ?_⟩
  unfold SameRegs
  cases hp : s.phase with
  | readType => rfl
  | decodeBlock =>
    exact { phase := hp, bfinal := rfl, btype := rfl, expect := rfl, element := (hparser hp).sameElement }
  | idle | readFinal | done | error => trivial

/-- Settles O53: the step consumes input, and the invariant it keeps holds the cursor in the stream. -/
theorem everyStepOfACallConsumesInput : Obligations.EveryStepOfACallConsumesInput := by
  unfold Obligations.EveryStepOfACallConsumesInput
  intro s t h hq hb ht hne
  rw [step_block hq] at ht
  obtain ⟨u, v, hu, -, halike, honward⟩ := blockStep_paired (h.sound hq hb) hb
  obtain rfl : u = t := Host.Outcome.next.inj (hu.symm.trans ht)
  obtain ⟨hlen, hcons, -⟩ := honward hne
  exact ⟨hcons, hlen ▸ (halike.call hne).legal.consumed_le⟩

end Sys2Proof.Machine
end

section
/-! Canonical Huffman tables (41_canonical_huffman.md R191 to R198): the entries the builder gives, one for each code and
length, the size of the codes, and the empty table. -/

namespace Sys2Proof.Machine

variable {lens : List Nat} {e : Entry}

/-! ### The first code of each length (R191 step 2) -/

theorem firstCode_succ (lens : List Nat) (L : Nat) :
    firstCode lens (L + 1) = (firstCode lens L + blCount lens L) * 2 :=
  Nat.mul_comm 2 _

theorem length_firstCodesFrom (lens : List Nat) (n L code : Nat) : (firstCodesFrom lens n L code).length = n := by
  induction n generalizing L code with
  | zero => rfl
  | succ n ih => exact congrArg (· + 1) (ih _ _)

@[simp] theorem length_firstCodes (lens : List Nat) : (firstCodes lens).length = 16 :=
  congrArg (· + 1) (length_firstCodesFrom lens 15 0 0)

/-- The builder's loop over the lengths computes the recursion of R191. -/
theorem getD_firstCodesFrom (lens : List Nat) {n i : Nat} (L : Nat) (h : i < n) :
    (firstCodesFrom lens n L (firstCode lens L)).getD i 0 = firstCode lens (L + i + 1) := by
  induction n generalizing L i with
  | zero => omega
  | succ n ih =>
    rw [firstCodesFrom, ← firstCode_succ]
    cases i with
    | zero => rfl
    | succ i => rw [List.getD_cons_succ, ih (L + 1) (by omega), show L + 1 + i = L + (i + 1) by omega]

theorem getD_firstCodes (lens : List Nat) {L : Nat} (h : L ≤ 15) : (firstCodes lens).getD L 0 = firstCode lens L := by
  cases L with
  | zero => rfl
  | succ i => exact (getD_firstCodesFrom lens (n := 15) 0 h).trans (by rw [Nat.zero_add])

/-- The bound of R194: code(L) ≤ (2^L − 2) · N. -/
theorem firstCode_succ_le (lens : List Nat) (L : Nat) :
    firstCode lens (L + 1) + 2 * lens.length ≤ 2 ^ (L + 1) * lens.length := by
  induction L with
  | zero => exact Nat.le_of_eq (Nat.zero_add _)
  | succ L ih =>
    have hcount : blCount lens (L + 1) ≤ lens.length := List.count_le_length
    rw [firstCode_succ, Nat.pow_succ', Nat.mul_assoc]
    omega

/-! ### The codes of one length, in symbol order (R191 step 3) -/

/-- A symbol of length `L` counts for every later symbol. -/
theorem count_take_lt_count_take {i j L : Nat} (h : lens[i]? = some L) (hij : i < j) :
    (lens.take i).count L < (lens.take j).count L := by
  have hnext : (lens.take (i + 1)).count L = (lens.take i).count L + 1 := by
    rw [List.take_add_one, h, Option.toList_some, List.count_append, List.count_singleton_self]
  have hmono : (lens.take (i + 1)).count L ≤ (lens.take j).count L :=
    (List.take_sublist_take_left hij).count_le L
  omega

/-- The counter of length `L` after a symbol has taken its code. -/
theorem getD_set_getD_add_one {next : List Nat} {L : Nat} (h : L < next.length) (M : Nat) :
    (next.set L (next.getD L 0 + 1)).getD M 0 = next.getD M 0 + [L].count M := by
  rw [List.getD_eq_getElem?_getD, List.getElem?_set, List.count_singleton]
  by_cases hM : L = M
  · subst hM; simp [h]
  · simp [hM]

/-- Step 3 gives the symbol at place `k` the next code of its length after those of the earlier places. -/
theorem mem_assign_iff {next : List Nat} {sym : Nat} (h : ∀ L ∈ lens, L < next.length) :
    e ∈ assign next sym lens ↔
      ∃ k, e.sym = sym + k ∧ lens[k]? = some e.len ∧ e.len ≠ 0 ∧
        e.code = next.getD e.len 0 + (lens.take k).count e.len := by
  induction lens generalizing next sym with
  | nil => simp [assign]
  | cons L lens ih =>
    rw [List.forall_mem_cons] at h
    obtain ⟨hL, hlens⟩ := h
    have later {next' : List Nat} (hlen : next'.length = next.length)
        (hnext : ∀ M ≠ 0, next'.getD M 0 = next.getD M 0 + [L].count M) :
        e ∈ assign next' (sym + 1) lens ↔
          ∃ k, e.sym = sym + (k + 1) ∧ (L :: lens)[k + 1]? = some e.len ∧ e.len ≠ 0 ∧
            e.code = next.getD e.len 0 + ((L :: lens).take (k + 1)).count e.len := by
      rw [ih (hlen ▸ hlens)]
      refine exists_congr fun k => ?_
      rw [Nat.add_right_comm, Nat.add_assoc, List.getElem?_cons_succ, List.take_succ_cons]
      refine and_congr_right fun _ => and_congr_right fun _ => and_congr_right fun h0 => ?_
      have hcount : (L :: lens.take k).count e.len = [L].count e.len + (lens.take k).count e.len :=
        List.count_append (l₁ := [L])
      rw [hnext _ h0, hcount, Nat.add_assoc]
    rw [assign, ← Nat.or_exists_add_one]
    split
    · rename_i h0
      rw [later rfl fun M hM => by rw [List.count_singleton, h0, beq_false_of_ne hM.symm]; rfl]
      refine (or_iff_right ?_).symm
      rintro ⟨-, hlen, hne, -⟩
      exact hne ((Option.some.inj hlen).symm.trans h0)
    · rename_i h0
      rw [List.mem_cons, later (List.length_set) fun M _ => getD_set_getD_add_one hL M]
      refine or_congr_left ?_
      obtain ⟨code, len, sym'⟩ := e
      constructor
      · rintro ⟨⟩
        exact ⟨rfl, rfl, h0, rfl⟩
      · rintro ⟨hsym, hlen, -, hcode⟩
        dsimp only at hsym hlen hcode
        obtain rfl := Option.some.inj hlen
        rw [hsym, hcode]
        rfl

/-- Settles O5: the counter of a length starts at its first code. -/
theorem buildAssignsCanonicalCodes : Obligations.BuildAssignsCanonicalCodes := by
  unfold Obligations.BuildAssignsCanonicalCodes
  intro lens h15 e
  rw [build, mem_assign_iff fun L hL => by rw [length_firstCodes]; exact Nat.lt_succ_of_le (h15 L hL)]
  simp only [Nat.zero_add, exists_eq_left']
  refine and_congr_right fun hlen => and_congr_right fun _ => ?_
  rw [getD_firstCodes lens (h15 _ (List.mem_of_getElem? hlen))]

/-! ### One entry for a code and length (R195) -/

/-- Of two symbols of one length the later has the higher code. -/
theorem build_code_injective (h15 : ∀ L ∈ lens, L ≤ 15) {code len a b : Nat}
    (ha : (⟨code, len, a⟩ : Entry) ∈ build lens) (hb : (⟨code, len, b⟩ : Entry) ∈ build lens) : a = b := by
  obtain ⟨hlenA, -, hcodeA⟩ := (buildAssignsCanonicalCodes lens h15 _).1 ha
  obtain ⟨hlenB, -, hcodeB⟩ := (buildAssignsCanonicalCodes lens h15 _).1 hb
  dsimp only at hlenA hcodeA hlenB hcodeB
  rcases Nat.lt_trichotomy a b with hab | hab | hab
  · have := count_take_lt_count_take hlenA hab
    omega
  · exact hab
  · have := count_take_lt_count_take hlenB hab
    omega

/-- Settles O6: the code is found, and what is found stands in the table. -/
theorem lookupIsAFunctionOfTheTable : Obligations.LookupIsAFunctionOfTheTable := by
  unfold Obligations.LookupIsAFunctionOfTheTable
  intro lens h15 code len sym
  refine ⟨lookup_some, fun h => ?_⟩
  obtain ⟨sym', hfound⟩ := Option.ne_none_iff_exists'.1 (lookup_ne_none h)
  rw [hfound, build_code_injective h15 (lookup_some hfound) h]

/-! ### The size of the codes (R194) -/

theorem revBits_lt (L v : Nat) : revBits L v < 2 ^ L := by
  induction L generalizing v with
  | zero => exact Nat.one_pos
  | succ L ih =>
    have hrest := ih (v / 2)
    have hbit : v % 2 * 2 ^ L ≤ 1 * 2 ^ L := Nat.mul_le_mul_right _ (by omega)
    rw [revBits, Nat.pow_succ]
    omega

theorem build_code_le (h15 : ∀ L ∈ lens, L ≤ 15) (he : e ∈ build lens) : e.code ≤ 2 ^ e.len * lens.length := by
  obtain ⟨-, hne, hcode⟩ := (buildAssignsCanonicalCodes lens h15 e).1 he
  obtain ⟨L, hL⟩ := Nat.exists_eq_add_one_of_ne_zero hne
  have hfirst := firstCode_succ_le lens L
  have hearlier : (lens.take e.sym).count e.len ≤ lens.length :=
    (List.take_sublist _ _).count_le _ |>.trans List.count_le_length
  rw [← hL] at hfirst
  omega

/-- Settles O7: 288 symbols of at most 15 bits stay below 288 · 2^15, and a bit reversal fits its length. -/
theorem codeValuesStayBelowTwoPow24 : Obligations.CodeValuesStayBelowTwoPow24 := by
  unfold Obligations.CodeValuesStayBelowTwoPow24
  intro lens hn h15 e he
  obtain ⟨-, hsym, hne⟩ := mem_build he
  have hlen : e.len ≤ 15 := h15 _ (List.mem_of_getElem? hsym)
  refine ⟨?_, fun hbig v hv => ?_⟩
  · calc e.code ≤ 2 ^ e.len * lens.length := build_code_le h15 he
      _ ≤ 2 ^ 15 * 288 := Nat.mul_le_mul (Nat.pow_le_pow_right (by omega) hlen) hn
      _ < 2 ^ 24 := by decide
  · rw [bitrev_legal (by omega) hlen] at hv
    have hfits := revBits_lt e.len v
    rw [Except.ok.inj hv] at hfits
    omega

/-! ### The empty table (R198) -/

theorem build_eq_nil (h : ∀ L ∈ lens, L = 0) : build lens = [] := by
  refine List.eq_nil_iff_forall_not_mem.2 fun e he => ?_
  obtain ⟨-, hlen, hne⟩ := mem_build he
  exact hne (h _ (List.mem_of_getElem? hlen))

/-- From the empty table every length `L`, …, `L + n` is tried, so the last decides whether the input is enough. -/
theorem decodeSymbolFrom_nil {s : State} (h : s.CursorLegal) {n L : Nat} (h1 : 1 ≤ L) (h15 : L + n ≤ 15) :
    decodeSymbolFrom [] s (n + 1) L =
      if s.cursor.consumed + (L + n) ≤ 8 * s.inLen.toNat then .error .noMatchingCode else .error .endOfInput := by
  induction n generalizing L with
  | zero => exact decodeSymbolFrom_succ [] h 0 L h1 h15
  | succ n ih =>
    rw [decodeSymbolFrom_succ [] h (n + 1) L h1 (by omega), lookup, ih (by omega) (by omega),
      show L + 1 + n = L + (n + 1) by omega]
    split
    · rfl
    · rw [if_neg (by omega)]

/-- Settles O8: the table has no entry, and its decoder runs through all lengths tried. -/
theorem emptyTableDecodesNothing : Obligations.EmptyTableDecodesNothing := by
  unfold Obligations.EmptyTableDecodesNothing
  intro lens h0
  rw [build_eq_nil h0]
  refine ⟨rfl, fun s lmin lmax hl h1 hle h15 => ?_⟩
  rw [decodeSymbol, show lmax + 1 - lmin = lmax - lmin + 1 by omega, decodeSymbolFrom_nil hl h1 (by omega),
    show lmin + (lmax - lmin) = lmax by omega]

end Sys2Proof.Machine
end

section
/-! The symbol decoder (42_symbol_decoder.md R211 to R213): the codes it looks up in the stream, when it answers and when it
fails, and the completeness of the fixed table. -/

namespace Sys2Proof.Machine

variable {s : State} {t : Table}

/-! ### Codes in the stream -/

/-- The code looked up is the peeked field, bit-reversed (00_scope.md R13). -/
theorem State.revBits_fieldAt (s : State) (k n : Nat) : revBits n (s.fieldAt k n) = s.codeAt k n := by
  have h := revBits_bitsValue ((List.range n).map fun i => s.streamBit (k + i))
  rwa [List.length_map, List.length_range] at h

/-- Of two codes in a row the first makes the high bits. -/
theorem State.codeAt_add (s : State) (k m n : Nat) :
    s.codeAt k (m + n) = s.codeAt (k + m) n + 2 ^ n * s.codeAt k m := by
  rw [State.codeAt, List.range_add, List.map_append, List.reverse_append, bitsValue_append, List.map_map,
    List.length_reverse, List.length_map, List.length_range]
  simp only [State.codeAt, Function.comp_def, Nat.add_assoc]

theorem State.codeAt_lt (s : State) (k n : Nat) : s.codeAt k n < 2 ^ n :=
  s.revBits_fieldAt k n ▸ revBits_lt n (s.fieldAt k n)

/-- The first `m` bits of a code are its `m` high bits. -/
theorem State.codeAt_add_div (s : State) (k m n : Nat) : s.codeAt k (m + n) / 2 ^ n = s.codeAt k m := by
  rw [s.codeAt_add, Nat.add_mul_div_left _ _ (by positivity), Nat.div_eq_of_lt (s.codeAt_lt _ _), Nat.zero_add]

/-! ### When no length matches (R212) -/

theorem decodeSymbolFrom_noMatchingCode_iff (h : s.CursorLegal) {n L : Nat} (h1 : 1 ≤ L) (h15 : L + n ≤ 16) :
    decodeSymbolFrom t s n L = .error .noMatchingCode ↔
      ∀ i < n, s.cursor.consumed + (L + i) ≤ 8 * s.inLen.toNat ∧
        lookup t (s.codeAt s.cursor.consumed (L + i)) (L + i) = none := by
  induction n generalizing L with
  | zero => exact iff_of_true rfl nofun
  | succ n ih =>
    have hrest := ih (L := L + 1) (by omega) (by omega)
    simp only [Nat.add_assoc L 1, Nat.add_comm 1] at hrest
    rw [Nat.forall_lt_succ_left, ← hrest, decodeSymbolFrom_succ t h n L h1 (by omega), s.revBits_fieldAt, Nat.add_zero]
    by_cases hk : s.cursor.consumed + L ≤ 8 * s.inLen.toNat
    · cases lookup t (s.codeAt s.cursor.consumed L) L <;> simp [hk]
    · simp [hk]

/-- The symbol decoder finds no code exactly if every length is tried and none matches. -/
theorem decodeSymbol_noMatchingCode_iff (h : s.CursorLegal) {lmin lmax : Nat} (h1 : 1 ≤ lmin) (h15 : lmax ≤ 15) :
    decodeSymbol t lmin lmax s = .error .noMatchingCode ↔
      ∀ L, lmin ≤ L → L ≤ lmax →
        s.cursor.consumed + L ≤ 8 * s.inLen.toNat ∧ lookup t (s.codeAt s.cursor.consumed L) L = none := by
  rcases Nat.lt_or_ge lmax lmin with hlt | hle
  · rw [decodeSymbol, show lmax + 1 - lmin = 0 by omega]
    exact iff_of_true rfl fun L _ _ => by omega
  rw [decodeSymbol, decodeSymbolFrom_noMatchingCode_iff h h1 (by omega)]
  refine ⟨fun hall L hmin hmax => ?_, fun hall i hi => hall (lmin + i) (by omega) (by omega)⟩
  obtain ⟨i, rfl⟩ := Nat.exists_eq_add_of_le hmin
  exact hall i (by omega)

/-! ### The shortest matching code (R211) -/

/-- The input ends at a length before which none matches. -/
theorem decodeSymbol_endOfInput (h : s.CursorLegal) {lmin lmax L : Nat} (h1 : 1 ≤ lmin) (h15 : lmax ≤ 15)
    (hmin : lmin ≤ L) (hmax : L ≤ lmax) (hend : 8 * s.inLen.toNat < s.cursor.consumed + L)
    (hnone : ∀ M, lmin ≤ M → M < L → lookup t (s.codeAt s.cursor.consumed M) M = none) :
    decodeSymbol t lmin lmax s = .error .endOfInput := by
  cases hr : decodeSymbol t lmin lmax s with
  | ok r =>
    obtain ⟨k, hk, -, hle, -, hfound⟩ := decodeSymbol_ok h h1 h15 hr
    rw [s.revBits_fieldAt, hnone k hk (by omega)] at hfound
    cases hfound
  | error e =>
    rcases decodeSymbol_error h h1 h15 hr with rfl | rfl
    · rfl
    · obtain ⟨hle, -⟩ := (decodeSymbol_noMatchingCode_iff h h1 h15).1 hr L hmin hmax
      omega

/-- Settles O10: the lengths are tried in turn, each with the code the next bits spell. -/
theorem decodeTakesTheShortestMatchingCode : Obligations.DecodeTakesTheShortestMatchingCode := by
  unfold Obligations.DecodeTakesTheShortestMatchingCode
  intro t lmin lmax s h h1 h15
  refine ⟨fun L sym hmin hmax hk hfound hnone => ?_,
    fun L hmin hmax hend hnone => decodeSymbol_endOfInput h h1 h15 hmin hmax hend hnone,
    (decodeSymbol_noMatchingCode_iff h h1 h15).2⟩
  refine decodeSymbolFrom_shortest h h1 (by omega) hmin (by omega) hk ?_ fun M hM hlt => ?_
  · rw [s.revBits_fieldAt, hfound]
  · rw [s.revBits_fieldAt, hnone M hM hlt]

/-! ### The fixed table is complete (R213) -/

/-- Every nine bits begin with a fixed code: the ranges of R136 leave no gap. -/
theorem fixedLitlen_complete {c : Nat} (hc : c < 2 ^ 9) :
    ∃ j ≤ 2, lookup fixedLitlen (c / 2 ^ j) (9 - j) ≠ none := by
  obtain ⟨-, h8, h9, h7, h8', -⟩ := fixedCodesAreTheListedOnes
  have found {code code' len sym : Nat} (h : lookup fixedLitlen code len = some sym) (heq : code' = code) :
      lookup fixedLitlen code' len ≠ none := by
    rw [heq, h]
    exact Option.some_ne_none sym
  rcases Nat.lt_or_ge c 0x60 with hlt | h60
  · exact ⟨2, by omega, found (h7 (c / 4) (by omega)) (by omega)⟩
  rcases Nat.lt_or_ge c 0x180 with hlt | h180
  · exact ⟨1, by omega, found (h8 (c / 2 - 0x30) (by omega)) (by omega)⟩
  rcases Nat.lt_or_ge c 0x190 with hlt | h190
  · exact ⟨1, by omega, found (h8' (c / 2 - 0xC0) (by omega)) (by omega)⟩
  · exact ⟨0, by omega, found (h9 (c - 0x190) (by omega)) (by omega)⟩

/-- Settles O11: with nine bits left one of their beginnings is a code, and a symbol found is one of the table. -/
theorem fixedTableAlwaysYieldsASymbol : Obligations.FixedTableAlwaysYieldsASymbol := by
  unfold Obligations.FixedTableAlwaysYieldsASymbol
  intro s h
  cases hr : decodeSymbol fixedLitlen 7 9 s with
  | ok r =>
    obtain ⟨sym, c⟩ := r
    obtain ⟨L, hmin, hmax, -, rfl, hfound⟩ := decodeSymbol_ok h (by omega) (by omega) hr
    exact .inl ⟨sym, L, ((lookup_fixedLitlen_iff _ _ _).1 hfound).1, hmin, hmax, rfl⟩
  | error e =>
    rcases decodeSymbol_error h (by omega) (by omega) hr with rfl | rfl
    · exact .inr rfl
    · obtain ⟨j, hj, hfound⟩ := fixedLitlen_complete (s.codeAt_lt s.cursor.consumed 9)
      have hcode := s.codeAt_add_div s.cursor.consumed (9 - j) j
      rw [Nat.sub_add_cancel (by omega)] at hcode
      rw [hcode] at hfound
      exact absurd ((decodeSymbol_noMatchingCode_iff h (by omega) (by omega)).1 hr (9 - j) (by omega) (by omega)).2 hfound

end Sys2Proof.Machine
end

section
/-! The dispatcher (43_block_dispatcher.md): the agent that moves, and the bits it reads before the block header. -/

namespace Sys2Proof.Machine

variable {s : State}

/-! ### The step of each phase of a call -/

theorem step_readFinal (hq : s.hostQueue = []) (hp : s.phase = .readFinal) : step s = readFinalStep s := by
  rw [step_block hq, blockStep, hp]

theorem step_readType (hq : s.hostQueue = []) (hp : s.phase = .readType) :
    step s = runFetched (fetchBlockHeader s) s := by
  rw [step_block hq, blockStep, hp]

theorem step_decodeBlock (hq : s.hostQueue = []) (hp : s.phase = .decodeBlock) :
    step s = runFetched (fetchElement s) s := by
  rw [step_block hq, blockStep, hp]

/-- Settles O15: each clause is the choice of the agent and what that agent runs. -/
theorem stepRunsTheDecodedInstruction : Obligations.StepRunsTheDecodedInstruction := by
  unfold Obligations.StepRunsTheDecodedInstruction
  refine ⟨fun s i c hq => ⟨fun hp hf => ?_, fun hp hf => ?_⟩,
    fun s i a wait rest hq hw hword => ⟨fun hwr hd => ?_, fun hwr hd => ?_⟩, fun s a wait rest hq hb => ?_⟩
  · rw [step_readType hq hp, hf]
    rfl
  · rw [step_decodeBlock hq hp, hf]
    rfl
  · rw [step_host_now hq hw]
    exact hostAccess_write hword hwr hd _
  · rw [step_host_now hq hw]
    exact hostAccess_read hword hwr hd _
  · exact step_host_later hq hb (Nat.succ_ne_zero wait)

/-! ### READ_FINAL and READ_TYPE -/

/-- Entry into the error state, from a state with the host's side of `s` (60_exceptions.md R403). -/
theorem raise_failsWith {u : State} {c : Cause} (hc : c.kind ≠ .internalBug) (h : HostKept s u) :
    failsWith (raise c u) c.kind.code c.code s :=
  ⟨_, raise_next hc u, rfl, rfl, rfl, h.inMem, h.inDraw, h.inLen, h.params, h.hostQueue, h.hostWord, h.hostByte⟩

/-- Settles O17: the field of one bit is that bit. -/
theorem readFinalReadsTheFlag : Obligations.ReadFinalReadsTheFlag := by
  unfold Obligations.ReadFinalReadsTheFlag
  intro s hl hq hp
  have hread := readBits_legal hl 1 (by decide)
  rw [step_readFinal hq hp, readFinalStep]
  refine ⟨fun hlt => ?_, fun hend => ?_⟩
  · rw [hread, if_pos (Nat.succ_le_of_lt hlt)]
    simp only [s.testBit_fieldAt (Nat.zero_lt_one), Nat.add_zero]
    rfl
  · rw [hread, if_neg (by omega)]
    exact raise_failsWith (by decide) (.refl s)

/-- The row of the two bits of BTYPE, the first read being bit 0 (R232). -/
theorem decodeBlockHeader_fieldAt (s : State) (f : Bool) (k : Nat) :
    decodeBlockHeader f (BitVec.ofNat 2 (s.fieldAt k 2)) =
      match s.streamBit (k + 1), s.streamBit k with
      | false, false => .blkStored f
      | false, true => .blkFixed f
      | true, false => .blkDynamic f
      | true, true => .blkReserved f := by
  rw [s.fieldAt_succ, s.fieldAt_succ, s.fieldAt_zero]
  cases s.streamBit (k + 1) <;> cases s.streamBit k <;> rfl

/-- Settles O18: the type read is the field of two bits. -/
theorem readTypeSelectsTheBlockHeader : Obligations.ReadTypeSelectsTheBlockHeader := by
  unfold Obligations.ReadTypeSelectsTheBlockHeader
  intro s hl hq hp
  have hread := readBits_legal hl 2 (by decide)
  rw [step_readType hq hp, fetchBlockHeader]
  refine ⟨fun hlt => ?_, fun hle => ?_⟩
  · rw [hread, if_neg (Nat.not_le.2 hlt)]
    exact raise_failsWith (by decide) (.refl s)
  · rw [hread, if_pos hle]
    exact congrArg (exec · (s.setCursor (cursorAt (s.cursor.consumed + 2)))) (decodeBlockHeader_fieldAt s s.bfinal _)

/-- Settles O19: the headers write four registers, and BLK_RESERVED fails after it. -/
theorem blockHeadersBeginTheirBlocks : Obligations.BlockHeadersBeginTheirBlocks := by
  unfold Obligations.BlockHeadersBeginTheirBlocks
  intro f s
  have hreserved : HostKept s (s.enterBlock f 3 .storedHeader) := { HostKept.refl s with }
  exact ⟨rfl, rfl, rfl, raise_failsWith (c := .reservedBtype) (by decide) hreserved⟩

/-! ### The host's step -/

/-- The phase, the recorded error, the output length and the cursor are those of `s`. -/
structure ResultKept (s t : State) : Prop where
  phase : t.phase = s.phase
  errKind : t.errKind = s.errKind
  errCause : t.errCause = s.errCause
  outLen : t.outLen = s.outLen
  cursor : t.cursor = s.cursor

theorem ResultKept.refl (s : State) : ResultKept s s := ⟨rfl, rfl, rfl, rfl, rfl⟩

/-- The phases a START leads to outside a call: READ_FINAL, or ERROR when it is rejected (49_host_interface.md R381). -/
def Starts (s t : State) : Prop := s.busy = false ∧ (t.phase = .readFinal ∨ t.phase = .error)

variable {t : State}

/-- Everything a write of CTRL can do (R381, R382). -/
theorem execHostStart_next {x : Word} (ht : execHostStart x s = .next t) :
    ResultKept s t ∨ x.getLsbD 0 = true ∧ Starts s t := by
  unfold execHostStart at ht
  split at ht
  · cases ht
    exact .inl (.refl s)
  rename_i hx
  split at ht
  · cases ht
    exact .inl (.refl s)
  rename_i hb
  refine .inr ⟨Bool.eq_true_of_not_eq_false hx, Bool.eq_false_of_not_eq_true hb, ?_⟩
  split at ht
  · obtain ⟨-, rfl⟩ := raise_eq_next ht
    exact .inr rfl
  · cases ht
    exact .inl rfl

theorem execHostWriteInLen_next {x : Word} (ht : execHostWriteInLen x s = .next t) : ResultKept s t := by
  unfold execHostWriteInLen at ht
  split at ht <;> cases ht <;> exact { ResultKept.refl s with }

theorem decodeHostWrite_hostStart {o : BitVec 8} {x y : Word} (h : decodeHostWrite o x = .ok (.hostStart y)) :
    o = 0 := by
  unfold decodeHostWrite at h
  split_ifs at h with _ h0
  · exact h0
  · cases h
  · cases h

/-- Everything a register access can do (R390): a write of bit 0 = 1 to CTRL is a START. -/
theorem hostAccess_next {a : RegAccess} (ht : hostAccess a s = .next t) :
    ResultKept s t ∨ (HostAction.reg a).isStart = true ∧ Starts s t := by
  unfold hostAccess at ht
  split at ht
  · cases ht
  rename_i hword
  split at ht
  · rename_i i hd
    split at hd
    · rename_i hwr
      rcases decodeHostWrite_ok hd with rfl | rfl | rfl
      · have ho := decodeHostWrite_hostStart hd
        refine (execHostStart_next ht).imp_right fun ⟨hx, hs⟩ => ⟨?_, hs⟩
        simp only [HostAction.isStart, hwr, ho, hx, Decidable.not_not.1 hword]
        rfl
      · exact .inl (execHostWriteInLen_next ht)
      · cases ht
        exact .inl (.refl s)
    · obtain ⟨w, he | he⟩ := exec_of_decodeHostRead hd s
      · cases he.symm.trans ht
        exact .inl { ResultKept.refl s with }
      · cases he.symm.trans ht
        exact .inl { ResultKept.refl s with }
  · cases ht
    exact .inl { ResultKept.refl s with }
  · cases ht

/-- Everything a step of the host can do to the phase and the result of a call. -/
theorem hostStep_next {a : HostAction} (ht : hostStep a s = .next t) :
    ResultKept s t ∨ a.isStart = true ∧ Starts s t ∨ a = .reset ∧ t.phase = .idle := by
  cases a with
  | reg a => exact (hostAccess_next ht).imp_right .inl
  | reset => cases ht; exact .inr (.inr ⟨rfl, rfl⟩)
  | writeIn addr b | readIn addr | writeOut addr b | readOut addr =>
    simp only [hostStep, hostWriteIn, hostReadIn, hostWriteOut, hostReadOut] at ht
    split_ifs at ht <;> cases ht <;> exact .inl { ResultKept.refl s with }

/-- Settles O45: what is no START and no reset keeps the result, and the block by itself waits. -/
theorem outsideACallOnlyStartAndResetAct : Obligations.OutsideACallOnlyStartAndResetAct := by
  unfold Obligations.OutsideACallOnlyStartAndResetAct
  intro s hb
  refine ⟨fun hq => by rw [step_block hq, blockStep_idle hb], fun a t hreset hstart ht => ?_⟩
  obtain hk | ⟨hs, -⟩ | ⟨hr, -⟩ := hostStep_next ht
  · exact ⟨hk.phase, hk.errKind, hk.errCause, hk.outLen, hk.cursor⟩
  · rw [hstart] at hs
    cases hs
  · exact absurd hr hreset

end Sys2Proof.Machine
end

section
/-! What each meaning of an element does with the phase and the output length, from any state, and the phase transitions
(43_block_dispatcher.md R235). -/

namespace Sys2Proof.Machine

/-! ### The output buffer -/

/-- `t` is `s` but for the output, which is at most `n` bytes longer. -/
def Longer (n : Nat) (s t : State) : Prop :=
  ∃ m k, k.toNat ≤ s.outLen.toNat + n ∧ t = { s with outMem := m, outLen := k }

theorem Longer.refl (s : State) : Longer 0 s s := ⟨_, _, Nat.le_refl _, rfl⟩

theorem Longer.trans {m n : Nat} {s t u : State} (h : Longer m s t) (k : Longer n t u) : Longer (m + n) s u := by
  obtain ⟨x, a, ha, rfl⟩ := h
  obtain ⟨y, b, hb, rfl⟩ := k
  exact ⟨y, b, by dsimp only at hb; omega, rfl⟩

theorem append_longer {v : Byte} {s t : State} (h : append v s = .ok t) : Longer 1 s t := by
  obtain ⟨-, rfl⟩ := append_ok h
  refine ⟨_, _, ?_, rfl⟩
  rw [BitVec.toNat_add]
  exact Nat.mod_le ..

theorem appendAll_longer {vs : List Byte} {s t : State} (h : appendAll vs s = .ok t) : Longer vs.length s t := by
  induction vs generalizing s with
  | nil => cases h; exact .refl _
  | cons v vs ih =>
    unfold appendAll at h
    cases ha : append v s with
    | error c => rw [ha] at h; cases h
    | ok u =>
      rw [ha] at h
      rw [List.length_cons, Nat.add_comm]
      exact (append_longer ha).trans (ih h)

theorem lz77Copy_longer {n d : Nat} {s t : State} (h : lz77Copy n d s = .ok t) : Longer n s t := by
  induction n generalizing s with
  | zero => cases h; exact .refl _
  | succ n ih =>
    unfold lz77Copy at h
    cases ha : append (s.outByte (s.outLen.toNat - d)) s with
    | error c => rw [ha] at h; cases h
    | ok u =>
      rw [ha] at h
      rw [Nat.add_comm]
      exact (append_longer ha).trans (ih h)

/-! ### Phase and output length after an element -/

/-- A next state is in ERROR with the output of `s`, or it is in the block of `s` or at the block's end (R234), with at
most `n` bytes more. -/
def Grows (n : Nat) (s : State) (o : Out) : Prop :=
  ∀ t, o = .next t → t.phase = .error ∧ t.outLen = s.outLen ∨
    (t.phase = s.phase ∨ t.phase = s.endBlock.phase) ∧ t.outLen.toNat ≤ s.outLen.toNat + n

variable {n : Nat} {s : State}

theorem raise_grows {u : State} (h : u.outLen = s.outLen) (c : Cause) : Grows n s (raise c u) := by
  intro t ht
  obtain ⟨-, rfl⟩ := raise_eq_next ht
  exact .inl ⟨rfl, h⟩

theorem next_grows {t : State} (hp : t.phase = s.phase) (ho : t.outLen = s.outLen) : Grows 0 s (.next t) := by
  rintro _ ⟨⟩
  exact .inr ⟨.inl hp, ho ▸ Nat.le_refl _⟩

/-- A meaning that runs after updates of other registers. -/
theorem Grows.after {u : State} {o : Out} (h : Grows n u o) (hp : u.phase = s.phase) (hb : u.bfinal = s.bfinal)
    (ho : u.outLen = s.outLen) : Grows n s o := by
  intro t ht
  have := h t ht
  rwa [State.endBlock_phase, hp, hb, ho, ← State.endBlock_phase] at this

theorem Grows.setCursor {c : Cursor} {o : Out} (h : Grows n (s.setCursor c) o) : Grows n s o := h.after rfl rfl rfl

theorem grows_ite {p : Prop} [Decidable p] {a b : Out} (ha : Grows n s a) (hb : Grows n s b) :
    Grows n s (if p then a else b) := by
  split
  · exact ha
  · exact hb

/-! ### The meanings -/

/-- Whole bytes read are eight bits each (40_bit_cursor.md R175). -/
theorem readBytes_consumed {bs : List Byte} {c : Cursor} (hl : s.CursorLegal) (hr : readBytes n s = .ok (bs, c)) :
    c.consumed = s.cursor.consumed + 8 * n := by
  obtain ⟨h8, hn, -, rfl⟩ := readBytes_ok hr
  have hp := hl.2.2.1
  have hlt := s.inLen.isLt
  have hcons : s.cursor.consumed = 8 * s.cursor.pos.toNat := by simp [Cursor.consumed, h8]
  rw [Cursor.skipBytes_eq h8 (by omega), consumed_cursorAt (by omega)]

/-- Everything HDR_STORED can do (44_stored_block.md R250 to R254): at a legal cursor the bytes appended are bytes
read. -/
theorem execHdrStored_next {t : State} {len nlen : BitVec 16} (ht : execHdrStored len nlen s = .next t) :
    t.phase = .error ∧ t.outLen = s.outLen ∨
      ∃ c u, Longer len.toNat ((s.setStoredHeader len nlen).setCursor c) u ∧ t = u.endBlock ∧
        (s.CursorLegal → s.cursor.consumed + 8 * len.toNat ≤ c.consumed) := by
  have failed {c : Cause} (h : raise c (s.setStoredHeader len nlen) = .next t) :
      t.phase = .error ∧ t.outLen = s.outLen := by
    obtain ⟨-, rfl⟩ := raise_eq_next h
    exact ⟨rfl, rfl⟩
  unfold execHdrStored at ht
  dsimp only at ht
  split at ht
  · exact .inl (failed ht)
  split at ht
  · rename_i h0
    cases ht
    subst h0
    exact .inr ⟨s.cursor, _, .refl _, rfl, fun _ => Nat.le_refl _⟩
  split at ht
  · exact .inl (failed ht)
  rename_i data c hr
  split at ht
  · exact .inl (failed ht)
  rename_i u ha
  cases ht
  obtain ⟨-, -, hdata, -⟩ := readBytes_ok hr
  have hlen : data.length = len.toNat := by rw [hdata, List.length_map, List.length_range]
  exact .inr ⟨c, u, hlen ▸ appendAll_longer ha, rfl, fun hl => (readBytes_consumed hl hr).ge⟩

theorem execHdrStored_grows (len nlen : BitVec 16) : Grows len.toNat s (execHdrStored len nlen s) := by
  intro t ht
  obtain h | ⟨c, u, ⟨m, k, hk, rfl⟩, rfl, -⟩ := execHdrStored_next ht
  · exact .inl h
  · exact .inr ⟨.inr rfl, hk⟩

theorem execHdrDynamic_grows (a b : BitVec 5) (d : BitVec 4) : Grows 0 s (execHdrDynamic a b d s) := by
  unfold execHdrDynamic
  refine grows_ite (raise_grows rfl _) (grows_ite (raise_grows rfl _) ?_)
  split
  · exact raise_grows rfl _
  · exact next_grows rfl rfl

theorem execLit_next {t : State} {b : Byte} (ht : execLit b s = .next t) :
    t.phase = .error ∧ t.outLen = s.outLen ∨ Longer 1 s t := by
  unfold execLit at ht
  split at ht
  · obtain ⟨-, rfl⟩ := raise_eq_next ht
    exact .inl ⟨rfl, rfl⟩
  · rename_i ha
    cases ht
    exact .inr (append_longer ha)

theorem execLit_grows (b : Byte) : Grows 1 s (execLit b s) := by
  intro t ht
  obtain h | ⟨m, k, hk, rfl⟩ := execLit_next ht
  · exact .inl h
  · exact .inr ⟨.inl rfl, hk⟩

theorem execEob_grows : Grows 0 s (execEob s) := by
  rintro _ ⟨⟩
  exact .inr ⟨.inr rfl, Nat.le_refl _⟩

theorem lengthSymbol_grows (sym : Nat) : Grows 0 s (lengthSymbol sym s) := by
  unfold lengthSymbol
  split
  · exact raise_grows rfl _
  · exact grows_ite (raise_grows rfl _) (next_grows rfl rfl)

theorem distanceSymbol_grows (dsym : Nat) : Grows s.copyLen s (distanceSymbol dsym s) := by
  unfold distanceSymbol
  split
  · exact raise_grows rfl _
  dsimp only
  split
  · exact raise_grows rfl _
  · rename_i hcopy
    rintro _ ⟨⟩
    obtain ⟨m, k, hk, rfl⟩ := lz77Copy_longer hcopy
    exact .inr ⟨.inl rfl, hk⟩

theorem putLengths_grows (v : BitVec 4) (r : Nat) : Grows 0 s (.next (s.putLengths v r).continueLengths) :=
  next_grows (by simp) (by simp)

theorem repeatLength_grows (v : BitVec 4) (r : Nat) : Grows 0 s (repeatLength v r s) :=
  grows_ite (raise_grows rfl _) (putLengths_grows v r)

theorem clen_grows {sym : Nat} {i : Instr} (hi : decodeClen sym = some i) : Grows 0 s (exec i s) := by
  rw [exec_of_decodeClen hi, execClLen, execClRepeatPrev, execClRepeatZeroShort, execClRepeatZeroLong]
  refine grows_ite (putLengths_grows _ 1) (grows_ite ?_ (grows_ite ?_ ?_))
  · split
    · exact raise_grows rfl _
    split
    · exact raise_grows rfl _
    · exact (repeatLength_grows _ _).setCursor
  · split
    · exact raise_grows rfl _
    · exact (repeatLength_grows _ _).setCursor
  · split
    · exact raise_grows rfl _
    · exact (repeatLength_grows _ _).setCursor

/-! ### The element read -/

variable {i : Instr} {c : Cursor}

theorem fetchDynamicHeader_row (hr : fetchDynamicHeader s = .ok (i, c)) : ∃ a b d, i = .hdrDynamic a b d := by
  unfold fetchDynamicHeader at hr
  repeat' split at hr
  all_goals cases hr
  exact ⟨_, _, _, rfl⟩

theorem fetchCodeLength_row (hr : fetchCodeLength s = .ok (i, c)) : ∃ sym, decodeClen sym = some i := by
  unfold fetchCodeLength at hr
  repeat' split at hr
  all_goals cases hr
  exact ⟨_, ‹_›⟩

theorem fetchLitlen_row (hr : fetchLitlen s = .ok (i, c)) : ∃ sym, decodeLitlen sym = some i := by
  unfold fetchLitlen at hr
  repeat' split at hr
  all_goals cases hr
  all_goals exact ⟨_, ‹_›⟩

theorem fetchDistance_row (hr : fetchDistance s = .ok (i, c)) : ∃ dsym, decodeDist dsym = some i := by
  unfold fetchDistance at hr
  dsimp only at hr
  repeat' split at hr
  all_goals cases hr
  all_goals exact ⟨_, ‹_›⟩

variable {t : State}

theorem runFetched_next {f : Except Cause (Instr × Cursor)} (ht : runFetched f s = .next t) :
    t.phase = .error ∧ t.outLen = s.outLen ∨ ∃ i c, f = .ok (i, c) ∧ exec i (s.setCursor c) = .next t := by
  unfold runFetched at ht
  split at ht
  · obtain ⟨-, rfl⟩ := raise_eq_next ht
    exact .inl ⟨rfl, rfl⟩
  · exact .inr ⟨_, _, rfl, ht⟩

/-- The meaning of the element a block reads next. -/
theorem fetchElement_grows (hf : fetchElement s = .ok (i, c)) (u : State) :
    ∃ n, Grows n u (exec i u) := by
  unfold fetchElement at hf
  split at hf
  · obtain ⟨-, -, len, nlen, rfl⟩ := fetchStoredHeader_ok hf
    exact ⟨_, execHdrStored_grows len nlen⟩
  · obtain ⟨a, b, d, rfl⟩ := fetchDynamicHeader_row hf
    exact ⟨_, execHdrDynamic_grows a b d⟩
  · obtain ⟨sym, hi⟩ := fetchCodeLength_row hf
    exact ⟨_, clen_grows hi⟩
  · obtain ⟨sym, hi⟩ := fetchLitlen_row hf
    rw [exec_of_decodeLitlen hi]
    split
    · exact ⟨_, execLit_grows _⟩
    split
    · exact ⟨_, execEob_grows⟩
    · exact ⟨_, lengthSymbol_grows sym⟩
  · obtain ⟨dsym, hi⟩ := fetchDistance_row hf
    rw [exec_of_decodeDist hi]
    exact ⟨_, distanceSymbol_grows dsym⟩

/-! ### The transitions of the block -/

theorem readFinalStep_next (ht : readFinalStep s = .next t) :
    (t.phase = .readType ∨ t.phase = .error) ∧ t.outLen = s.outLen := by
  unfold readFinalStep at ht
  split at ht
  · obtain ⟨-, rfl⟩ := raise_eq_next ht
    exact ⟨.inr rfl, rfl⟩
  · cases ht
    exact ⟨.inl rfl, rfl⟩

theorem blockHeader_next {f : Bool} {b : BitVec 2} (ht : exec (decodeBlockHeader f b) s = .next t) :
    (t.phase = .decodeBlock ∨ t.phase = .error) ∧ t.outLen = s.outLen := by
  unfold decodeBlockHeader at ht
  split_ifs at ht
  · cases ht
    exact ⟨.inl rfl, rfl⟩
  · cases ht
    exact ⟨.inl rfl, rfl⟩
  · cases ht
    exact ⟨.inl rfl, rfl⟩
  · obtain ⟨-, rfl⟩ := raise_eq_next (c := .reservedBtype) (s := s.enterBlock f 3 .storedHeader) ht
    exact ⟨.inr rfl, rfl⟩

theorem readType_next (ht : runFetched (fetchBlockHeader s) s = .next t) :
    (t.phase = .decodeBlock ∨ t.phase = .error) ∧ t.outLen = s.outLen := by
  obtain ⟨hp, ho⟩ | ⟨i, c, hf, ht⟩ := runFetched_next ht
  · exact ⟨.inr hp, ho⟩
  unfold fetchBlockHeader at hf
  split at hf <;> cases hf
  exact blockHeader_next (s := s.setCursor c) ht

/-- The phases a step of the block goes to (R235); a step that fails leaves the output length. -/
def BlockTransition (s t : State) : Prop :=
  t.phase = s.phase ∨
  (s.phase = .readFinal ∧ t.phase = .readType) ∨
  (s.phase = .readType ∧ t.phase = .decodeBlock) ∨
  (s.phase = .decodeBlock ∧ t.phase = .readFinal ∧ s.bfinal = false) ∨
  (s.phase = .decodeBlock ∧ t.phase = .done ∧ s.bfinal = true) ∨
  (s.busy = true ∧ t.phase = .error ∧ t.outLen = s.outLen)

theorem BlockTransition.failed (hb : s.busy = true) (hp : t.phase = .error) (ho : t.outLen = s.outLen) :
    BlockTransition s t := .inr (.inr (.inr (.inr (.inr ⟨hb, hp, ho⟩))))

theorem element_transition (hd : s.phase = .decodeBlock) (ht : runFetched (fetchElement s) s = .next t) :
    BlockTransition s t := by
  have hb : s.busy = true := by rw [State.busy, hd]; rfl
  obtain ⟨hp, ho⟩ | ⟨i, c, hf, ht⟩ := runFetched_next ht
  · exact .failed hb hp ho
  obtain ⟨n, hg⟩ := fetchElement_grows hf (s.setCursor c)
  obtain ⟨hp, ho⟩ | ⟨hp | hp, -⟩ := hg t ht
  · exact .failed hb hp ho
  · exact .inl hp
  · rw [State.endBlock_phase, State.setCursor_bfinal] at hp
    cases hfin : s.bfinal with
    | false => rw [hfin] at hp; exact .inr (.inr (.inr (.inl ⟨hd, hp, hfin⟩)))
    | true => rw [hfin] at hp; exact .inr (.inr (.inr (.inr (.inl ⟨hd, hp, hfin⟩))))

theorem blockStep_transition (ht : blockStep s = .next t) : BlockTransition s t := by
  cases hb : s.busy with
  | false =>
    rw [blockStep_idle hb] at ht
    cases ht
    exact .inl rfl
  | true =>
    unfold blockStep at ht
    cases hp : s.phase <;> rw [hp] at ht <;> dsimp only at ht
    case readFinal =>
      obtain ⟨hq | hq, ho⟩ := readFinalStep_next ht
      · exact .inr (.inl ⟨hp, hq⟩)
      · exact .failed hb hq ho
    case readType =>
      obtain ⟨hq | hq, ho⟩ := readType_next ht
      · exact .inr (.inr (.inl ⟨hp, hq⟩))
      · exact .failed hb hq ho
    case decodeBlock => exact element_transition hp ht
    case idle | done | error => cases ht; exact .inl rfl

/-- A transition of the block is one of the table of R235. -/
theorem BlockTransition.listed {p q : Prop} (h : BlockTransition s t) :
    t.phase = s.phase ∨ p ∨
    (s.phase = .readFinal ∧ t.phase = .readType) ∨
    (s.phase = .readType ∧ t.phase = .decodeBlock) ∨
    (s.phase = .decodeBlock ∧ t.phase = .readFinal ∧ s.bfinal = false) ∨
    (s.phase = .decodeBlock ∧ t.phase = .done ∧ s.bfinal = true) ∨
    (s.busy = true ∧ t.phase = .error) ∨ q := by
  obtain h | h | h | h | h | ⟨hb, hp, -⟩ := h
  · exact .inl h
  · exact .inr (.inr (.inl h))
  · exact .inr (.inr (.inr (.inl h)))
  · exact .inr (.inr (.inr (.inr (.inl h))))
  · exact .inr (.inr (.inr (.inr (.inr (.inl h)))))
  · exact .inr (.inr (.inr (.inr (.inr (.inr (.inl ⟨hb, hp⟩))))))

/-- Settles O20: the step is the block's, whose transitions are those of R235, or the host's, who starts or resets. -/
theorem phaseTransitionsAreTheListedOnes : Obligations.PhaseTransitionsAreTheListedOnes := by
  unfold Obligations.PhaseTransitionsAreTheListedOnes
  intro s t ht
  cases hq : s.hostQueue with
  | nil =>
    rw [step_block hq] at ht
    exact (blockStep_transition ht).listed
  | cons a rest =>
    by_cases hw : s.busy = true → a.wait = 0
    · rw [step_host_now hq hw] at ht
      obtain h | ⟨hstart, hb, hp⟩ | ⟨hreset, hp⟩ := hostStep_next ht
      · exact .inl h.phase
      · exact .inr (.inl ⟨hb, hp, a.wait, a.action, rest, rfl, hstart⟩)
      · exact .inr (.inr (.inr (.inr (.inr (.inr (.inr ⟨hp, a.wait, rest, hreset ▸ rfl⟩))))))
    · obtain ⟨hb, hne⟩ := Classical.not_imp.1 hw
      rw [step_host_later hq hb hne] at ht
      exact (blockStep_transition ht).listed

end Sys2Proof.Machine
end

section
/-! Every call ends, and its output is bounded by its input (43_block_dispatcher.md R237). -/

namespace Sys2Proof.Machine

variable {s t : State}

/-! ### The end of a call -/

theorem phase_of_not_busy (hb : s.busy = false) (hi : s.phase ≠ .idle) : s.phase = .done ∨ s.phase = .error := by
  unfold State.busy at hb
  cases hp : s.phase with
  | idle => exact absurd hp hi
  | done => exact .inl rfl
  | error => exact .inr rfl
  | readFinal | readType | decodeBlock => rw [hp] at hb; cases hb

theorem phase_ne_idle_of_busy (hb : s.busy = true) : s.phase ≠ .idle := by
  intro e
  rw [State.busy, e] at hb
  cases hb

/-- No step of the block leads to IDLE. -/
theorem BlockTransition.phase_ne_idle (h : BlockTransition s t) (hi : s.phase ≠ .idle) : t.phase ≠ .idle := by
  obtain h | ⟨-, h⟩ | ⟨-, h⟩ | ⟨-, h, -⟩ | ⟨-, h, -⟩ | ⟨-, h, -⟩ := h <;> rw [h]
  · exact hi
  all_goals nofun

/-- A step of a running call answers, keeps the state sound, and consumes input if the call goes on. -/
theorem State.Sound.blockStep (h : s.Sound) (hb : s.busy = true) :
    ∃ t, blockStep s = .next t ∧ t.Sound ∧
      (t.phase ≠ .error → t.inLen = s.inLen ∧ s.cursor.consumed < t.cursor.consumed) := by
  obtain ⟨t, v, ht, hv, ha, ho⟩ := blockStep_paired h hb
  obtain rfl : t = v := Host.Outcome.next.inj (ht.symm.trans hv)
  refine ⟨t, ht, ha, fun hne => ?_⟩
  obtain ⟨hlen, hcons, -⟩ := ho hne
  exact ⟨hlen, hcons⟩

/-- A call with `n` steps left, more than the bits left of its stream, comes to its end in them. -/
theorem runSteps_ends {n : Nat} (h : s.Sound) (hi : s.phase ≠ .idle) (hf : s.busy = true → s.Fuelled n) :
    ∃ t, runSteps n s = .next t ∧ (t.phase = .done ∨ t.phase = .error) := by
  induction n generalizing s with
  | zero =>
    cases hb : s.busy with
    | false => exact ⟨s, rfl, phase_of_not_busy hb hi⟩
    | true => exact ((hf hb).ne_zero (h.legal (phase_ne_error_of_busy hb)).consumed_le).elim
  | succ n ih =>
    cases hb : s.busy with
    | false => exact ⟨s, runSteps_idle h.obs.queue hb _, phase_of_not_busy hb hi⟩
    | true =>
      obtain ⟨t, ht, hsound, hon⟩ := h.blockStep hb
      rw [runSteps_succ_next ((step_block h.obs.queue).trans ht)]
      refine ih hsound ((blockStep_transition ht).phase_ne_idle hi) fun hbt => ?_
      obtain ⟨hlen, hcons⟩ := hon (phase_ne_error_of_busy hbt)
      exact (hf hb).pred hlen hcons

/-- Settles O55: each step of the call leaves fewer bits of the stream. -/
theorem everyCallEnds : Obligations.EveryCallEnds := by
  unfold Obligations.EveryCallEnds
  intro s h hq hb
  refine runSteps_ends (h.sound hq hb) (phase_ne_idle_of_busy hb) fun _ => ?_
  unfold State.Fuelled
  omega

/-! ### The output and the bits that pay for it -/

/-- 129 bytes of output for each bit consumed: a back-reference of 258 bytes takes a bit for its length and one for its
distance. Between the two, the bit of the length is not spent yet. -/
structure State.Covered (s : State) : Prop where
  output : s.outLen.toNat ≤ 129 * s.cursor.consumed
  unspent : s.phase = .decodeBlock → s.expect = .distance → s.outLen.toNat + 129 ≤ 129 * s.cursor.consumed

/-- A step that appends nothing saves the bits it consumes. -/
theorem State.Covered.of_le (h : s.Covered) (ho : t.outLen.toNat ≤ s.outLen.toNat)
    (hcons : s.cursor.consumed < t.cursor.consumed) : t.Covered := by
  have := h.output
  exact ⟨by omega, fun _ _ => by omega⟩

theorem State.Covered.of_silent {o : Out} (h : s.Covered) (hg : Grows 0 s o) (ht : o = .next t)
    (hcons : s.cursor.consumed < t.cursor.consumed) : t.Covered := by
  obtain ⟨-, ho⟩ | ⟨-, ho⟩ := hg t ht
  · exact h.of_le (ho ▸ Nat.le_refl _) hcons
  · exact h.of_le ho hcons

/-- A stored byte takes eight bits (44_stored_block.md R250). -/
theorem stored_covered {c : Cursor} {len nlen : BitVec 16} (h : s.Covered) (hf : s.Fetched c)
    (ht : execHdrStored len nlen (s.setCursor c) = .next t) (hne : t.phase ≠ .error) : t.Covered := by
  obtain ⟨hp, -⟩ | ⟨c', u, ⟨m, k, hk, rfl⟩, rfl, hread⟩ := execHdrStored_next ht
  · exact absurd hp hne
  have hread := hread hf.legal
  have hc := hf.consumed.1
  have hs := h.output
  simp only [State.setCursor_cursor, State.setStoredHeader_outLen, State.setCursor_outLen] at hread hk
  refine ⟨?_, fun hd => ?_⟩
  · show k.toNat ≤ 129 * c'.consumed
    omega
  · rw [State.endBlock_phase] at hd
    split at hd <;> cases hd

/-- A literal is one byte (45_fixed_block.md R273), a length is not spent before its distance. -/
theorem litlen_covered {c : Cursor} {sym : Nat} {i : Instr} (h : s.Covered) (hx : s.expect = .litlen)
    (hi : decodeLitlen sym = some i) (ht : exec i (s.setCursor c) = .next t) (hne : t.phase ≠ .error)
    (hcons : s.cursor.consumed < t.cursor.consumed) : t.Covered := by
  rw [exec_of_decodeLitlen hi] at ht
  split at ht
  · obtain ⟨hp, -⟩ | ⟨m, k, hk, rfl⟩ := execLit_next ht
    · exact absurd hp hne
    have hs := h.output
    refine ⟨?_, fun _ hd => ?_⟩
    · simp only [State.setCursor_outLen] at hk
      dsimp only at hcons ⊢
      omega
    · cases hx.symm.trans hd
  split at ht
  · exact h.of_silent execEob_grows.setCursor ht hcons
  · exact h.of_silent (lengthSymbol_grows sym).setCursor ht hcons

/-- A copy of up to 258 bytes is paid by the bit of its length and the bit of its distance (R339, R361). -/
theorem distance_covered {c : Cursor} {dsym : Nat} (h : s.Covered) (hd : s.phase = .decodeBlock)
    (hx : s.expect = .distance) (hlen : s.copyLen ≤ 258) (hf : s.Fetched c)
    (hfits : s.outLen.toNat ≤ s.params.outMemSize.toNat)
    (ht : distanceSymbol dsym (s.setCursor c) = .next t) (hne : t.phase ≠ .error)
    (hcons : s.cursor.consumed < t.cursor.consumed) : t.Covered := by
  have hs := h.unspent hd hx
  obtain ⟨e, u, rfl, -⟩ | ⟨k, d, u, rfl, -, -, -, -, happ⟩ := distanceSymbol_next hf.legal hfits ht
  · exact absurd rfl hne
  · have ho := happ.outLen
    refine ⟨?_, fun _ => nofun⟩
    simp only [State.setCursor_outLen, State.setCursor_copyLen] at ho
    dsimp only at hcons ⊢
    omega

theorem blockStep_covered (h : s.Inv) (hb : s.busy = true) (hc : s.Covered) (ht : blockStep s = .next t)
    (hne : t.phase ≠ .error) (hcons : s.cursor.consumed < t.cursor.consumed) : t.Covered := by
  obtain ⟨hl, -, -, hparser⟩ := h.call hb
  obtain ⟨hfits, -⟩ := h.output (.inl hb)
  unfold State.busy at hb
  unfold blockStep at ht
  cases hp : s.phase <;> rw [hp] at hb ht <;> dsimp only at ht
  case readFinal => exact hc.of_le ((readFinalStep_next ht).2 ▸ Nat.le_refl _) hcons
  case readType => exact hc.of_le ((readType_next ht).2 ▸ Nat.le_refl _) hcons
  case decodeBlock =>
    have hparser := hparser hp
    obtain ⟨he, -⟩ | ⟨i, c, hf, ht⟩ := runFetched_next ht
    · exact absurd he hne
    unfold State.ParserInv at hparser
    unfold fetchElement at hf
    cases hx : s.expect <;> rw [hx] at hparser hf <;> dsimp only at hparser hf
    case storedHeader =>
      obtain ⟨hread, -, len, nlen, rfl⟩ := fetchStoredHeader_ok hf
      exact stored_covered hc hread ht hne
    case dynamicHeader =>
      obtain ⟨a, b, d, rfl⟩ := fetchDynamicHeader_row hf
      exact hc.of_silent (execHdrDynamic_grows a b d).setCursor ht hcons
    case codeLength =>
      obtain ⟨sym, hi⟩ := fetchCodeLength_row hf
      exact hc.of_silent (clen_grows hi).setCursor ht hcons
    case litlen =>
      obtain ⟨sym, hi⟩ := fetchLitlen_row hf
      exact litlen_covered hc hx hi ht hne hcons
    case distance =>
      obtain ⟨-, -, hlen⟩ := hparser
      obtain ⟨hread, dsym, hi⟩ := fetchDistance_ok hl hf
      rw [exec_of_decodeDist hi] at ht
      exact distance_covered hc hp hx hlen hread hfits ht hne hcons
  all_goals cases hb

/-! ### The bound at every point of a call -/

/-- A call that fails has the output it had before the step (60_exceptions.md R403). -/
theorem BlockTransition.outLen_of_error (h : BlockTransition s t) (hb : s.busy = true) (hp : t.phase = .error) :
    t.outLen = s.outLen := by
  unfold BlockTransition at h
  rw [hp] at h
  obtain h | ⟨-, h⟩ | ⟨-, h⟩ | ⟨-, h, -⟩ | ⟨-, h, -⟩ | ⟨-, -, ho⟩ := h
  · exact absurd h.symm (phase_ne_error_of_busy hb)
  · cases h
  · cases h
  · cases h
  · cases h
  · exact ho

/-- At a point of a call on a stream of `N` bytes, or after it. -/
structure State.Bounded (N : Nat) (s : State) : Prop where
  inv : s.Inv
  queue : s.hostQueue = []
  output : s.outLen.toNat ≤ 1032 * N
  running : s.busy = true → s.Covered ∧ s.inLen.toNat = N

theorem State.Bounded.step {N : Nat} (h : s.Bounded N) (ht : step s = .next t) : t.Bounded N := by
  rw [step_block h.queue] at ht
  cases hb : s.busy with
  | false =>
    rw [blockStep_idle hb] at ht
    cases ht
    exact h
  | true =>
    obtain ⟨hcov, hN⟩ := h.running hb
    obtain ⟨u, hu, hsound, hon⟩ := (h.inv.sound h.queue hb).blockStep hb
    obtain rfl : u = t := Host.Outcome.next.inj (hu.symm.trans ht)
    have hinv := blockStep_inv h.inv ht
    by_cases hp : u.phase = .error
    · have ho := (blockStep_transition ht).outLen_of_error hb hp
      exact ⟨hinv, hsound.obs.queue, ho ▸ h.output, fun hb' => absurd hp (phase_ne_error_of_busy hb')⟩
    · obtain ⟨hlen, hcons⟩ := hon hp
      have hcov' := blockStep_covered h.inv hb hcov ht hp hcons
      have hle := (hsound.legal hp).consumed_le
      have ho := hcov'.output
      rw [hlen] at hle
      exact ⟨hinv, hsound.obs.queue, by omega, fun _ => ⟨hcov', hlen ▸ hN⟩⟩

theorem State.Bounded.run {N n : Nat} (h : s.Bounded N) (ht : runSteps n s = .next t) : t.Bounded N := by
  induction n generalizing s with
  | zero => cases ht; exact h
  | succ n ih =>
    obtain ⟨u, hs, hu⟩ := runSteps_succ_eq_next ht
    exact ih (h.step hs) hu

theorem State.startCall_bounded (h : s.Inv) (hs : s.startable) : s.startCall.Bounded s.inLen.toNat := by
  obtain ⟨-, hlen, hq⟩ := hs
  exact ⟨h.startCall hlen, hq, Nat.zero_le _, fun _ => ⟨⟨Nat.zero_le _, nofun⟩, rfl⟩⟩

/-- Settles O56: 129 bytes for each bit are 1032 for each byte. -/
theorem outputIsBoundedByTheInput : Obligations.OutputIsBoundedByTheInput := by
  unfold Obligations.OutputIsBoundedByTheInput
  intro s t n h hs ht
  exact ((State.startCall_bounded h hs).run ht).output

end Sys2Proof.Machine
end

section
/-! Stored blocks (44_stored_block.md): HDR_STORED through the body of a stored block. -/

namespace Sys2Proof.Machine

variable {s : State}

/-! ### The next bytes of the stream -/

/-- The next `n` bytes of the stream at an aligned cursor. -/
def State.nextBytes (s : State) (n : Nat) : List Byte :=
  (List.range n).map fun k => s.inByte (s.cursor.pos.toNat + k)

@[simp] theorem State.nextBytes_length (s : State) (n : Nat) : (s.nextBytes n).length = n := by
  simp [State.nextBytes]

theorem State.nextBytes_getElem? {n k : Nat} (h : k < n) :
    (s.nextBytes n)[k]? = some (s.inByte (s.cursor.pos.toNat + k)) := by
  simp [State.nextBytes, h]

/-! ### HDR_STORED -/

/-- HDR_STORED runs the body of the block, then ends the block or the call; a failure has written LEN and NLEN. -/
theorem execHdrStored_eq (len nlen : BitVec 16) (s : State) :
    execHdrStored len nlen s =
      match storedBody len nlen s with
      | .error c => raise c (s.setStoredHeader len nlen)
      | .ok u => .next u.endBlock := by
  unfold execHdrStored storedBody
  dsimp only
  split
  · rfl
  split
  · rfl
  cases readBytes len.toNat (s.setStoredHeader len nlen) with
  | error c => rfl
  | ok r => cases appendAll r.1 ((s.setStoredHeader len nlen).setCursor r.2) <;> rfl

/-- A failure of the body is the failure of HDR_STORED. -/
theorem execHdrStored_failsWith {len nlen : BitVec 16} {c : Cause} (hc : c.kind ≠ .internalBug)
    (h : storedBody len nlen s = .error c) : failsWith (execHdrStored len nlen s) c.kind.code c.code s := by
  rw [execHdrStored_eq, h]
  exact raise_failsWith hc { HostKept.refl s with }

/-- LEN and NLEN are written and the cursor stands after the data, none of which is appended yet (R250). -/
def State.pastStoredData (len : BitVec 16) (s : State) : State :=
  (s.setStoredHeader len (~~~len)).setCursor
    { pos := BitVec.ofNat 32 (s.cursor.pos.toNat + len.toNat), left := 8 }

theorem State.pastStoredData_zero (h8 : s.cursor.left = 8) : s.pastStoredData 0 = s.setStoredHeader 0 (~~~0) := by
  have hc : ({ pos := BitVec.ofNat 32 (s.cursor.pos.toNat + 0), left := 8 } : Cursor) = s.cursor := by simp [← h8]
  exact congrArg (fun c => (s.setStoredHeader 0 (~~~0)).setCursor c) hc

/-- At a byte boundary with a good complement, an empty block is no special case (R250, R253): no bytes are read and none
appended. -/
theorem storedBody_aligned (len : BitVec 16) (h8 : s.cursor.left = 8) (hp : s.cursor.pos.toNat ≤ s.inLen.toNat) :
    storedBody len (~~~len) s =
      if s.cursor.pos.toNat + len.toNat ≤ s.inLen.toNat then
        appendAll (s.nextBytes len.toNat) (s.pastStoredData len)
      else .error .endOfInput := by
  unfold storedBody
  dsimp only
  rw [if_neg (not_not_intro rfl)]
  by_cases h0 : len = 0
  · subst h0
    rw [if_pos rfl, State.pastStoredData_zero h8]
    exact (if_pos hp).symm
  · have hread : readBytes len.toNat (s.setStoredHeader len (~~~len)) =
        if s.cursor.pos.toNat + len.toNat ≤ s.inLen.toNat then
          .ok (s.nextBytes len.toNat, (s.pastStoredData len).cursor)
        else .error .endOfInput := readBytes_aligned (s := s.setStoredHeader len (~~~len)) h8 hp len.toNat
    rw [if_neg h0, hread]
    by_cases hle : s.cursor.pos.toNat + len.toNat ≤ s.inLen.toNat
    · rw [if_pos hle, if_pos hle]
      rfl
    · rw [if_neg hle, if_neg hle]

/-! ### The obligations -/

/-- Settles O21: with room, the bytes read are appended. -/
theorem storedBlockCopiesItsBytesVerbatim : Obligations.StoredBlockCopiesItsBytesVerbatim := by
  unfold Obligations.StoredBlockCopiesItsBytesVerbatim
  intro s len h8 hdata hroom
  have hbody := storedBody_aligned len h8 (Nat.le_of_add_right_le hdata)
  rw [if_pos hdata] at hbody
  obtain ⟨u, happ, hu, hnew, hold⟩ := appendAll_room (vs := s.nextBytes len.toNat) (s := s.pastStoredData len)
    (by rwa [State.nextBytes_length])
  rw [State.nextBytes_length] at hu hnew hold
  refine ⟨u.endBlock, ?_, ?_, fun k hk => ?_, hold⟩
  · show execHdrStored len (~~~len) s = _
    rw [execHdrStored_eq, hbody, happ]
  · rw [hu]
    rfl
  · have hk' := hnew k hk
    rw [State.nextBytes_getElem? hk] at hk'
    exact (Option.some.inj hk').symm

/-- Settles O22: the complement is checked first; over 16 bits `~LEN` is `0xFFFF − LEN`. -/
theorem storedComplementMismatchFails : Obligations.StoredComplementMismatchFails := by
  unfold Obligations.StoredComplementMismatchFails
  intro s len nlen
  refine ⟨fun hne => execHdrStored_failsWith (c := .storedLenMismatch) (by decide) (if_pos hne), ?_⟩
  have hlen := len.isLt
  rw [← BitVec.toNat_inj, BitVec.toNat_not]
  omega

/-- Settles O23: the body reads all its bytes before it appends the first. -/
theorem storedBlockFailsInOrder : Obligations.StoredBlockFailsInOrder := by
  unfold Obligations.StoredBlockFailsInOrder
  intro s len h8 hp
  have hbody := storedBody_aligned len h8 hp
  refine ⟨fun hshort => ?_, fun hdata hfits hfull => ?_⟩
  · rw [if_neg (Nat.not_le.2 hshort)] at hbody
    exact execHdrStored_failsWith (c := .endOfInput) (by decide) hbody
  · have happ := appendAll_full (vs := s.nextBytes len.toNat) (s := s.pastStoredData len) hfits
      (by rwa [State.nextBytes_length])
    rw [if_pos hdata, happ] at hbody
    exact execHdrStored_failsWith (c := .outputOverflow) (by decide) hbody

end Sys2Proof.Machine
end

section
/-! Symbols that read no further bit, from any state: literals and the end of a block (45_fixed_block.md R273, R274), and
the symbols out of range (R276, 47_length_distance.md R333, R337). -/

namespace Sys2Proof.Machine

variable {s : State}

/-! ### Literals and the end of a block -/

/-- Settles O24: LIT is one `append`, with room or on a full OUT. -/
theorem literalAppendsItsByte : Obligations.LiteralAppendsItsByte := by
  unfold Obligations.LiteralAppendsItsByte
  intro s b
  refine ⟨fun hroom => ?_, fun hfull => ?_⟩
  · obtain ⟨t, happ, ht, -, hnew, hold⟩ := append_at_end (v := b) hroom
    have hlen : BitVec.ofNat 32 (s.outLen.toNat + 1) = s.outLen + 1 := by simp [BitVec.ofNat_add]
    refine ⟨t, ?_, hlen ▸ ht, hnew, hold⟩
    show execLit b s = _
    rw [execLit, happ]
  · have happ := append_full (v := b) (congrArg BitVec.toNat hfull)
    show failsWith (execLit b s) _ _ s
    rw [execLit, happ]
    exact raise_failsWith (by decide) (.refl s)

/-- Settles O25: the flag of the block decides the phase. -/
theorem endOfBlockReturnsToTheDispatcher : Obligations.EndOfBlockReturnsToTheDispatcher := by
  unfold Obligations.EndOfBlockReturnsToTheDispatcher
  intro s
  have hexec : exec .eob s = .next { s with phase := if s.bfinal then .done else .readFinal } := rfl
  rw [hexec]
  refine ⟨fun hfinal => ?_, fun hmore => ?_⟩
  · rw [if_pos hfinal]
  · rw [if_neg (Bool.eq_false_iff.1 hmore)]

/-! ### Symbols out of range -/

/-- A failed `resolve_length` is the failure of the length symbol. -/
theorem lengthSymbol_error {sym : Nat} {c : Cause} (h : resolveLength sym s = .error c) :
    lengthSymbol sym s = raise c s := by
  unfold lengthSymbol
  rw [h]

/-- A failed `resolve_distance` is the failure of the distance symbol. -/
theorem distanceSymbol_error {dsym : Nat} {c : Cause} (h : resolveDistance dsym s = .error c) :
    distanceSymbol dsym s = raise c s := by
  unfold distanceSymbol
  rw [h]

/-- A symbol above 285 fails the range check, before any extra bit is read (R333). -/
theorem lengthSymbol_failsWith_range {sym : Nat} (h : 285 < sym) : failsWith (lengthSymbol sym s) 1 0x05 s := by
  have hrange : resolveLength sym s = .error .litlenSymbolRange := by
    unfold resolveLength
    exact if_pos (by omega)
  rw [lengthSymbol_error hrange]
  exact raise_failsWith (by decide) (.refl s)

/-- A distance symbol above 29 fails the range check, before any extra bit is read (R337). -/
theorem distanceSymbol_failsWith_range {dsym : Nat} (h : 29 < dsym) : failsWith (distanceSymbol dsym s) 1 0x08 s := by
  have hrange : resolveDistance dsym s = .error .distSymbolRange := if_pos h
  rw [distanceSymbol_error hrange]
  exact raise_failsWith (by decide) (.refl s)

/-- Settles O28: the four rows are the length and distance symbols just above their tables. -/
theorem symbolsOutOfRangeFail : Obligations.SymbolsOutOfRangeFail := by
  unfold Obligations.SymbolsOutOfRangeFail
  intro s
  exact ⟨lengthSymbol_failsWith_range (sym := 286) (by decide), lengthSymbol_failsWith_range (sym := 287) (by decide),
    distanceSymbol_failsWith_range (dsym := 30) (by decide), distanceSymbol_failsWith_range (dsym := 31) (by decide)⟩

end Sys2Proof.Machine
end

section
/-! The header of a dynamic block (46_dynamic_block.md R291 to R296): HDR_DYNAMIC through the turn that checks the counts and
builds the meta-table. -/

namespace Sys2Proof.Machine

variable {s : State} {hlit hdist : BitVec 5} {hclen : BitVec 4}

/-! ### The code-length lengths -/

theorem readClens_cons {k slot : Nat} (hk : k + 3 ≤ 8 * s.inLen.toNat) (order : List Nat) (acc : List (BitVec 3)) :
    readClens (slot :: order) acc (s.setCursor (cursorAt k)) =
      readClens order (acc.set slot (BitVec.ofNat 3 (s.fieldAt k 3))) (s.setCursor (cursorAt (k + 3))) := by
  rw [readClens, readBits_setCursor hk (by decide)]
  rfl

/-- With the bits there, the `i`-th value read is the length of the `i`-th slot, and the other slots keep theirs (R294). -/
theorem readClens_complete {order : List Nat} {acc : List (BitVec 3)} {k : Nat}
    (hbits : k + 3 * order.length ≤ 8 * s.inLen.toNat) (hdistinct : order.Nodup)
    (hslots : ∀ slot ∈ order, slot < acc.length) :
    ∃ lens, readClens order acc (s.setCursor (cursorAt k)) = .ok (lens, cursorAt (k + 3 * order.length)) ∧
      (∀ slot ∉ order, lens[slot]? = acc[slot]?) ∧
      ∀ i slot, order[i]? = some slot → lens[slot]? = some (BitVec.ofNat 3 (s.fieldAt (k + 3 * i) 3)) := by
  induction order generalizing acc k with
  | nil => exact ⟨acc, rfl, fun _ _ => rfl, nofun⟩
  | cons slot order ih =>
    obtain ⟨hnew, hdistinct⟩ := List.nodup_cons.1 hdistinct
    rw [List.length_cons] at hbits
    obtain ⟨lens, hread, hother, hplaced⟩ :=
      ih (acc := acc.set slot (BitVec.ofNat 3 (s.fieldAt k 3))) (k := k + 3) (by omega) hdistinct fun x hx => by
        rw [List.length_set]
        exact hslots x (List.mem_cons_of_mem _ hx)
    refine ⟨lens, ?_, fun x hx => ?_, fun i x hx => ?_⟩
    · rw [readClens_cons (by omega), hread, List.length_cons, Nat.mul_succ, Nat.add_assoc, Nat.add_comm 3]
    · obtain ⟨hne, hx⟩ := not_or.1 (List.mem_cons.not.1 hx)
      rw [hother x hx, List.getElem?_set_ne (Ne.symm hne)]
    · cases i with
      | zero =>
        obtain rfl : slot = x := Option.some.inj hx
        rw [hother slot hnew, List.getElem?_set_self (hslots slot List.mem_cons_self)]
        rfl
      | succ i =>
        rw [hplaced i x hx, Nat.mul_succ, Nat.add_assoc, Nat.add_comm 3]

/-- With a bit missing, END_OF_INPUT. -/
theorem readClens_short {order : List Nat} {acc : List (BitVec 3)} (hl : s.CursorLegal)
    (hbits : 8 * s.inLen.toNat < s.cursor.consumed + 3 * order.length) :
    readClens order acc s = .error .endOfInput := by
  cases hr : readClens order acc s with
  | error e => rw [readClens_error hr]
  | ok r =>
    obtain ⟨-, hle, -⟩ := readClens_ok hl (lens := r.1) (c := r.2) hr
    omega

theorem clenOrder_nodup : clenOrder.Nodup := by decide

theorem clenOrder_lt : ∀ slot ∈ clenOrder, slot < 19 := by decide

/-- The lengths of the code-length alphabet: one value for each of the first `n` slots of CLEN_ORDER, 0 in the others
(R293, R294). -/
theorem readClens_clenOrder (hl : s.CursorLegal) {n : Nat} (hn : n ≤ 19)
    (hbits : s.cursor.consumed + 3 * n ≤ 8 * s.inLen.toNat) :
    ∃ clens, readClens (clenOrder.take n) (List.replicate 19 0) s =
        .ok (clens, cursorAt (s.cursor.consumed + 3 * n)) ∧
      clens.length = 19 ∧
      ∀ k sym, clenOrder[k]? = some sym →
        clens[sym]? = some (if k < n then BitVec.ofNat 3 (s.fieldAt (s.cursor.consumed + 3 * k) 3) else 0) := by
  have hlen : (clenOrder.take n).length = n := List.length_take_of_le hn
  obtain ⟨clens, hread, hother, hplaced⟩ := readClens_complete (s := s) (order := clenOrder.take n)
    (acc := List.replicate 19 0) (k := s.cursor.consumed) (by rwa [hlen])
    (clenOrder_nodup.sublist (List.take_sublist n _))
    fun slot hslot => by
      rw [List.length_replicate]
      exact clenOrder_lt slot (List.mem_of_mem_take hslot)
  rw [hlen, ← hl.cursor_eq] at hread
  refine ⟨clens, hread, ?_, fun k sym hk => ?_⟩
  · obtain ⟨hlength, -⟩ := readClens_ok hl hread
    rw [hlength, List.length_replicate]
  · by_cases hkn : k < n
    · rw [if_pos hkn]
      exact hplaced k sym (by rwa [List.getElem?_take_of_lt hkn])
    · have hlater : sym ∈ clenOrder.drop n := List.mem_of_getElem? (i := k - n) (by
        rwa [List.getElem?_drop, Nat.add_sub_cancel' (Nat.not_lt.1 hkn)])
      have hunread : sym ∉ clenOrder.take n := fun hmem =>
        List.disjoint_take_drop clenOrder_nodup (Nat.le_refl n) hmem hlater
      rw [if_neg hkn, hother sym hunread]
      exact List.getElem?_replicate_of_lt (clenOrder_lt sym (List.mem_of_getElem? hk))

/-! ### HDR_DYNAMIC -/

/-- The three counts of the header are written, not yet checked (R291). -/
def State.writeCounts (hlit hdist : BitVec 5) (hclen : BitVec 4) (s : State) : State :=
  s.setCounts (hlitOf hlit) (hdistOf hdist) (hclenOf hclen)

/-- HDR_DYNAMIC writes the counts and runs the turn that checks them and builds the meta-table. -/
theorem execHdrDynamic_eq (hlit hdist : BitVec 5) (hclen : BitVec 4) (s : State) :
    execHdrDynamic hlit hdist hclen s =
      match metaTurn (s.writeCounts hlit hdist hclen) with
      | .error c => raise c (s.writeCounts hlit hdist hclen)
      | .ok u => .next (u.setExpect .codeLength) := by
  unfold execHdrDynamic metaTurn State.writeCounts
  dsimp only
  split
  · rfl
  split
  · rfl
  generalize readClens _ _ _ = r
  cases r <;> rfl

theorem execHdrDynamic_of_ok {u : State} (h : metaTurn (s.writeCounts hlit hdist hclen) = .ok u) :
    execHdrDynamic hlit hdist hclen s = .next (u.setExpect .codeLength) := by
  rw [execHdrDynamic_eq, h]

/-- A failure of the turn is the failure of HDR_DYNAMIC. -/
theorem execHdrDynamic_failsWith {c : Cause} (hc : c.kind ≠ .internalBug)
    (h : metaTurn (s.writeCounts hlit hdist hclen) = .error c) :
    failsWith (execHdrDynamic hlit hdist hclen s) c.kind.code c.code s := by
  rw [execHdrDynamic_eq, h]
  exact raise_failsWith hc { HostKept.refl s with }

/-- With both counts in range the code-length lengths are read (R292, R294). -/
theorem metaTurn_counts_ok (hh : s.hlit ≤ hlitMax) (hd : s.hdist ≤ hdistMax) :
    metaTurn s =
      (readClens (clenOrder.take s.hclen) (List.replicate 19 0) s).map fun r => (s.setCursor r.2).setCodeLengths r.1 := by
  unfold metaTurn
  rw [if_neg (Nat.not_lt.2 hh), if_neg (Nat.not_lt.2 hd)]
  cases readClens (clenOrder.take s.hclen) (List.replicate 19 0) s <;> rfl

/-- Settles O32: HLIT is the first test of the turn, HDIST the second. -/
theorem dynamicHeaderCountsAreChecked : Obligations.DynamicHeaderCountsAreChecked := by
  unfold Obligations.DynamicHeaderCountsAreChecked
  intro s hlit hdist hclen
  refine ⟨fun hh => ?_, fun hh hd => ?_, by omega⟩
  · exact execHdrDynamic_failsWith (c := .hlitRange) (by decide) (if_pos hh)
  · refine execHdrDynamic_failsWith (c := .hdistRange) (by decide) ?_
    exact (if_neg (Nat.not_lt.2 hh)).trans (if_pos hd)

/-- Settles O33: the lengths are read in CLEN_ORDER, or one is missing. -/
theorem dynamicHeaderBuildsTheMetaTable : Obligations.DynamicHeaderBuildsTheMetaTable := by
  unfold Obligations.DynamicHeaderBuildsTheMetaTable
  intro s hlit hdist hclen hl hh hd
  have hn : (s.writeCounts hlit hdist hclen).hclen ≤ 19 := by
    show hclen.toNat + 4 ≤ 19
    omega
  have hturn := metaTurn_counts_ok (s := s.writeCounts hlit hdist hclen) hh hd
  refine ⟨fun hbits => ?_, fun hshort => ?_⟩
  · obtain ⟨clens, hread, hlength, hplaced⟩ := readClens_clenOrder (s := s.writeCounts hlit hdist hclen) hl hn hbits
    rw [hread] at hturn
    exact ⟨_, execHdrDynamic_of_ok hturn, rfl, hlength, hplaced⟩
  · rw [readClens_short (s := s.writeCounts hlit hdist hclen) hl (by rwa [List.length_take_of_le hn])] at hturn
    exact execHdrDynamic_failsWith (c := .endOfInput) (by decide) hturn

end Sys2Proof.Machine
end

section
/-! Code-length symbols (46_dynamic_block.md R296 to R308): lengths are appended, and the last ones build the tables of the
block. -/

namespace Sys2Proof.Machine

variable {s : State}

/-! ### Lengths appended -/

/-- The distance part is a single 0 exactly when the one length after the literal/length part is 0 (R305). -/
theorem State.distLens_eq_zero_iff (h : s.hdist = 1) : s.distLens = [0] ↔ s.lens[s.hlit]? = some 0 := by
  rw [State.distLens, h, List.take_one, List.head?_drop]
  cases s.lens[s.hlit]? with
  | none => simp
  | some v => simp [← BitVec.toNat_inj]

/-- What appending lengths does, the loop test included (R296, R297, R303 to R305). -/
theorem putLengths_lengthsGiven (s : State) (c : Cursor) (v : BitVec 4) (r : Nat) :
    lengthsGiven s ((s.setCursor c).putLengths v r).continueLengths c v r := by
  unfold lengthsGiven
  by_cases hmore : (s.grown v r).length < s.hlit + s.hdist
  · rw [if_pos hmore, State.continueLengths_of_lt _ hmore]
    rfl
  · rw [if_neg hmore, State.continueLengths_of_ge _ (Nat.not_lt.1 hmore)]
    have hiff : s.hdist = 1 ∧ ((s.setCursor c).putLengths v r).distLens = [0] ↔
        s.hdist = 1 ∧ (s.grown v r)[s.hlit]? = some 0 :=
      and_congr_right (State.distLens_eq_zero_iff (s := (s.setCursor c).putLengths v r))
    by_cases hnone : s.hdist = 1 ∧ (s.grown v r)[s.hlit]? = some 0
    · rw [if_pos hnone]
      exact if_pos (hiff.2 hnone)
    · rw [if_neg hnone]
      exact if_neg (hiff.not.2 hnone)

/-- Settles O34: the cursor stays, and one length is appended, whatever the count was before. -/
theorem codeLengthSymbolAppendsItsLength : Obligations.CodeLengthSymbolAppendsItsLength := by
  unfold Obligations.CodeLengthSymbolAppendsItsLength
  intro s len _
  exact ⟨_, rfl, putLengths_lengthsGiven s s.cursor len 1⟩

/-! ### Repeats -/

/-- A repeat symbol once its length is known: `n` extra bits, then `base` plus their value copies of it (R299 to R302). -/
def readRepeat (v : BitVec 4) (base n : Nat) (s : State) : Out :=
  match readBits n s with
  | .error c => raise c s
  | .ok (x, c) => repeatLength v (base + x) (s.setCursor c)

theorem execClRepeatPrev_of_empty (h : s.lens = []) : execClRepeatPrev s = raise .repeatNoPrevious s := by
  rw [execClRepeatPrev, h]
  rfl

theorem execClRepeatPrev_of_last {prev : BitVec 4} (h : s.lens.getLast? = some prev) :
    execClRepeatPrev s = readRepeat prev 3 2 s := by
  rw [execClRepeatPrev, h]
  rfl

theorem execClRepeatZeroShort_eq (s : State) : execClRepeatZeroShort s = readRepeat 0 3 3 s := rfl

theorem execClRepeatZeroLong_eq (s : State) : execClRepeatZeroLong s = readRepeat 0 11 7 s := rfl

/-- Missing extra bits fail (R302). -/
theorem readRepeat_short (hl : s.CursorLegal) {n : Nat} (hn : n ≤ 32)
    (hshort : 8 * s.inLen.toNat < s.cursor.consumed + n) (v : BitVec 4) (base : Nat) :
    failsWith (readRepeat v base n s) 1 0x01 s := by
  rw [readRepeat, readBits_legal hl n hn, if_neg (Nat.not_le.2 hshort)]
  exact raise_failsWith (by decide) (.refl s)

/-- With the extra bits there, the repeat is the field read (R302). -/
theorem readRepeat_of_bits (hl : s.CursorLegal) {n : Nat} (hn : n ≤ 32)
    (hbits : s.cursor.consumed + n ≤ 8 * s.inLen.toNat) (v : BitVec 4) (base : Nat) :
    readRepeat v base n s =
      repeatLength v (base + s.fieldAt s.cursor.consumed n) (s.setCursor (cursorAt (s.cursor.consumed + n))) := by
  rw [readRepeat, readBits_legal hl n hn, if_pos hbits]

/-- A run past HLIT + HDIST fails (R302). -/
theorem repeatLength_failsWith {r : Nat} (h : s.hlit + s.hdist < s.lens.length + r) (v : BitVec 4) (c : Cursor) :
    failsWith (repeatLength v r (s.setCursor c)) 1 0x0E s := by
  have hraise : repeatLength v r (s.setCursor c) = raise .repeatOverflow (s.setCursor c) := if_pos h
  rw [hraise]
  exact raise_failsWith (by decide) { HostKept.refl s with }

/-- A run within HLIT + HDIST appends its copies (R302). -/
theorem repeatLength_lengthsGiven {r : Nat} (h : s.lens.length + r ≤ s.hlit + s.hdist) (v : BitVec 4) (c : Cursor) :
    ∃ t, repeatLength v r (s.setCursor c) = .next t ∧ lengthsGiven s t c v r :=
  ⟨_, if_neg (Nat.not_lt.2 h), putLengths_lengthsGiven s c v r⟩

/-- Settles O35: the last length is looked at first, then the extra bits, then the total; two bits are at most 3. -/
theorem repeatPreviousAppendsTheLastLength : Obligations.RepeatPreviousAppendsTheLastLength := by
  unfold Obligations.RepeatPreviousAppendsTheLastLength
  intro s hl
  have hexec : exec .clRepeatPrev s = execClRepeatPrev s := rfl
  rw [hexec]
  refine ⟨fun hempty => ?_, fun hne hshort => ?_, fun prev r hlast hbits hr => ?_⟩
  · rw [execClRepeatPrev_of_empty hempty]
    exact raise_failsWith (by decide) (.refl s)
  · rw [execClRepeatPrev_of_last (List.getLast?_eq_some_getLast hne)]
    exact readRepeat_short hl (by decide) hshort _ 3
  · subst hr
    have hfield := s.fieldAt_lt s.cursor.consumed 2
    rw [execClRepeatPrev_of_last hlast, readRepeat_of_bits hl (by decide) hbits]
    exact ⟨by omega, fun hpast => repeatLength_failsWith hpast prev _, fun hfits => repeatLength_lengthsGiven hfits prev _⟩

/-- Both zero repeats are a repeat of 0 with the row's base and extra bits (R300, R301). -/
theorem exec_repeatZeroRow {i : Instr} {base extra : Nat}
    (hi : (i, base, extra) ∈ ([(.clRepeatZeroShort, 3, 3), (.clRepeatZeroLong, 11, 7)] : List (Instr × Nat × Nat)))
    (s : State) : exec i s = readRepeat 0 base extra s ∧ extra ≤ 32 := by
  simp only [List.mem_cons, Prod.mk.injEq, List.not_mem_nil, or_false] at hi
  obtain ⟨rfl, rfl, rfl⟩ | ⟨rfl, rfl, rfl⟩ := hi
  · exact ⟨execClRepeatZeroShort_eq s, by decide⟩
  · exact ⟨execClRepeatZeroLong_eq s, by decide⟩

/-- Settles O36: the rows differ in base and extra bits only. -/
theorem repeatZeroAppendsZeros : Obligations.RepeatZeroAppendsZeros := by
  unfold Obligations.RepeatZeroAppendsZeros
  intro s hl i base extra r hi hr
  subst hr
  obtain ⟨hexec, hn⟩ := exec_repeatZeroRow hi s
  rw [hexec]
  refine ⟨fun hshort => readRepeat_short hl hn hshort 0 base, fun hbits => ?_⟩
  rw [readRepeat_of_bits hl hn hbits]
  exact ⟨fun hpast => repeatLength_failsWith hpast 0 _, fun hfits => repeatLength_lengthsGiven hfits 0 _⟩

end Sys2Proof.Machine
end

section
/-! Length and distance symbols that fail, and the copy a distance symbol makes (47_length_distance.md R332 to R341,
48_lz77_expander.md R361 to R365). -/

namespace Sys2Proof.Machine

variable {s : State}

/-! ### Length symbols that fail -/

/-- A length whose extra bits are there, in a dynamic block without a distance table (R336). -/
theorem lengthSymbol_noDistanceTable {sym len : Nat} {c : Cursor} (h : resolveLength sym s = .ok (len, c))
    (hbt : s.btype = 2) (hp : s.distPresent = false) : failsWith (lengthSymbol sym s) 1 0x07 s := by
  have hraise : lengthSymbol sym s = raise .noDistanceTable ((s.setCursor c).setCopyLen len) := by
    unfold lengthSymbol
    rw [h]
    exact if_pos ⟨hbt, hp⟩
  rw [hraise]
  exact raise_failsWith (by decide) { HostKept.refl s with }

/-- Settles O27: the length is resolved first, and the distance table is looked for after it. -/
theorem lengthSymbolsFailInOrder : Obligations.LengthSymbolsFailInOrder := by
  unfold Obligations.LengthSymbolsFailInOrder
  intro i base extra hi s hl
  obtain ⟨k, hk⟩ := List.mem_iff_getElem?.1 hi
  have hlt : k < 29 := (List.getElem?_eq_some_iff.1 hk).1
  obtain ⟨hexec, rfl, rfl⟩ := exec_lengthRow hk s
  have hlength := resolveLength_legal hl (257 + k)
  rw [Nat.add_sub_cancel_left, if_neg (by omega)] at hlength
  rw [hexec]
  refine ⟨fun hshort => ?_, fun hbits hbt hp => ?_⟩
  · rw [if_neg (Nat.not_le.2 hshort)] at hlength
    rw [lengthSymbol_error hlength]
    exact raise_failsWith (by decide) (.refl s)
  · rw [if_pos hbits] at hlength
    exact lengthSymbol_noDistanceTable hlength hbt hp

/-! ### Distance symbols -/

/-- A distance resolved: the copy is made, and a literal/length symbol comes next. -/
theorem distanceSymbol_of_ok {dsym d : Nat} {c : Cursor} (h : resolveDistance dsym s = .ok (d, c)) :
    distanceSymbol dsym s =
      match lz77Copy s.copyLen d ((s.setCursor c).setCopyDist d) with
      | .error e => raise e ((s.setCursor c).setCopyDist d)
      | .ok t => .next (t.setExpect .litlen) := by
  unfold distanceSymbol
  rw [h]
  rfl

/-- Too little room for the copy (R365). -/
theorem distanceSymbol_outputOverflow {dsym d : Nat} {c : Cursor} (h : resolveDistance dsym s = .ok (d, c))
    (hfits : s.outLen.toNat ≤ s.params.outMemSize.toNat)
    (hfull : s.params.outMemSize.toNat < s.outLen.toNat + s.copyLen) : failsWith (distanceSymbol dsym s) 3 0x80 s := by
  have hcopy : lz77Copy s.copyLen d ((s.setCursor c).setCopyDist d) = .error .outputOverflow :=
    lz77Copy_full hfits hfull
  rw [distanceSymbol_of_ok h, hcopy]
  exact raise_failsWith (by decide) { HostKept.refl s with }

/-- A row of the distance table is the distance symbol of its place (R332). -/
theorem exec_mem_distanceRows {i : Instr} {base extra : Nat} (h : (i, base, extra) ∈ distanceRows) (s : State) :
    ∃ k ≤ 29, exec i s = distanceSymbol k s ∧ base = dbase.getD k 0 ∧ extra = dextra.getD k 0 := by
  obtain ⟨k, hk⟩ := List.mem_iff_getElem?.1 h
  have hlt : k < 30 := (List.getElem?_eq_some_iff.1 hk).1
  exact ⟨k, by omega, exec_distanceRow hk s⟩

/-- Each value is the one `d` before it, so each is the one of the first `d` at its place modulo `d` (R363). -/
theorem eq_of_repeats {α : Type} {f : Nat → α} {p d n : Nat} (h1 : 1 ≤ d) (h : ∀ k < n, f (p + (d + k)) = f (p + k))
    {j : Nat} (hj : j < d + n) : f (p + j) = f (p + j % d) := by
  induction j using Nat.strongRecOn with
  | ind j ih =>
    by_cases hlt : j < d
    · rw [Nat.mod_eq_of_lt hlt]
    · obtain ⟨k, rfl⟩ := Nat.exists_eq_add_of_le (Nat.not_lt.1 hlt)
      rw [h k (by omega), Nat.add_mod_left]
      exact ih k (by omega) (by omega)

/-- A copy with room writes the `d` bytes before the end over and over (R361, R363). -/
theorem lz77Copy_bytes {n d : Nat} (h1 : 1 ≤ d) (hd : d ≤ s.outLen.toNat)
    (hroom : s.outLen.toNat + n ≤ s.params.outMemSize.toNat) :
    ∃ t, lz77Copy n d s = .ok t ∧
      t = { s with outMem := t.outMem, outLen := BitVec.ofNat 32 (s.outLen.toNat + n) } ∧
      (∀ k < n, t.outByte (s.outLen.toNat + k) = s.outByte (s.outLen.toNat - d + k % d)) ∧
      ∀ a, a < s.outLen.toNat ∨ s.outLen.toNat + n ≤ a → t.outByte a = s.outByte a := by
  obtain ⟨t, hcopy, ht, hnew, hold⟩ := lz77Copy_room h1 hd hroom
  obtain ⟨p, hp⟩ := Nat.exists_eq_add_of_le' hd
  rw [hp] at hnew hold ⊢
  rw [Nat.add_sub_cancel]
  have hrepeats : ∀ k < n, t.outByte (p + (d + k)) = t.outByte (p + k) := fun k hk => by
    rw [← Nat.add_assoc, hnew k hk, Nat.add_right_comm, Nat.add_sub_cancel]
  refine ⟨t, hcopy, hp ▸ ht, fun k hk => ?_, hold⟩
  have hmod := Nat.mod_lt k h1
  rw [Nat.add_assoc, eq_of_repeats h1 hrepeats (by omega), Nat.add_mod_left, hold _ (.inl (by omega))]

/-- Settles O29: the row's values are those of the tables of R332, and the copy repeats the bytes it begins at. -/
theorem distanceSymbolsCopyFromTheOutput : Obligations.DistanceSymbolsCopyFromTheOutput := by
  unfold Obligations.DistanceSymbolsCopyFromTheOutput
  intro i base extra hi s d hl hbits hd hreach hroom
  obtain ⟨k, hk, hexec, rfl, rfl⟩ := exec_mem_distanceRows hi s
  have hrange := distance_range k _ hk (s.fieldAt_lt s.cursor.consumed (dextra.getD k 0))
  have hdistance := resolveDistance_legal hl k
  rw [if_neg (by omega), if_pos hbits, ← hd, if_neg (by omega)] at hdistance
  rw [← hd] at hrange
  obtain ⟨t, hcopy, ht, hnew, hold⟩ := lz77Copy_bytes
    (s := (s.setCursor (cursorAt (s.cursor.consumed + dextra.getD k 0))).setCopyDist d) hrange.1 hreach hroom
  refine ⟨hrange.1, hrange.2, t.setExpect .litlen, ?_, ?_, hnew, hold⟩
  · rw [hexec, distanceSymbol_of_ok hdistance, hcopy]
  · rw [ht]
    rfl

/-- Settles O30: the distance is resolved first, and OUT can only fill up in the copy. -/
theorem distanceSymbolsFailInOrder : Obligations.DistanceSymbolsFailInOrder := by
  unfold Obligations.DistanceSymbolsFailInOrder
  intro i base extra hi s hl
  obtain ⟨k, hk, hexec, rfl, rfl⟩ := exec_mem_distanceRows hi s
  have hdistance := resolveDistance_legal hl k
  rw [if_neg (by omega)] at hdistance
  rw [hexec]
  refine ⟨fun hshort => ?_, fun hbits hbeyond => ?_, fun hbits hreach hfits hfull => ?_⟩
  · rw [if_neg (Nat.not_le.2 hshort)] at hdistance
    rw [distanceSymbol_error hdistance]
    exact raise_failsWith (by decide) (.refl s)
  · rw [if_pos hbits, if_pos hbeyond] at hdistance
    rw [distanceSymbol_error hdistance]
    exact raise_failsWith (by decide) (.refl s)
  · rw [if_pos hbits, if_neg (Nat.not_lt.2 hreach)] at hdistance
    exact distanceSymbol_outputOverflow hdistance hfits hfull

/-! ### The forms of the copy (48_lz77_expander.md R362) -/

/-- A source that begins `d ≥ 1` bytes before the end never reaches the growing end, so it does not wrap there. -/
theorem lz77CopyWrapping_eq {d : Nat} (h1 : 1 ≤ d) (start n : Nat) (hd : d ≤ s.outLen.toNat)
    (hfits : s.outLen.toNat ≤ s.params.outMemSize.toNat) :
    lz77CopyWrapping start n (s.outLen.toNat - d) s = lz77Copy n d s := by
  induction n generalizing s with
  | zero => rfl
  | succ n ih =>
    rw [lz77CopyWrapping, lz77Copy]
    cases happ : append (s.outByte (s.outLen.toNat - d)) s with
    | error e => rfl
    | ok t =>
      have ht := append_appended hfits happ
      have hlen := ht.outLen
      dsimp only
      rw [if_neg (by omega), show s.outLen.toNat - d + 1 = t.outLen.toNat - d by omega]
      exact ih (by omega) (ht.params ▸ ht.fits)

/-- `k` bytes of a copy at distance `d` that began at end `p + d` are written: each is the byte `d` before it. -/
structure CopiedFrom (p d k : Nat) (s : State) : Prop where
  outLen : s.outLen.toNat = p + d + k
  fits : s.outLen.toNat ≤ s.params.outMemSize.toNat
  repeats : ∀ j < k, s.outByte (p + (d + j)) = s.outByte (p + j)

theorem CopiedFrom.source {p d k : Nat} (h : CopiedFrom p d k s) (h1 : 1 ≤ d) :
    s.outByte (p + k % d) = s.outByte (s.outLen.toNat - d) := by
  rw [← eq_of_repeats h1 h.repeats (by omega), h.outLen, Nat.add_right_comm, Nat.add_sub_cancel]

/-- The next byte of the copy. -/
theorem CopiedFrom.append {p d k : Nat} (h : CopiedFrom p d k s) (h1 : 1 ≤ d)
    (hroom : s.outLen.toNat < s.params.outMemSize.toNat) :
    ∃ t, append (s.outByte (s.outLen.toNat - d)) s = .ok t ∧ CopiedFrom p d (k + 1) t := by
  obtain ⟨t, happ, ht, hlen, hnew, hold⟩ := append_at_end (v := s.outByte (s.outLen.toNat - d)) hroom
  have hparams : t.params = s.params := by rw [ht]
  have hend := h.outLen
  refine ⟨t, happ, by omega, by rw [hparams]; omega, fun j hj => ?_⟩
  rcases Nat.lt_succ_iff_lt_or_eq.1 hj with hlt | rfl
  · rw [hold _ (by omega), hold _ (by omega)]
    exact h.repeats j hlt
  · rw [← Nat.add_assoc, ← hend, hnew, hold _ (by omega), hend, Nat.add_right_comm, Nat.add_sub_cancel]

/-- A source that wraps at the old end is at its place modulo `d`, where the byte is the one `d` before the end. -/
theorem CopiedFrom.lz77CopyWrappingAt_eq {p d k : Nat} (h : CopiedFrom p d k s) (h1 : 1 ≤ d) (n : Nat) :
    lz77CopyWrappingAt (p + d) p n (p + k % d) s = lz77Copy n d s := by
  induction n generalizing s k with
  | zero => rfl
  | succ n ih =>
    rw [lz77CopyWrappingAt, lz77Copy, h.source h1]
    by_cases hfull : s.outLen.toNat = s.params.outMemSize.toNat
    · rw [append_full hfull]
    · obtain ⟨t, happ, ht⟩ := h.append h1 (Nat.lt_of_le_of_ne h.fits hfull)
      have hnext : (if p + k % d + 1 = p + d then p else p + k % d + 1) = p + (k + 1) % d := by
        have hlt := Nat.mod_lt k h1
        rw [← Nat.mod_add_mod]
        split
        · rw [show k % d + 1 = d by omega, Nat.mod_self, Nat.add_zero]
        · rw [Nat.mod_eq_of_lt (by omega : k % d + 1 < d), Nat.add_assoc]
      rw [happ]
      dsimp only
      rw [hnext]
      exact ih ht

/-- Settles O31: neither wrap changes the bytes the source is read at. -/
theorem wrappingCopiesWriteTheSameBytes : Obligations.WrappingCopiesWriteTheSameBytes := by
  unfold Obligations.WrappingCopiesWriteTheSameBytes
  intro s len d h1 hd hfits
  refine ⟨lz77CopyWrapping_eq h1 _ len hd hfits, ?_⟩
  have hstop : s.outLen.toNat - d + d = s.outLen.toNat := Nat.sub_add_cancel hd
  have hcopy : CopiedFrom (s.outLen.toNat - d) d 0 s := ⟨hstop.symm, hfits, nofun⟩
  have h := hcopy.lz77CopyWrappingAt_eq h1 len
  rwa [Nat.zero_mod, Nat.add_zero, hstop] at h

end Sys2Proof.Machine
end

section
/-! The host's commands and registers (49_host_interface.md R381 to R388), and its accesses to the memories and to a
running call (R380, R390). -/

namespace Sys2Proof.Machine

variable {s : State}

/-! ### START and IN_LEN -/

/-- A START outside a call looks at the length of the stream (R381). -/
theorem execHostStart_of_not_busy {data : Word} (hbit : data.getLsbD 0 = true) (hb : s.busy = false) :
    execHostStart data s =
      if s.params.inMemSize.toNat < s.inLen.toNat then raise .inLenTooLarge s else .next s.startCall := by
  rw [execHostStart, if_neg (by rw [hbit]; nofun), if_neg (Bool.eq_false_iff.1 hb)]
  rfl

/-- Settles O37: the bit, the running call and the length of the stream are looked at in turn. -/
theorem startBeginsACall : Obligations.StartBeginsACall := by
  unfold Obligations.StartBeginsACall
  intro s data
  have hexec : exec (.hostStart data) s = execHostStart data s := rfl
  rw [hexec]
  refine ⟨fun hbit => if_pos hbit, fun hb => ?_, fun hbit hb hlong => ?_, fun hbit hb hfits => ?_⟩
  · rw [execHostStart, if_pos hb, ite_self]
  · rw [execHostStart_of_not_busy hbit hb, if_pos hlong]
    exact raise_failsWith (by decide) (.refl s)
  · rw [execHostStart_of_not_busy hbit hb, if_neg (Nat.not_lt.2 hfits)]
    exact ⟨s.startCall, rfl, rfl⟩

/-- A read of IN_LEN, which has no row (10_state.md R53). -/
theorem hostAccess_readInLen {a : RegAccess} (hw : a.width = .word) (hwr : a.write = false)
    (hd : decodeHostRead a.offset = .error .inLenReadHasNoRow) (s : State) : hostAccess a s = readInLen s := by
  simp [hostAccess, hw, hwr, hd]

/-- Settles O38: the write looks at BUSY alone, and the read is the access without a row. -/
theorem inLenIsWrittenOnlyWhileIdle : Obligations.InLenIsWrittenOnlyWhileIdle := by
  unfold Obligations.InLenIsWrittenOnlyWhileIdle
  intro s data
  have hexec : exec (.hostWriteInLen data) s = execHostWriteInLen data s := rfl
  have hread : decodeHostRead 0x08 = .error .inLenReadHasNoRow := rfl
  rw [hexec, execHostWriteInLen]
  exact ⟨fun hb => if_pos hb, fun hb => if_neg (Bool.eq_false_iff.1 hb), hostAccess_readInLen rfl rfl hread s⟩

/-! ### The result registers -/

theorem outLenWord_of_ne_done (hp : s.phase ≠ .done) : s.outLenWord = 0 := if_neg hp

theorem exec_hostReadOutLen {w : Word} (h : s.outLenWord = w) :
    exec .hostReadOutLen s = .next { s with hostWord := w } := h ▸ rfl

theorem execHostReadInPos_done (hp : s.phase = .done) : execHostReadInPos s = .next (s.giveWord s.cursor.pos) := by
  rw [execHostReadInPos, hp]

theorem execHostReadInPos_idle (hp : s.phase = .idle) : execHostReadInPos s = .next (s.giveWord 0) := by
  rw [execHostReadInPos, hp]

theorem execHostReadInBits_done (hp : s.phase = .done) :
    execHostReadInBits s = .next (s.giveWord (BitVec.ofNat 32 s.cursor.left.toNat)) := by
  rw [execHostReadInBits, hp, BitVec.ofNat_toNat]

theorem execHostReadInBits_idle (hp : s.phase = .idle) : execHostReadInBits s = .next (s.giveWord 8) := by
  rw [execHostReadInBits, hp]

/-- IN_POS while BUSY or in ERROR is a free value (10_state.md R55). -/
theorem execHostReadInPos_free (h : s.busy = true ∨ s.phase = .error) :
    execHostReadInPos s = .next (s.drawFree.giveWord (Config.freeInPos s.freeDraw)) := by
  unfold State.busy at h
  unfold execHostReadInPos
  cases hp : s.phase with
  | readFinal | readType | decodeBlock | error => rfl
  | idle | done => rw [hp] at h; rcases h with hb | he <;> contradiction

/-- IN_BITS while BUSY or in ERROR is a free value of four bits (R56, R58). -/
theorem execHostReadInBits_free (h : s.busy = true ∨ s.phase = .error) :
    execHostReadInBits s = .next (s.drawFree.giveWord ((Config.freeInBits s.freeDraw).setWidth 32)) := by
  unfold State.busy at h
  unfold execHostReadInBits
  cases hp : s.phase with
  | readFinal | readType | decodeBlock | error => rfl
  | idle | done => rw [hp] at h; rcases h with hb | he <;> contradiction

/-- Settles O40: the word of each register in each phase. -/
theorem resultRegistersReadTheFinalCursor : Obligations.ResultRegistersReadTheFinalCursor := by
  unfold Obligations.ResultRegistersReadTheFinalCursor
  intro s
  have hbits := (Config.freeInBits s.freeDraw).isLt
  refine ⟨fun hp => ⟨exec_hostReadOutLen (if_pos hp), execHostReadInPos_done hp, execHostReadInBits_done hp⟩,
    fun hp => exec_hostReadOutLen (outLenWord_of_ne_done hp),
    fun hp => ⟨execHostReadInPos_idle hp, execHostReadInBits_idle hp⟩,
    fun h => ⟨⟨_, execHostReadInPos_free h, rfl⟩, ⟨_, execHostReadInBits_free h, rfl, ?_⟩⟩, rfl, rfl⟩
  rw [State.giveWord_hostWord, BitVec.toNat_setWidth]
  omega

/-! ### The offsets with no effect -/

theorem decodeHostWrite_ignored {o : BitVec 8} (h : writeIgnoredOffset o = true) (x : Word) :
    decodeHostWrite o x = .ok (.hostWriteIgnored o x) := by
  simp only [writeIgnoredOffset, Bool.and_eq_true, bne_iff_ne, ne_eq] at h
  obtain ⟨⟨haligned, hctrl⟩, hlen⟩ := h
  rw [decodeHostWrite, haligned, if_neg hctrl, if_neg hlen]
  rfl

theorem decodeHostRead_reserved {o : BitVec 8} (h : readReservedOffset o = true) :
    decodeHostRead o = .ok (.hostReadReserved o) := by
  have hdecode := Laws.RoundTrip.decodeHostRead_of_decode (Laws.RoundTrip.decode_encode (.hostReadReserved o) h)
  rwa [show BitVec.ofNat 8 (encode (.hostReadReserved o)).2 = o by simp [encode]] at hdecode

/-- Settles O41: such an offset decodes to the row with no effect. -/
theorem readOnlyAndReservedOffsets : Obligations.ReadOnlyAndReservedOffsets := by
  unfold Obligations.ReadOnlyAndReservedOffsets
  intro s o data
  refine ⟨fun h => ⟨rfl, ?_⟩, fun h => ⟨rfl, ?_⟩⟩
  · exact hostAccess_write (a := ⟨true, .word, o, data⟩) rfl rfl (decodeHostWrite_ignored h data) s
  · exact hostAccess_read (a := ⟨false, .word, o, data⟩) rfl rfl (decodeHostRead_reserved h) s

/-! ### Accesses to the memories -/

/-- Settles O43: a write lists the byte at its address, and a read gives the byte there. -/
theorem memoryAccessesFollowTheHostTable : Obligations.MemoryAccessesFollowTheHostTable := by
  unfold Obligations.MemoryAccessesFollowTheHostTable
  intro s a b
  simp only [hostStep, hostWriteIn, hostWriteOut, hostReadIn, hostReadOut]
  refine ⟨fun hb => ⟨if_pos hb, if_pos hb⟩, fun hb ha => ?_, fun hb ha => ?_, fun ha => if_pos ha, fun ha hb => ?_,
    fun ha hb => ?_⟩
  · rw [if_neg (Bool.eq_false_iff.1 hb), if_pos ha]
    refine ⟨_, rfl, rfl, ?_, fun x hx => ?_⟩
    · simp [State.inByte]
    · simp [State.inByte, Memory.read_write_other _ _ hx]
  · rw [if_neg (Bool.eq_false_iff.1 hb), if_pos ha]
    refine ⟨_, rfl, rfl, ?_, fun x hx => ?_⟩
    · simp [State.outByte]
    · simp [State.outByte, Memory.read_write_other _ _ hx]
  · rw [if_pos ha, if_neg (Bool.eq_false_iff.1 hb)]
    rfl
  · rw [if_pos ha, if_pos hb]
    exact ⟨_, rfl, rfl⟩

/-! ### Register accesses -/

/-- Everything a register access can be: refused, a write of a register, or the read of a word (R390). -/
inductive AccessAnswer (s : State) (o : Out) : Prop where
  | refused (r : Refusal) (ho : o = .refused r)
  | start (x : Word) (ho : o = execHostStart x s)
  | writeInLen (x : Word) (ho : o = execHostWriteInLen x s)
  | ignored (ho : o = .next s)
  | read (h : GivesWord s o)

theorem hostAccess_answer (a : RegAccess) (s : State) : AccessAnswer s (hostAccess a s) := by
  unfold hostAccess
  split
  · exact .refused _ rfl
  split
  · rename_i i hd
    split at hd
    · rcases decodeHostWrite_ok hd with rfl | rfl | rfl
      · exact .start _ rfl
      · exact .writeInLen _ rfl
      · exact .ignored rfl
    · exact .read (exec_of_decodeHostRead hd s)
  · exact .read ⟨s.inLen, .inl rfl⟩
  · exact .refused _ rfl

/-! ### A running call -/

/-- `t` is `s` but for what the host has read and the count of free values. -/
def ReadOnly (s t : State) : Prop :=
  t = { s with hostWord := t.hostWord, hostByte := t.hostByte, freeDraw := t.freeDraw }

/-- While BUSY the writes of CTRL and IN_LEN are ignored as the others are (R382, R383). -/
theorem hostAccess_readOnly {a : RegAccess} {t : State} (hb : s.busy = true) (ht : hostAccess a s = .next t) :
    ReadOnly s t := by
  cases hostAccess_answer a s with
  | refused r ho => cases ho.symm.trans ht
  | start x ho =>
    rw [ho, execHostStart, if_pos hb, ite_self] at ht
    cases ht
    rfl
  | writeInLen x ho =>
    rw [ho, execHostWriteInLen, if_pos hb] at ht
    cases ht
    rfl
  | ignored ho => cases ho.symm.trans ht; rfl
  | read h => obtain ⟨w, ho | ho⟩ := h <;> (cases ho.symm.trans ht; rfl)

/-- Settles O44: while BUSY a write of a register is ignored, a write of a memory is refused, and a read only reads. -/
theorem hostCannotDisturbARunningCall : Obligations.HostCannotDisturbARunningCall := by
  unfold Obligations.HostCannotDisturbARunningCall
  intro s t a hb hne ht
  cases a with
  | reg a => exact hostAccess_readOnly hb ht
  | writeIn a b => cases (if_pos hb).symm.trans ht
  | writeOut a b => cases (if_pos hb).symm.trans ht
  | readIn a =>
    simp only [hostStep, hostReadIn] at ht
    split at ht <;> cases ht
    rfl
  | readOut a =>
    simp only [hostStep, hostReadOut, if_pos hb] at ht
    split at ht <;> cases ht
    rfl
  | reset => exact absurd rfl hne

end Sys2Proof.Machine
end

section
/-! Entry into the error state and reset (60_exceptions.md R400 to R403, 70_reset_and_hazards.md R450, R451). -/

namespace Sys2Proof.Machine

/-! ### Entry into the error state -/

/-- Settles O16: each phase raises the cause of its failed read. -/
theorem failedReadEndsTheCall : Obligations.FailedReadEndsTheCall := by
  unfold Obligations.FailedReadEndsTheCall
  intro s e hq he
  have hraise : failsWith (raise e s) e.kind.code e.code s := raise_failsWith he (.refl s)
  refine ⟨fun hp hr => ?_, fun hp hr => ?_, fun hp hr => ?_⟩
  · rwa [step_readFinal hq hp, readFinalStep, hr]
  · rwa [step_readType hq hp, hr]
  · rwa [step_decodeBlock hq hp, hr]

theorem Cause.mem_errorRows (c : Cause) : (c, c.kind.code, c.code) ∈ errorRows := by
  cases c <;> decide

theorem ErrKind.code_eq_two_iff (k : ErrKind) : k.code = 2 ↔ k = .internalBug := by
  cases k <;> decide

/-- Settles O47: the row of a cause is its kind and its number, and `raise` records both. -/
theorem errorEntryRecordsKindAndCause : Obligations.ErrorEntryRecordsKindAndCause := by
  unfold Obligations.ErrorEntryRecordsKindAndCause
  intro c
  refine ⟨c.kind.code, c.code, c.mem_errorRows, fun s => ⟨fun hk => ?_, fun hk => ?_⟩⟩
  · have hc : c.kind ≠ .internalBug := fun he => hk ((ErrKind.code_eq_two_iff _).2 he)
    refine ⟨raise_failsWith hc (.refl s), fun t ht => ?_⟩
    obtain ⟨-, rfl⟩ := raise_eq_next ht
    exact ⟨outLenWord_of_ne_done nofun, statusWord_error rfl rfl rfl⟩
  · exact if_pos ((ErrKind.code_eq_two_iff _).1 hk)

/-! ### Reset -/

/-- Settles O48: the reset values, field by field. -/
theorem resetLeavesTheListedValues : Obligations.ResetLeavesTheListedValues := by
  unfold Obligations.ResetLeavesTheListedValues
  refine ⟨fun s => ⟨s.assertReset, rfl, rfl, rfl, rfl, rfl, rfl, rfl, rfl, rfl, rfl, rfl, ?_, ?_⟩,
    rfl, rfl, rfl, rfl, rfl, rfl, rfl, rfl, rfl, ?_, ?_⟩
  · exact statusWord_idle rfl rfl rfl
  · exact outLenWord_of_ne_done nofun
  · exact statusWord_idle rfl rfl rfl
  · exact outLenWord_of_ne_done nofun

/-- The state after reset is what reset leaves of a machine of its sizes that has drawn no free value. -/
theorem assertReset_eq_reset : State.assertReset { State.reset with freeDraw := 0 } = State.reset := rfl

/-- Settles O49: reset meets the invariant from any state whose memories have a size. -/
theorem resetMeetsTheInvariant : Obligations.ResetMeetsTheInvariant := by
  unfold Obligations.ResetMeetsTheInvariant
  rw [← assertReset_eq_reset]
  exact assertReset_inv (by decide)

end Sys2Proof.Machine
end

section
/-! The causes a step of a call can end it with: none is an InternalBug (60_exceptions.md R402), and the ones the spec
calls unreachable are not among them (46_dynamic_block.md R303, R307; 47_length_distance.md R335, R336, R338). -/

namespace Sys2Proof.Machine

/-- The outcome is a next state outside ERROR, or the failure of a cause of `cs`. -/
inductive FailsOnly (cs : List Cause) (o : Out) : Prop where
  | next (t : State) (hp : t.phase ≠ .error) (ho : o = .next t)
  | fails (c : Cause) (u : State) (hc : c ∈ cs) (ho : o = raise c u)

variable {s t : State} {cs : List Cause} {o : Out}

theorem next_failsOnly (h : t.phase ≠ .error) : FailsOnly cs (.next t) := .next t h rfl

theorem raise_failsOnly {c : Cause} (h : c ∈ cs) (u : State) : FailsOnly cs (raise c u) := .fails c u h rfl

theorem failsOnly_ite {p : Prop} [Decidable p] {a b : Out} (ha : p → FailsOnly cs a) (hb : ¬p → FailsOnly cs b) :
    FailsOnly cs (if p then a else b) := by
  split
  · exact ha ‹_›
  · exact hb ‹_›

/-- Without an InternalBug among the causes there is a next state. -/
theorem FailsOnly.answers (h : FailsOnly cs o) (hcs : ∀ c ∈ cs, c.kind ≠ .internalBug) : ∃ t, o = .next t := by
  cases h with
  | next t hp ho => exact ⟨t, ho⟩
  | fails c u hc ho => exact ⟨_, ho.trans (raise_next (hcs c hc) u)⟩

/-- The cause recorded is one of them. -/
theorem FailsOnly.cause (h : FailsOnly cs o) (ht : o = .next t) (hp : t.phase = .error) :
    ∃ c ∈ cs, t.errCause = c.code := by
  cases h with
  | next u hu ho =>
    cases ho.symm.trans ht
    exact absurd hp hu
  | fails c u hc ho =>
    obtain ⟨-, rfl⟩ := raise_eq_next (ho.symm.trans ht)
    exact ⟨c, hc, rfl⟩

/-! ### Reads -/

/-- A read that fails, or an element run with the cursor past it. -/
theorem runFetched_failsOnly {f : Except Cause (Instr × Cursor)} (herr : ∀ e, f = .error e → e ∈ cs)
    (hok : ∀ i c, f = .ok (i, c) → FailsOnly cs (exec i (s.setCursor c))) : FailsOnly cs (runFetched f s) := by
  cases f with
  | error e => exact raise_failsOnly (herr e rfl) s
  | ok r => exact hok r.1 r.2 rfl

theorem fetchBlockHeader_endOfInput {e : Cause} (hr : fetchBlockHeader s = .error e) : e = .endOfInput := by
  unfold fetchBlockHeader at hr
  cases hb : readBits 2 s <;> rw [hb] at hr <;> cases hr
  exact readBits_error (by decide) hb

theorem fetchStoredHeader_endOfInput {e : Cause} (h8 : s.cursor.left = 8) (hr : fetchStoredHeader s = .error e) :
    e = .endOfInput := by
  unfold fetchStoredHeader at hr
  cases hb : readBytes 4 s <;> rw [hb] at hr <;> cases hr
  exact readBytes_error h8 hb

theorem fetchDynamicHeader_endOfInput {e : Cause} (hr : fetchDynamicHeader s = .error e) : e = .endOfInput := by
  unfold fetchDynamicHeader at hr
  split at hr
  · rename_i hb
    cases hr
    exact readBits_error (by decide) hb
  split at hr
  · rename_i hb
    cases hr
    exact readBits_error (by decide) hb
  split at hr
  · rename_i hb
    cases hr
    exact readBits_error (by decide) hb
  · cases hr

/-- A symbol decoded by a table of symbols below `n`. -/
theorem Table.symbolsBelow.decode_lt {tab : Table} {n : Nat} (h : Table.symbolsBelow tab n) (hl : s.CursorLegal)
    {lmin lmax sym : Nat} {c : Cursor} (h1 : 1 ≤ lmin) (h15 : lmax ≤ 15)
    (hd : decodeSymbol tab lmin lmax s = .ok (sym, c)) : sym < n := by
  obtain ⟨e, he, rfl⟩ := decodeSymbol_mem hl h1 h15 hd
  exact (h e he).1

/-! ### Stored and dynamic headers -/

theorem endBlock_failsOnly : FailsOnly cs (.next s.endBlock) :=
  next_failsOnly (by rw [State.endBlock_phase]; split <;> nofun)

theorem execHdrStored_failsOnly (h8 : s.cursor.left = 8) (len nlen : BitVec 16) :
    FailsOnly [.endOfInput, .storedLenMismatch, .outputOverflow] (execHdrStored len nlen s) := by
  refine failsOnly_ite (fun _ => raise_failsOnly (by decide) _) fun _ =>
    failsOnly_ite (fun _ => endBlock_failsOnly) fun _ => ?_
  cases hr : readBytes len.toNat (s.setStoredHeader len nlen) with
  | error c =>
    rw [readBytes_error h8 hr]
    exact raise_failsOnly (by decide) _
  | ok r =>
    dsimp only
    cases ha : appendAll r.1 ((s.setStoredHeader len nlen).setCursor r.2) with
    | error c =>
      rw [appendAll_error ha]
      exact raise_failsOnly (by decide) _
    | ok t => exact endBlock_failsOnly

theorem execHdrDynamic_failsOnly (hp : s.phase ≠ .error) (a b : BitVec 5) (n : BitVec 4) :
    FailsOnly [.endOfInput, .hlitRange, .hdistRange] (execHdrDynamic a b n s) := by
  have hcounts : (s.setCounts (hlitOf a) (hdistOf b) (hclenOf n)).phase ≠ .error := hp
  unfold execHdrDynamic
  generalize s.setCounts (hlitOf a) (hdistOf b) (hclenOf n) = u at hcounts ⊢
  refine failsOnly_ite (fun _ => raise_failsOnly (by decide) u) fun _ =>
    failsOnly_ite (fun _ => raise_failsOnly (by decide) u) fun _ => ?_
  cases hr : readClens (clenOrder.take u.hclen) (List.replicate 19 0) u with
  | error c =>
    rw [readClens_error hr]
    exact raise_failsOnly (by decide) u
  | ok r => exact next_failsOnly hcounts

/-! ### Code-length symbols -/

/-- The causes of a code-length symbol (46_dynamic_block.md R299, R302). -/
abbrev clenCauses : List Cause := [.endOfInput, .noMatchingCode, .repeatNoPrevious, .repeatOverflow]

theorem putLengths_failsOnly (hp : s.phase ≠ .error) (v : BitVec 4) (r : Nat) :
    FailsOnly cs (.next (s.putLengths v r).continueLengths) :=
  next_failsOnly (by rwa [State.continueLengths_phase])

theorem readRepeat_failsOnly (hp : s.phase ≠ .error) (v : BitVec 4) (base : Nat) {n : Nat} (hn : n ≤ 32) :
    FailsOnly clenCauses (readRepeat v base n s) := by
  unfold readRepeat
  cases hr : readBits n s with
  | error c =>
    rw [readBits_error hn hr]
    exact raise_failsOnly (by decide) s
  | ok q =>
    exact failsOnly_ite (fun _ => raise_failsOnly (by decide) _) fun _ =>
      putLengths_failsOnly (s := s.setCursor q.2) hp v _

theorem clen_failsOnly (hp : s.phase ≠ .error) {sym : Nat} {i : Instr} (hi : decodeClen sym = some i) :
    FailsOnly clenCauses (exec i s) := by
  rw [exec_of_decodeClen hi]
  refine failsOnly_ite (fun _ => putLengths_failsOnly hp _ 1) fun _ => failsOnly_ite (fun _ => ?_) fun _ =>
    failsOnly_ite (fun _ => readRepeat_failsOnly hp 0 3 (by decide)) fun _ => readRepeat_failsOnly hp 0 11 (by decide)
  cases hlast : s.lens.getLast? with
  | none =>
    rw [execClRepeatPrev_of_empty (List.getLast?_eq_none_iff.1 hlast)]
    exact raise_failsOnly (by decide) s
  | some prev =>
    rw [execClRepeatPrev_of_last hlast]
    exact readRepeat_failsOnly hp prev 3 (by decide)

/-- META_TAB has no symbol above 18, so CLEN_SYMBOL_RANGE does not arise (R307). -/
theorem fetchCodeLength_error_mem (hl : s.CursorLegal) (htab : Table.symbolsBelow s.metaTab 19) {e : Cause}
    (he : fetchCodeLength s = .error e) : e ∈ clenCauses := by
  unfold fetchCodeLength at he
  split at he
  · rename_i hd
    cases he
    rcases decodeSymbol_error hl (by decide) (by decide) hd with rfl | rfl <;> decide
  · rename_i sym c hd
    have hlt := htab.decode_lt hl (by decide) (by decide) hd
    split at he
    · cases he
    · rename_i hnone
      have := (decodeClen_none_iff sym).1 hnone
      omega

theorem codeLengthStep_failsOnly (hl : s.CursorLegal) (hp : s.phase ≠ .error) (htab : Table.symbolsBelow s.metaTab 19) :
    FailsOnly clenCauses (runFetched (fetchCodeLength s) s) := by
  refine runFetched_failsOnly (fun e he => fetchCodeLength_error_mem hl htab he) fun i c hi => ?_
  obtain ⟨sym, hrow⟩ := fetchCodeLength_row hi
  exact clen_failsOnly (s := s.setCursor c) hp hrow

/-! ### Literal/length symbols -/

/-- The causes of a literal/length symbol in a block of type `bt` (45_fixed_block.md R276, 46_dynamic_block.md R306). -/
def litlenCauses (bt : BitVec 2) : List Cause :=
  if bt = 1 then [.endOfInput, .litlenSymbolRange, .outputOverflow]
  else [.endOfInput, .noMatchingCode, .noDistanceTable, .outputOverflow]

theorem mem_litlenCauses (bt : BitVec 2) : .endOfInput ∈ litlenCauses bt ∧ .outputOverflow ∈ litlenCauses bt := by
  unfold litlenCauses
  split <;> decide

/-- A literal/length code: only a dynamic block can lack a match (R213), and its symbols are below 286 (R303). -/
theorem litlenCode_error (hl : s.CursorLegal) {e : Cause} (hd : litlenCode s = .error e) :
    e ∈ litlenCauses s.btype := by
  unfold litlenCode at hd
  unfold litlenCauses
  split at hd
  · rw [if_pos ‹_›]
    rcases fixedTableAlwaysYieldsASymbol s hl with ⟨sym, L, -, -, -, hok⟩ | herr
    · cases hok.symm.trans hd
    · cases herr.symm.trans hd
      decide
  · rw [if_neg ‹_›]
    rcases decodeSymbol_error hl (by decide) (by decide) hd with rfl | rfl <;> decide

theorem litlenCode_lt (hl : s.CursorLegal) (htab : Table.symbolsBelow s.litlenTab 286) {sym : Nat} {c : Cursor}
    (hd : litlenCode s = .ok (sym, c)) : sym < 288 ∧ (s.btype ≠ 1 → sym < 286) := by
  unfold litlenCode at hd
  split at hd
  · rename_i h1
    exact ⟨fixedLitlen_symbolsBelow.decode_lt hl (by decide) (by decide) hd, fun hne => absurd h1 hne⟩
  · have hlt := htab.decode_lt hl (by decide) (by decide) hd
    exact ⟨by omega, fun _ => hlt⟩

theorem lengthSymbol_failsOnly (hl : s.CursorLegal) (hp : s.phase ≠ .error) {sym : Nat}
    (hsym : s.btype ≠ 1 → sym < 286) : FailsOnly (litlenCauses s.btype) (lengthSymbol sym s) := by
  have hlength := resolveLength_legal hl sym
  unfold lengthSymbol
  by_cases hrange : 28 < sym - 257
  · have h1 : s.btype = 1 := by
      by_contra hne
      have := hsym hne
      omega
    rw [hlength, if_pos hrange, h1]
    exact raise_failsOnly (by decide) s
  rw [hlength, if_neg hrange]
  split
  · rename_i e heq
    split at heq <;> cases heq
    exact raise_failsOnly (mem_litlenCauses _).1 s
  · refine failsOnly_ite (fun h => ?_) fun _ => next_failsOnly hp
    rw [show s.btype = 2 from h.1]
    exact raise_failsOnly (by decide) _

theorem litlen_failsOnly (hl : s.CursorLegal) (hp : s.phase ≠ .error) {sym : Nat} {i : Instr}
    (hi : decodeLitlen sym = some i) (hsym : s.btype ≠ 1 → sym < 286) :
    FailsOnly (litlenCauses s.btype) (exec i s) := by
  rw [exec_of_decodeLitlen hi]
  refine failsOnly_ite (fun _ => ?_) fun _ => failsOnly_ite (fun _ => endBlock_failsOnly) fun _ =>
    lengthSymbol_failsOnly hl hp hsym
  unfold execLit
  cases ha : append (BitVec.ofNat 8 sym) s with
  | error c =>
    rw [(append_error ha).1]
    exact raise_failsOnly (mem_litlenCauses _).2 s
  | ok t =>
    obtain ⟨-, rfl⟩ := append_ok ha
    exact next_failsOnly hp

/-! ### Distance symbols -/

/-- The causes of a distance symbol in a block of type `bt` (47_length_distance.md R337, R338; R306). -/
def distanceCauses (bt : BitVec 2) : List Cause :=
  if bt = 1 then [.endOfInput, .distSymbolRange, .distBeyondOutput, .outputOverflow]
  else [.endOfInput, .noMatchingCode, .distBeyondOutput, .outputOverflow]

theorem mem_distanceCauses (bt : BitVec 2) :
    .endOfInput ∈ distanceCauses bt ∧ .distBeyondOutput ∈ distanceCauses bt ∧ .outputOverflow ∈ distanceCauses bt := by
  unfold distanceCauses
  split <;> decide

theorem distanceCode_error (hl : s.CursorLegal) {e : Cause} (hd : distanceCode s = .error e) :
    e ∈ distanceCauses s.btype := by
  unfold distanceCode at hd
  unfold distanceCauses
  split at hd
  · rw [if_pos ‹_›]
    cases hr : readBits 5 s <;> rw [hr] at hd <;> cases hd
    rw [readBits_error (by decide) hr]
    decide
  · rw [if_neg ‹_›]
    rcases decodeSymbol_error hl (by decide) (by decide) hd with rfl | rfl <;> decide

theorem distanceCode_lt (hl : s.CursorLegal) (htab : Table.symbolsBelow s.distTab 30) {dsym : Nat} {c : Cursor}
    (hd : distanceCode s = .ok (dsym, c)) : dsym < 32 ∧ (s.btype ≠ 1 → dsym < 30) := by
  unfold distanceCode at hd
  split at hd
  · rename_i h1
    cases hr : readBits 5 s <;> rw [hr] at hd <;> cases hd
    exact ⟨revBits_lt 5 _, fun hne => absurd h1 hne⟩
  · have hlt := htab.decode_lt hl (by decide) (by decide) hd
    exact ⟨by omega, fun _ => hlt⟩

theorem resolveDistance_error_mem (hl : s.CursorLegal) {dsym : Nat} (hsym : s.btype ≠ 1 → dsym < 30) {e : Cause}
    (hr : resolveDistance dsym s = .error e) : e ∈ distanceCauses s.btype := by
  rw [resolveDistance_legal hl] at hr
  split at hr
  · rename_i hrange
    have h1 : s.btype = 1 := by
      by_contra hne
      have := hsym hne
      omega
    cases hr
    rw [h1]
    decide
  split at hr
  · split at hr <;> cases hr
    exact (mem_distanceCauses _).2.1
  · cases hr
    exact (mem_distanceCauses _).1

theorem distanceSymbol_failsOnly (hl : s.CursorLegal) (hp : s.phase ≠ .error) {dsym : Nat}
    (hsym : s.btype ≠ 1 → dsym < 30) : FailsOnly (distanceCauses s.btype) (distanceSymbol dsym s) := by
  cases hr : resolveDistance dsym s with
  | error e =>
    rw [distanceSymbol_error hr]
    exact raise_failsOnly (resolveDistance_error_mem hl hsym hr) s
  | ok r =>
    rw [distanceSymbol_of_ok hr]
    cases hc : lz77Copy s.copyLen r.1 ((s.setCursor r.2).setCopyDist r.1) with
    | error e =>
      rw [lz77Copy_error hc]
      exact raise_failsOnly (mem_distanceCauses _).2.2 _
    | ok t =>
      obtain ⟨m, k, -, rfl⟩ := lz77Copy_longer hc
      exact next_failsOnly hp

/-! ### The elements of a block -/

theorem fetchLitlen_of_error {e : Cause} (hd : litlenCode s = .error e) : fetchLitlen s = .error e := by
  refine (fetchLitlen_at s s.phase s.expect).trans ?_
  rw [hd]

theorem fetchDistance_of_error {e : Cause} (hd : distanceCode s = .error e) : fetchDistance s = .error e := by
  refine (fetchDistance_at s s.phase s.expect).trans ?_
  rw [hd]

theorem litlenStep_failsOnly (hl : s.CursorLegal) (hp : s.phase ≠ .error) (htab : Table.symbolsBelow s.litlenTab 286) :
    FailsOnly (litlenCauses s.btype) (runFetched (fetchLitlen s) s) := by
  cases hd : litlenCode s with
  | error e =>
    rw [fetchLitlen_of_error hd]
    exact raise_failsOnly (litlenCode_error hl hd) s
  | ok r =>
    obtain ⟨hlt, hsym⟩ := litlenCode_lt hl htab hd
    obtain ⟨i, hi⟩ := decodeLitlen_of_lt hlt
    have hfetch := fetchLitlen_of_code hd hi
    have hlegal : (s.setCursor r.2).CursorLegal := (fetchLitlen_ok hl hfetch).1.legal
    rw [hfetch]
    exact litlen_failsOnly (s := s.setCursor r.2) hlegal hp hi hsym

theorem distanceStep_failsOnly (hl : s.CursorLegal) (hp : s.phase ≠ .error) (htab : Table.symbolsBelow s.distTab 30) :
    FailsOnly (distanceCauses s.btype) (runFetched (fetchDistance s) s) := by
  cases hd : distanceCode s with
  | error e =>
    rw [fetchDistance_of_error hd]
    exact raise_failsOnly (distanceCode_error hl hd) s
  | ok r =>
    obtain ⟨hlt, hsym⟩ := distanceCode_lt hl htab hd
    obtain ⟨i, hi⟩ : ∃ i, decodeDist r.1 = some i := ⟨_, List.getElem?_eq_getElem hlt⟩
    have hfetch := fetchDistance_of_code hd hi
    have hlegal : (s.setCursor r.2).CursorLegal := (fetchDistance_ok hl hfetch).1.legal
    rw [hfetch, runFetched, exec_of_decodeDist hi]
    exact distanceSymbol_failsOnly (s := s.setCursor r.2) hlegal hp hsym

/-- The causes a block of type `bt` can fail with at each of its elements. -/
def elementCauses (bt : BitVec 2) : Element → List Cause
  | .storedHeader => [.endOfInput, .storedLenMismatch, .outputOverflow]
  | .dynamicHeader => [.endOfInput, .hlitRange, .hdistRange]
  | .codeLength => clenCauses
  | .litlen => litlenCauses bt
  | .distance => distanceCauses bt

theorem element_failsOnly (h : s.InCall) (hp : s.phase ≠ .error) (hparser : s.ParserInv) :
    FailsOnly (elementCauses s.btype s.expect) (runFetched (fetchElement s) s) := by
  have hl := h.legal
  unfold State.ParserInv at hparser
  unfold fetchElement
  cases hx : s.expect <;> rw [hx] at hparser <;> dsimp only at hparser ⊢
  case storedHeader =>
    refine runFetched_failsOnly (fun e he => ?_) fun i c hr => ?_
    · rw [fetchStoredHeader_endOfInput hparser.2 he]
      exact List.mem_cons_self
    · obtain ⟨-, h8, len, nlen, rfl⟩ := fetchStoredHeader_ok hr
      exact execHdrStored_failsOnly h8 len nlen
  case dynamicHeader =>
    refine runFetched_failsOnly (fun e he => ?_) fun i c hr => ?_
    · rw [fetchDynamicHeader_endOfInput he]
      exact List.mem_cons_self
    · obtain ⟨a, b, d, rfl⟩ := fetchDynamicHeader_row hr
      exact execHdrDynamic_failsOnly (s := s.setCursor c) hp a b d
  case codeLength => exact codeLengthStep_failsOnly hl hp h.metaTab
  case litlen => exact litlenStep_failsOnly hl hp h.litlenTab
  case distance => exact distanceStep_failsOnly hl hp h.distTab

/-- What none of these causes is, code-length symbols being of dynamic blocks only. -/
theorem elementCauses_reachable {bt : BitVec 2} {e : Element} (h : e = .codeLength → bt = 2) :
    ∀ c ∈ elementCauses bt e, c.kind ≠ .internalBug ∧ c.code ≠ 0x06 ∧ c.code ≠ 0x09 ∧ c.code ≠ 0x0F ∧
      (bt = 2 → c.code ≠ 0x05 ∧ c.code ≠ 0x08) ∧ (bt = 1 → c.code ≠ 0x04 ∧ c.code ≠ 0x07) := by
  cases e with
  | codeLength =>
    obtain rfl := h rfl
    decide
  | storedHeader | dynamicHeader | litlen | distance =>
    clear h
    revert bt
    decide

theorem State.ParserInv.btype_of_codeLength (h : s.ParserInv) (hx : s.expect = .codeLength) : s.btype = 2 := by
  unfold State.ParserInv at h
  rw [hx] at h
  exact h.1

/-- Settles O52: the causes at the element of the block, of which the unreachable ones are none. -/
theorem unreachableErrorsAreNeverReported : Obligations.UnreachableErrorsAreNeverReported := by
  unfold Obligations.UnreachableErrorsAreNeverReported
  intro s t h hq hd ht hp
  have hb : s.busy = true := by rw [State.busy, hd]; rfl
  obtain ⟨-, -, -, hparser⟩ := h.call hb
  have hfails := element_failsOnly (h.inCall hb) (phase_ne_error_of_busy hb) (hparser hd)
  rw [step_decodeBlock hq hd] at ht
  obtain ⟨c, hc, hcause⟩ := hfails.cause ht hp
  rw [hcause]
  exact (elementCauses_reachable (hparser hd).btype_of_codeLength c hc).2

/-! ### No InternalBug -/

theorem readFinalStep_failsOnly : FailsOnly [.endOfInput] (readFinalStep s) := by
  unfold readFinalStep
  cases hr : readBits 1 s with
  | error e =>
    rw [readBits_error (by decide) hr]
    exact raise_failsOnly (by decide) s
  | ok r => exact next_failsOnly nofun

theorem blockHeader_failsOnly (f : Bool) (bt : BitVec 2) :
    FailsOnly [.endOfInput, .reservedBtype] (exec (decodeBlockHeader f bt) s) := by
  have hreserved : FailsOnly [.endOfInput, .reservedBtype] (raise .reservedBtype (s.enterBlock f 3 .storedHeader)) :=
    raise_failsOnly (by decide) _
  unfold decodeBlockHeader
  split
  · exact next_failsOnly nofun
  split
  · exact next_failsOnly nofun
  split
  · exact next_failsOnly nofun
  · exact hreserved

theorem readTypeStep_failsOnly (hl : s.CursorLegal) :
    FailsOnly [.endOfInput, .reservedBtype] (runFetched (fetchBlockHeader s) s) := by
  refine runFetched_failsOnly (fun e he => ?_) fun i c hr => ?_
  · rw [fetchBlockHeader_endOfInput he]
    decide
  · obtain ⟨-, bt, rfl⟩ := fetchBlockHeader_ok hl hr
    exact blockHeader_failsOnly _ bt

/-- The block answers a next state in every phase, whatever the host has coming. -/
theorem State.Inv.blockStep_answers (h : s.Inv) : ∃ t, blockStep s = .next t := by
  cases hb : s.busy with
  | false => exact ⟨s, blockStep_idle hb⟩
  | true =>
    obtain ⟨hl, -, -, hparser⟩ := h.call hb
    have hc := h.inCall hb
    have hne := phase_ne_error_of_busy hb
    unfold State.busy at hb
    unfold blockStep
    cases hp : s.phase with
    | readFinal => exact readFinalStep_failsOnly.answers (by decide)
    | readType => exact (readTypeStep_failsOnly hl).answers (by decide)
    | decodeBlock =>
      have hcauses := elementCauses_reachable (hparser hp).btype_of_codeLength
      exact (element_failsOnly hc hne (hparser hp)).answers fun c hc => (hcauses c hc).1
    | idle | done | error => rw [hp] at hb; cases hb

theorem noInternalBug_of_next (h : ∃ t, o = .next t) : noInternalBug o := by
  obtain ⟨t, rfl⟩ := h
  trivial

theorem hostAccess_noInternalBug (a : RegAccess) (s : State) : noInternalBug (hostAccess a s) := by
  cases hostAccess_answer a s with
  | refused r ho => rw [ho]; trivial
  | start x ho =>
    rw [ho, execHostStart, raise_next (by decide)]
    split_ifs <;> trivial
  | writeInLen x ho =>
    rw [ho, execHostWriteInLen]
    split_ifs <;> trivial
  | ignored ho => exact noInternalBug_of_next ⟨s, ho⟩
  | read h => obtain ⟨w, ho | ho⟩ := h <;> exact noInternalBug_of_next ⟨_, ho⟩

/-- The host's step, from any state: its one error is IN_LEN_TOO_LARGE. -/
theorem hostStep_noInternalBug (a : HostAction) (s : State) : noInternalBug (hostStep a s) := by
  cases a with
  | reg a => exact hostAccess_noInternalBug a s
  | reset => trivial
  | writeIn addr b | readIn addr | writeOut addr b | readOut addr =>
    simp only [hostStep, hostWriteIn, hostReadIn, hostWriteOut, hostReadOut]
    split_ifs <;> trivial

/-- Settles O51: the step is the block's or the host's, and the invariant does not look at the host's queue. -/
theorem noInternalBugFromTheInvariant : Obligations.NoInternalBugFromTheInvariant := by
  unfold Obligations.NoInternalBugFromTheInvariant
  intro s h
  have queued (q : List HostStep) : State.Inv { s with hostQueue := q } := { h with }
  have hblock (hq : s.hostQueue = []) : ∃ t, step s = .next t := step_block hq ▸ h.blockStep_answers
  refine ⟨?_, hblock⟩
  cases hq : s.hostQueue with
  | nil => exact noInternalBug_of_next (hblock hq)
  | cons a rest =>
    by_cases hw : s.busy = true → a.wait = 0
    · rw [step_host_now hq hw]
      exact hostStep_noInternalBug _ _
    · obtain ⟨hb, hne⟩ := Classical.not_imp.1 hw
      rw [step_host_later hq hb hne]
      exact noInternalBug_of_next (queued _).blockStep_answers

end Sys2Proof.Machine
end
